-- ==== Sys2Proof/Word.lean ====
section
/-! DEFINITION. The values of the block: bytes, half words and words, all unsigned (R6). -/

namespace Sys2Proof

/-- An unsigned 8-bit value, `u8` (R6). -/
abbrev Byte := BitVec 8

/-- An unsigned 16-bit value, `u16` (R6). -/
abbrev Half := BitVec 16

/-- An unsigned 32-bit value, `u32` (R6). -/
abbrev Word := BitVec 32

end Sys2Proof
end

