-- ==== Sys2Proof/Config.lean ====
section
/-! DEFINITION. The fixed parameters of R4, the defaults of the two elaboration parameters, and the free values: what the
spec leaves open, as constants without a body. -/

namespace Sys2Proof

/-- START_MARKER (R4). -/
abbrev Config.startMarker : Byte := 0xFD

/-- END_MARKER (R4). -/
abbrev Config.endMarker : Byte := 0xED

/-- Command 0x00, "reserved/unused by interpreter" (R64). -/
abbrev Config.cmdReserved0 : Byte := 0x00

/-- CMD_CLASSIFICATION (R4). -/
abbrev Config.cmdClassification : Byte := 0x01

/-- CMD_DETECTION (R4). -/
abbrev Config.cmdDetection : Byte := 0x02

/-- HEADER_BYTES (R4). -/
abbrev Config.headerBytes : Nat := 3

/-- CHECKSUM_BYTES (R4). -/
abbrev Config.checksumBytes : Nat := 4

/-- PAYLOAD_CAPACITY, the size of PBUF in bytes (R4, R40). -/
abbrev Config.payloadCapacity : Nat := 65535

/-- The default of TRIGGER_ID (R4, R32). -/
abbrev Config.defaultTriggerId : Byte := 2

/-- The default of LOG_CAPACITY (R4, R32). -/
abbrev Config.defaultLogCapacity : Nat := 100

/-- TS_WIDTH, the OPEN parameter of R4: any width (log entry 8). -/
opaque Config.tsWidth : Nat

/-- TS, an unsigned TS_WIDTH-bit value (R31). -/
abbrev Timestamp := BitVec Config.tsWidth

/-- The timestamp of the n-th draw: a free input with no law of monotonicity or distinctness (R154, log entry 8). -/
opaque Config.timestamp : Nat → Timestamp

/-- `cmd` after RST: unspecified (R35, I1, log entry 5). -/
opaque Config.rstCmd : Nat → Byte

/-- `len` after RST: unspecified (R35, I1, log entry 5). -/
opaque Config.rstLen : Nat → Half

/-- `csum` after RST: unspecified (R35, I1, log entry 5). -/
opaque Config.rstCsum : Nat → Word

/-- Whether RESET clears `cmd` or leaves it: "unchanged or cleared, either is allowed" (R35, R110, log entry 6). -/
opaque Config.resetClearsCmd : Nat → Bool

/-- Whether RESET clears `len` or leaves it (R35, R110, log entry 6). -/
opaque Config.resetClearsLen : Nat → Bool

/-- Whether RESET clears `csum` or leaves it (R35, R110, log entry 6). -/
opaque Config.resetClearsCsum : Nat → Bool

/-- What HDR0 and HDR1 hold, by register and draw, where R38 gives them no contents (log entry 31). -/
opaque Config.idleHeader : Nat → Nat → Byte

/-- What a byte lane of CSUM holds, by lane and draw, in Checksum before its byte has arrived (R38, log entry 24). -/
opaque Config.idleChecksum : Nat → Nat → Byte

/-- The output ports that show "any value" in some cycles (R77, R82) or whose value the spec does not state there (R79). -/
inductive OpenPort where
  | frameCmd | frameLen | frameCsum | plData
  | recKind | recSubtype | recId | recX | recY | recW | recH | recConf
  | logTs | logByte
  | logRecKind | logRecSubtype | logRecId | logRecX | logRecY | logRecW | logRecH | logRecConf
deriving DecidableEq, Repr

/-- What a port shows in a cycle in which the spec gives it "any value" (I2 to I4, log entries 18 and 19), by the number
of draws so far and the address or index presented; the port keeps as many low bits as it is wide. -/
opaque Config.openPort : OpenPort → Nat → Nat → Nat

end Sys2Proof
end

