-- ==== Sys2Proof/Syntax.lean ====
section
/-! DEFINITION. What the block handles and what it can be asked to do: frames, records, the opcode table's operations
(`Instr`), the operations of R69 as they are presented (`Operation`), the words the decoder reads (`OpWord`), and the
event notation of R71 and R72 (`Line`). -/

namespace Sys2Proof

/-- The five phases of the FrameDecoder (R24); `atEnd` is the spec's End. -/
inductive Phase where
  | waitStart | header | payload | checksum | atEnd
deriving DecidableEq, Repr

/-- A Frame (R29). `|payload| = length` is `Frame.wf`. -/
structure Frame where
  command : Byte
  length : Half
  payload : List Byte
  checksum : Word
deriving DecidableEq, Repr

/-- A Record, one of two variants (R30). -/
inductive Record where
  | classification (subtype id confidence : Byte)
  | detection (subtype id x y w h confidence : Byte)
deriving DecidableEq, Repr

/-- A TriggerEvent (R30). -/
structure TriggerEvent where
  record : Record
deriving DecidableEq, Repr

/-- An entry of the raw channel (R31). -/
structure RawEntry where
  timestamp : Timestamp
  value : Byte
deriving DecidableEq, Repr

/-- An entry of the decoded channel (R31). -/
structure RecEntry where
  timestamp : Timestamp
  record : Record
deriving DecidableEq, Repr

/-- The two channels of the trace unit (R31, R155); `decoded` is the spec's `rec`. -/
inductive Channel where
  | raw | decoded
deriving DecidableEq, Repr

/-- A snapshot of one channel, newest entry first (R155). -/
inductive Snapshot where
  | raw (entries : List RawEntry)
  | decoded (entries : List RecEntry)
deriving DecidableEq, Repr

/-- One constructor per mnemonic of spec/opcode_table.json. -/
inductive Instr where
  | feedWsStart
  | feedWsSkip (b : Byte)
  | feedHdrAcc (b : Byte)
  | feedHdrDone (b : Byte)
  | feedPlAcc (b : Byte)
  | feedPlDone (b : Byte)
  | feedCkAcc (b : Byte)
  | feedCkDone (b : Byte)
  | feedEndEmit
  | feedEndStall (b : Byte)
  | reset
  | rst
  | interpClassification (f : Frame)
  | interpDetection (f : Frame)
  | interpReserved0 (f : Frame)
  | interpUnknown (f : Frame)
  | routeTrigger (r : Record)
  | routeNone (r : Record)
  | logPushRaw (t : Timestamp) (b : Byte)
  | logPushRecord (t : Timestamp) (r : Record)
  | logSnapshot (ch : Channel)
deriving DecidableEq, Repr

/-- The block's operations as they are presented, before the decoder selects a row (R69). FEED, RESET, RST and the reading
of a snapshot come from outside the block; the others are its internal stages (log entry 26). -/
inductive Operation where
  | feed (b : Byte)
  | reset
  | rst
  | interpret (f : Frame)
  | route (r : Record)
  | logPushRaw (t : Timestamp) (b : Byte)
  | logPushRecord (t : Timestamp) (r : Record)
  | logSnapshot (ch : Channel)
deriving DecidableEq, Repr

/-- The five formats of the opcode table. -/
inductive Format where
  | feed | control | command | record | log
deriving DecidableEq, Repr

/-- What the decoder reads to select a row, one constructor per kind of selection the opcode table makes. -/
inductive OpWord where
  /-- The 11-bit key with the count and the length its condition speaks of (R70). -/
  | feed (key : BitVec 11) (count : Nat) (len : Half)
  /-- The two reset lines (R74). -/
  | control (softReset rst : Bool)
  /-- A frame, selected by its command byte (R64, R121). -/
  | command (f : Frame)
  /-- A record, selected by its id against TRIGGER_ID (R140, R141). -/
  | record (r : Record) (triggerId : Byte)
  /-- A timestamp and an accepted byte (R151). -/
  | pushRaw (t : Timestamp) (b : Byte)
  /-- A timestamp and a yielded record (R152). -/
  | pushRecord (t : Timestamp) (r : Record)
  /-- The log_sel line (R82, R155). -/
  | snapshot (logSel : Bool)
deriving DecidableEq, Repr

/-- Why a word or a byte string decodes to nothing. -/
inductive Reject where
  /-- A key whose phase code is 5, 6 or 7 (R68, I13). -/
  | phaseCode (code : BitVec 3)
  /-- A key whose count meets no row's condition: no reachable state presents one (R70). -/
  | noFeedRow (key : BitVec 11)
  /-- Neither reset line is high (R74). -/
  | noResetLine
  /-- A value whose payload is not as long as its length field says is no Frame (R29). -/
  | notAFrame
  /-- No row for the command byte; every byte has one (R64). -/
  | noCommandRow (command : Byte)
  /-- A byte string that does not begin with START_MARKER (R60). -/
  | noStartMarker
  /-- A byte string that ends before its frame does (R60). -/
  | truncated
  /-- A byte string with another byte where END_MARKER belongs (R60). -/
  | noEndMarker
deriving DecidableEq, Repr

/-- One line of a test program (R71) or the pseudo-operation of R72. -/
inductive Line where
  | feed (b : Byte)
  | bytes (bs : List Byte)
  | reset
  | rst
  | frame (cmd : Byte) (csum : Word) (payload : List Byte)
deriving DecidableEq, Repr

end Sys2Proof
end

