-- ==== Sys2Proof/WellFormed.lean ====
section
/-! DEFINITION. Which operations exist: the byte a row's key excludes, the frame a row's command selects. -/

namespace Sys2Proof

/-- A value is a Frame when its payload is as long as its length field says (R29). -/
def Frame.wf (f : Frame) : Bool :=
  f.payload.length == f.length.toNat

/-- An instruction is well formed when its operands are ones its row of the opcode table matches (R70, R64, R124). -/
def Instr.wf : Instr → Bool
  | .feedWsStart => true
  | .feedWsSkip b => b != Config.startMarker
  | .feedHdrAcc _ => true
  | .feedHdrDone _ => true
  | .feedPlAcc _ => true
  | .feedPlDone _ => true
  | .feedCkAcc _ => true
  | .feedCkDone _ => true
  | .feedEndEmit => true
  | .feedEndStall b => b != Config.endMarker
  | .reset => true
  | .rst => true
  | .interpClassification f => f.wf && f.command == Config.cmdClassification
  | .interpDetection f => f.wf && f.command == Config.cmdDetection
  | .interpReserved0 f => f.wf && f.command == Config.cmdReserved0
  | .interpUnknown f =>
    f.wf && f.command != Config.cmdReserved0 && f.command != Config.cmdClassification
      && f.command != Config.cmdDetection
  | .routeTrigger _ => true
  | .routeNone _ => true
  | .logPushRaw _ _ => true
  | .logPushRecord _ _ => true
  | .logSnapshot _ => true

end Sys2Proof
end

