-- ==== Sys2Proof/Decode.lean ====
section
/-! DEFINITION. Bits and bytes: the phase codes, byte order, the selection of an operation (R64, R70, R74, R140, R141,
R155), the wire frame (R60 to R63), the event notation (R71, R72), and the encoder. -/

namespace Sys2Proof

/-! ### Byte order -/

/-- Two bytes, low first, as an unsigned 16-bit value (R43). -/
def le16 (lo hi : Byte) : Half :=
  lo.zeroExtend 16 ||| (hi.zeroExtend 16 <<< 8)

/-- Four bytes in arrival order as an unsigned 32-bit value (R43). -/
def le32 (c0 c1 c2 c3 : Byte) : Word :=
  c0.zeroExtend 32 ||| (c1.zeroExtend 32 <<< 8) ||| (c2.zeroExtend 32 <<< 16) ||| (c3.zeroExtend 32 <<< 24)

/-- Byte `i` of a 16-bit value, bits `[8i+7:8i]`. -/
def halfByte (v : Half) (i : Nat) : Byte :=
  v.extractLsb' (8 * i) 8

/-- Byte `i` of a 32-bit value, bits `[8i+7:8i]`. -/
def wordByte (v : Word) (i : Nat) : Byte :=
  v.extractLsb' (8 * i) 8

/-! ### Phase codes -/

/-- The code of a phase on the `phase` status port (R24). -/
def Phase.code : Phase → BitVec 3
  | .waitStart => 0
  | .header => 1
  | .payload => 2
  | .checksum => 3
  | .atEnd => 4

/-- The phase a code names; 5, 6 and 7 name none (R24). -/
def Phase.ofCode (c : BitVec 3) : Option Phase :=
  if c = 0 then some .waitStart
  else if c = 1 then some .header
  else if c = 2 then some .payload
  else if c = 3 then some .checksum
  else if c = 4 then some .atEnd
  else none

/-- The phase in which the cycle-level realisation handles the next accepted byte when its PHASE register holds `c`:
codes 5, 6 and 7 are handled as WaitStart (R68). -/
def Phase.ofReg (c : BitVec 3) : Phase :=
  (Phase.ofCode c).getD .waitStart

/-! ### FEED: the decoding key (R70) -/

/-- `key = (phase_code << 8) | b` (R70). -/
def feedKey (p : Phase) (b : Byte) : BitVec 11 :=
  (p.code.zeroExtend 11 <<< 8) ||| b.zeroExtend 11

/-- The byte of a key, `key[7:0]`. -/
def keyByte (key : BitVec 11) : Byte :=
  key.extractLsb' 0 8

/-- The phase code of a key, `key[10:8]`. -/
def keyCode (key : BitVec 11) : BitVec 3 :=
  key.extractLsb' 8 3

/-- The condition column of R70's table. -/
inductive CountCond where
  | none
  | below (k : Nat)
  | equals (k : Nat)
  | beforeLast
  | last
deriving DecidableEq, Repr

/-- Whether a condition holds for `|scratch| = n` and the length `len` (R70). -/
def CountCond.holds (n : Nat) (len : Half) : CountCond → Bool
  | .none => true
  | .below k => n < k
  | .equals k => n == k
  | .beforeLast => n + 1 < len.toNat
  | .last => n + 1 == len.toNat

/-- A row of R70's table. -/
structure FeedRow where
  pattern : BitVec 11
  mask : BitVec 11
  cond : CountCond
  build : Byte → Instr

/-- The ten rows of R70, in the order in which they are tried. -/
def feedRows : List FeedRow :=
  [ { pattern := 0x0FD, mask := 0x7FF, cond := .none, build := fun _ => .feedWsStart },
    { pattern := 0x000, mask := 0x700, cond := .none, build := .feedWsSkip },
    { pattern := 0x100, mask := 0x700, cond := .below 2, build := .feedHdrAcc },
    { pattern := 0x100, mask := 0x700, cond := .equals 2, build := .feedHdrDone },
    { pattern := 0x200, mask := 0x700, cond := .beforeLast, build := .feedPlAcc } ] ++
  [ { pattern := 0x200, mask := 0x700, cond := .last, build := .feedPlDone },
    { pattern := 0x300, mask := 0x700, cond := .below 3, build := .feedCkAcc },
    { pattern := 0x300, mask := 0x700, cond := .equals 3, build := .feedCkDone },
    { pattern := 0x4ED, mask := 0x7FF, cond := .none, build := fun _ => .feedEndEmit },
    { pattern := 0x400, mask := 0x700, cond := .none, build := .feedEndStall } ]

/-- Whether a row's key matches under its mask. -/
def FeedRow.hits (key : BitVec 11) (row : FeedRow) : Bool :=
  (key &&& row.mask) == row.pattern

/-- "the first row whose key matches under its mask and whose condition holds applies" (R70). -/
def decodeFeed (key : BitVec 11) (n : Nat) (len : Half) : Option Instr :=
  (feedRows.find? fun row => row.hits key && row.cond.holds n len).map fun row => row.build (keyByte key)

/-! ### INTERPRET: the command byte (R64, R121, R124) -/

/-- A row of the opcode table's command format. -/
structure CommandRow where
  pattern : Byte
  mask : Byte
  build : Frame → Instr

/-- The ten command rows of the opcode table. -/
def commandRows : List CommandRow :=
  [ { pattern := 0x01, mask := 0xFF, build := .interpClassification },
    { pattern := 0x02, mask := 0xFF, build := .interpDetection },
    { pattern := 0x00, mask := 0xFF, build := .interpReserved0 },
    { pattern := 0x03, mask := 0xFF, build := .interpUnknown },
    { pattern := 0x04, mask := 0xFC, build := .interpUnknown } ] ++
  [ { pattern := 0x08, mask := 0xF8, build := .interpUnknown },
    { pattern := 0x10, mask := 0xF0, build := .interpUnknown },
    { pattern := 0x20, mask := 0xE0, build := .interpUnknown },
    { pattern := 0x40, mask := 0xC0, build := .interpUnknown },
    { pattern := 0x80, mask := 0x80, build := .interpUnknown } ]

/-- Whether a command byte matches a row under its mask. -/
def CommandRow.hits (c : Byte) (row : CommandRow) : Bool :=
  (c &&& row.mask) == row.pattern

/-- The row a frame's command byte selects (R64, R121). -/
def decodeCommand (f : Frame) : Option Instr :=
  (commandRows.find? (CommandRow.hits f.command)).map fun row => row.build f

/-! ### ROUTE and LOG_SNAPSHOT -/

/-- The `id` of either variant of a record (R30, R140). -/
def Record.id : Record → Byte
  | .classification _ i _ => i
  | .detection _ i _ _ _ _ _ => i

/-- `log_sel`: 0 is the raw channel, 1 the decoded one (R82). -/
def Channel.ofSel (logSel : Bool) : Channel :=
  if logSel then .decoded else .raw

/-- The `log_sel` value of a channel (R82). -/
def Channel.sel : Channel → Bool
  | .raw => false
  | .decoded => true

/-! ### The decoder -/

/-- The operation a word selects, or why it selects none. `rst` wins over `soft_reset` (R74). -/
def decode : OpWord → Except Reject Instr
  | .feed key n len =>
    match decodeFeed key n len with
    | some i => .ok i
    | none => if (Phase.ofCode (keyCode key)).isNone then .error (.phaseCode (keyCode key)) else .error (.noFeedRow key)
  | .control softReset rst =>
    if rst then .ok .rst else if softReset then .ok .reset else .error .noResetLine
  | .command f =>
    if f.wf then
      match decodeCommand f with
      | some i => .ok i
      | none => .error (.noCommandRow f.command)
    else .error .notAFrame
  | .record r triggerId => if r.id = triggerId then .ok (.routeTrigger r) else .ok (.routeNone r)
  | .pushRaw t b => .ok (.logPushRaw t b)
  | .pushRecord t r => .ok (.logPushRecord t r)
  | .snapshot logSel => .ok (.logSnapshot (Channel.ofSel logSel))

/-! ### The encoder -/

/-- The word of an instruction. A FEED row is given a count and a length that meet its condition, a ROUTE row a TRIGGER_ID
that does (log entry 17). -/
def encode : Instr → OpWord
  | .feedWsStart => .feed (feedKey .waitStart Config.startMarker) 0 0
  | .feedWsSkip b => .feed (feedKey .waitStart b) 0 0
  | .feedHdrAcc b => .feed (feedKey .header b) 0 0
  | .feedHdrDone b => .feed (feedKey .header b) 2 0
  | .feedPlAcc b => .feed (feedKey .payload b) 0 2
  | .feedPlDone b => .feed (feedKey .payload b) 0 1
  | .feedCkAcc b => .feed (feedKey .checksum b) 0 0
  | .feedCkDone b => .feed (feedKey .checksum b) 3 0
  | .feedEndEmit => .feed (feedKey .atEnd Config.endMarker) 0 0
  | .feedEndStall b => .feed (feedKey .atEnd b) 0 0
  | .reset => .control true false
  | .rst => .control false true
  | .interpClassification f => .command f
  | .interpDetection f => .command f
  | .interpReserved0 f => .command f
  | .interpUnknown f => .command f
  | .routeTrigger r => .record r r.id
  | .routeNone r => .record r (r.id + 1)
  | .logPushRaw t b => .pushRaw t b
  | .logPushRecord t r => .pushRecord t r
  | .logSnapshot ch => .snapshot ch.sel

/-- The format the opcode table gives an instruction's row. -/
def Instr.format : Instr → Format
  | .feedWsStart | .feedWsSkip _ | .feedHdrAcc _ | .feedHdrDone _ | .feedPlAcc _ => .feed
  | .feedPlDone _ | .feedCkAcc _ | .feedCkDone _ | .feedEndEmit | .feedEndStall _ => .feed
  | .reset | .rst => .control
  | .interpClassification _ | .interpDetection _ | .interpReserved0 _ | .interpUnknown _ => .command
  | .routeTrigger _ | .routeNone _ => .record
  | .logPushRaw _ _ | .logPushRecord _ _ | .logSnapshot _ => .log

/-- The format of a word. -/
def OpWord.format : OpWord → Format
  | .feed _ _ _ => .feed
  | .control _ _ => .control
  | .command _ => .command
  | .record _ _ => .record
  | .pushRaw _ _ | .pushRecord _ _ | .snapshot _ => .log

/-! ### The opcode table's numbers -/

/-- The word an opcode-table number stands for. A number of two bytes is a FEED key in bits 10:0; the table gives its
condition no bits, so it is read with the count and length of the FIRST row of R70 whose key it matches (log entry 15).
A number of one byte is a command byte; the operand bytes after it are zeros, so its frame is the empty one (log entry 16).
The other formats have no number. -/
def tableWord (nbits w : Nat) : Option OpWord :=
  if nbits = 16 ∧ w < 2 ^ 11 then
    let key := BitVec.ofNat 11 w
    match Phase.ofCode (keyCode key) with
    | some .waitStart => some (.feed key 0 0)
    | some .header => some (.feed key 0 0)
    | some .payload => some (.feed key 0 2)
    | some .checksum => some (.feed key 0 0)
    | some .atEnd => some (.feed key 0 0)
    | none => none
  else if nbits = 8 ∧ w < 2 ^ 8 then
    some (.command { command := BitVec.ofNat 8 w, length := 0, payload := [], checksum := 0 })
  else none

/-- The instruction the decoder reads from an opcode-table number (log entries 15 and 16). -/
def decodeTableWord (nbits w : Nat) : Option Instr :=
  match tableWord nbits w with
  | none => none
  | some word => (decode word).toOption

/-! ### The wire frame -/

/-- A frame on the wire, byte by byte in arrival order (R60, R72). -/
def Frame.wire (f : Frame) : List Byte :=
  [Config.startMarker, f.command, halfByte f.length 0, halfByte f.length 1] ++ f.payload ++
    [wordByte f.checksum 0, wordByte f.checksum 1, wordByte f.checksum 2, wordByte f.checksum 3, Config.endMarker]

/-- The frame at the front of a byte string, field by field (R62, R63), with the bytes that follow it. -/
def parseWire : List Byte → Except Reject (Frame × List Byte)
  | start :: command :: lo :: hi :: rest =>
    if start ≠ Config.startMarker then .error .noStartMarker
    else
      let n := (le16 lo hi).toNat
      match rest.drop n with
      | c0 :: c1 :: c2 :: c3 :: stop :: tail =>
        if stop ≠ Config.endMarker then .error .noEndMarker
        else .ok ({ command := command, length := le16 lo hi, payload := rest.take n, checksum := le32 c0 c1 c2 c3 }, tail)
      | _ => .error .truncated
  | _ => .error .truncated

/-! ### The event notation -/

/-- The events a line of a test program presents, in order (R71); the `frame` line is R72's pseudo-operation, whose length
field is the payload's length. -/
def Line.events : Line → List Operation
  | .feed b => [.feed b]
  | .bytes bs => bs.map .feed
  | .reset => [.reset]
  | .rst => [.rst]
  | .frame cmd csum payload =>
    ({ command := cmd, length := BitVec.ofNat 16 payload.length, payload := payload, checksum := csum } : Frame).wire.map .feed

/-- The bytes a line feeds: its "encoding" (R71). -/
def Line.encoding (l : Line) : List Byte :=
  l.events.filterMap fun
    | .feed b => some b
    | _ => none

end Sys2Proof
end

