-- ==== Sys2Proof/Machine/State.lean ====
section
/-! DEFINITION. The state of one block instance, what can stop a step, and the state after RST. -/

namespace Sys2Proof.Machine

/-- PBUF as (index, byte) pairs with strictly rising indices below 65535; an index that is not listed has no value
(R40, log entry 7). -/
abbrev Memory := List Host.Cell

/-- The input ports as sampled at one rising edge of `clk` (R73). -/
structure PortIn where
  /-- `rst` -/
  rst : Bool
  /-- `soft_reset` -/
  softReset : Bool
  /-- `in_valid` -/
  inValid : Bool
  /-- `in_data`, bit 7 most significant -/
  inData : Byte
  /-- `rec_ready` -/
  recReady : Bool
  /-- `pl_addr` -/
  plAddr : BitVec 16
  /-- `ts` -/
  ts : Timestamp
  /-- `log_sel` -/
  logSel : Bool
  /-- `log_idx` -/
  logIdx : Nat
deriving DecidableEq, Repr

/-- What the environment presents: an operation, handled as one atomic transaction (R10, R170 to R172), or one rising
clock edge of the cycle-level realisation (R73 to R82). -/
inductive Input where
  | op (o : Operation)
  | edge (p : PortIn)
deriving DecidableEq, Repr

/-- The state of one block instance, with what the environment presents and what the consumers have received. -/
structure State where
  /-- `S.phase` (R24). -/
  phase : Phase
  /-- `S.scratch` (R25). -/
  scratch : List Byte
  /-- `S.cmd` (R26). -/
  cmd : Byte
  /-- `S.len` (R26). -/
  len : Half
  /-- `S.payload` (R27). -/
  payload : List Byte
  /-- `S.csum` (R28). -/
  csum : Word
  /-- PBUF (R40). -/
  pbuf : Memory
  /-- `T.raw`, oldest entry first (R31). -/
  traceRaw : List RawEntry
  /-- `T.rec`, oldest entry first (R31). -/
  traceRec : List RecEntry
  /-- TRIGGER_ID (R32), fixed for the life of the instance. -/
  triggerId : Byte
  /-- LOG_CAPACITY (R32), fixed for the life of the instance. -/
  logCapacity : Nat
  /-- The record cursor (R34): the yielded records that no consumer has taken yet, next first; `busy` is "not empty". -/
  pending : List Record
  /-- The frame output hold (R34, R77): the last emitted frame while its window is open. -/
  hold : Option Frame
  /-- The `frame_valid` pulse (R76). -/
  frameValid : Bool
  /-- The frames emitted so far, oldest first (R170, R173). -/
  frames : List Frame
  /-- The records delivered so far, oldest first (R170, R173). -/
  records : List Record
  /-- The trigger events delivered so far, oldest first (R143, R170, R173). -/
  triggers : List TriggerEvent
  /-- The snapshots read so far, oldest first (R155). -/
  snapshots : List Snapshot
  /-- What the environment presents, next first (R71, R173). -/
  inputs : List Input
  /-- The MODEL's own counter: it numbers the free values (log entry 9). -/
  draws : Nat
deriving DecidableEq, Repr

/-- Why the machine stops with a fault. The block itself raises none (R200). -/
inductive Fault where
  /-- A PBUF index above 65534, which names no byte (R40). Raised by `memWrite`; no row's condition lets it happen. Safe. -/
  | pbufIndex
deriving DecidableEq, Repr

/-- Why the model gives an operation no meaning. -/
inductive Refusal where
  /-- An instruction without a meaning yet. Raised by `exec`; safe. -/
  | notModelled (mnemonic : String)
  /-- An operation executed in a state, or on an operand, that its row of the opcode table does not match (R70, R121, R140,
  R141), so the spec gives it no effect there. Raised by the FEED, INTERP and ROUTE meanings; safe. -/
  | rowNotApplicable (mnemonic : String)
  /-- A presented operation that selects no row. Raised by `runDecoded`; safe. -/
  | undecodable (why : Reject)
  /-- LOG_CAPACITY = 0, which I7 of 93_implementation_defined.md asks a model to refuse. Raised by the log pushes; safe. -/
  | logCapacityZero
deriving DecidableEq, Repr

/-- The state after RST (R35, R230) with the default parameters (R4) and nothing presented. `cmd`, `len` and `csum`, which
R35 leaves unspecified, hold 0 (log entry 4). -/
def State.reset : State where
  phase := .waitStart
  scratch := []
  cmd := 0
  len := 0
  payload := []
  csum := 0
  pbuf := []
  traceRaw := []
  traceRec := []
  triggerId := Config.defaultTriggerId
  logCapacity := Config.defaultLogCapacity
  pending := []
  hold := none
  frameValid := false
  frames := []
  records := []
  triggers := []
  snapshots := []
  inputs := []
  draws := 0

end Sys2Proof.Machine
end

