-- ==== Sys2Proof/Machine/Ops.lean ====
section
/-! DEFINITION. The named operations over the state: the primitives of R8, the stores of R31 and R40, what is delivered to
the consumers, the frame window of R77. The block takes no exception and returns from none (R200, R206, R207), so no
operation for either is here. -/

namespace Sys2Proof.Machine

/-- What one step of this machine answers. -/
abbrev Result := Host.Outcome State Fault Refusal

/-- One operation after another: a fault or a refusal of the first ends both. -/
def andThen (first : Result) (second : State → Result) : Result :=
  match first with
  | .next s => second s
  | .fault r => .fault r
  | .refused r => .refused r

/-! ### The decoder's fields -/

/-- `phase <- p`, the only control transfer of the block (R8). -/
def State.setPhase (p : Phase) (s : State) : State := { s with phase := p }

/-- `S.scratch <- bs`. -/
def State.setScratch (bs : List Byte) (s : State) : State := { s with scratch := bs }

/-- `S.cmd <- c` and `S.len <- l`, written together (R26). -/
def State.setHeader (c : Byte) (l : Half) (s : State) : State := { s with cmd := c, len := l }

/-- `S.payload <- bs`. -/
def State.setPayload (bs : List Byte) (s : State) : State := { s with payload := bs }

/-- `S.csum <- v`. -/
def State.setCsum (v : Word) (s : State) : State := { s with csum := v }

/-! ### The payload buffer -/

/-- The byte at an index of PBUF; none where nothing has been written since its contents were last unspecified. -/
def Memory.read (m : Memory) (a : Nat) : Option Byte :=
  (m.find? fun c => c.1 == a).map Prod.snd

/-- Write one byte, keeping the pairs in the order of their indices. -/
def Memory.write : Memory → Nat → Byte → Memory
  | [], a, b => [(a, b)]
  | c :: m, a, b =>
    if a < c.1 then (a, b) :: c :: m
    else if a = c.1 then (a, b) :: m
    else c :: Memory.write m a b

/-- The canonical form: strictly rising indices, all of them inside PBUF. -/
abbrev Memory.wf (m : Memory) : Prop :=
  m.Pairwise (fun c d => c.1 < d.1) ∧ ∀ c ∈ m, c.1 < Config.payloadCapacity

/-- The memory that holds exactly these bytes, from index 0 on. -/
def Memory.ofBytes (bs : List Byte) : Memory :=
  bs.zipIdx.map fun p => (p.2, p.1)

/-- Replace the contents of PBUF. -/
def State.setPbuf (m : Memory) (s : State) : State := { s with pbuf := m }

/-- `MemWrite(i, 1, b)` (R8, R41). PBUF has no byte at an index above 65534 (R40). -/
def memWrite (i : Nat) (b : Byte) (s : State) : Result :=
  if i < Config.payloadCapacity then .next (s.setPbuf (s.pbuf.write i b)) else .fault .pbufIndex

/-! ### The trace channels -/

/-- Append an entry and evict the oldest one when the channel then exceeds its capacity (R151, R152). -/
def pushBounded {α : Type} (capacity : Nat) (channel : List α) (entry : α) : List α :=
  if (channel ++ [entry]).length > capacity then (channel ++ [entry]).drop 1 else channel ++ [entry]

/-- Replace the raw channel. -/
def State.setTraceRaw (es : List RawEntry) (s : State) : State := { s with traceRaw := es }

/-- Replace the decoded channel. -/
def State.setTraceRec (es : List RecEntry) (s : State) : State := { s with traceRec := es }

/-- `snapshot(ch) = reverse(T.ch)` (R155). -/
def State.snapshot (ch : Channel) (s : State) : Snapshot :=
  match ch with
  | .raw => .raw s.traceRaw.reverse
  | .decoded => .decoded s.traceRec.reverse

/-! ### Outputs -/

/-- Replace the record cursor. -/
def State.setPending (rs : List Record) (s : State) : State := { s with pending := rs }

/-- The interpreter yields records, in order, after those it has yielded already. -/
def State.yieldRecords (rs : List Record) (s : State) : State := s.setPending (s.pending ++ rs)

/-- `emit Frame(f)`: the frame is delivered, its pulse rises and its window opens (R8, R76, R77). -/
def State.emitFrame (f : Frame) (s : State) : State :=
  { s with frames := s.frames ++ [f], hold := some f, frameValid := true }

/-- `emit Record(r)`: the consumer receives the record (R8). -/
def State.emitRecord (r : Record) (s : State) : State := { s with records := s.records ++ [r] }

/-- `emit Trigger(r)`: the trigger sink receives the event (R8, R143). -/
def State.emitTrigger (r : Record) (s : State) : State := { s with triggers := s.triggers ++ [⟨r⟩] }

/-- The observer receives a snapshot (R155). -/
def State.emitSnapshot (x : Snapshot) (s : State) : State := { s with snapshots := s.snapshots ++ [x] }

/-- `frame_valid` falls (R76). -/
def State.endPulse (s : State) : State := { s with frameValid := false }

/-- The next byte is accepted: the frame window closes (R77) and the bytes of the frame it showed are gone (R238, log
entry 7). -/
def State.closeWindow (s : State) : State :=
  { s with hold := none, frameValid := false, pbuf := if s.hold.isSome then [] else s.pbuf }

/-! ### The environment -/

/-- Replace what the environment presents. -/
def State.setInputs (is : List Input) (s : State) : State := { s with inputs := is }

/-- Count one draw of free values. -/
def State.drawn (s : State) : State := { s with draws := s.draws + 1 }

/-! ### The two resets -/

/-- The decoder part of `reset()` (R110): phase, scratch and payload as R35 says; `cmd`, `len` and `csum` each unchanged or
cleared, by a free choice (log entry 6). PBUF keeps the frame that an open window shows (R35) and is otherwise unspecified
(log entry 7). -/
def State.softReset (s : State) : State :=
  { s with
    phase := .waitStart
    scratch := []
    payload := []
    cmd := if Config.resetClearsCmd s.draws then 0 else s.cmd
    len := if Config.resetClearsLen s.draws then 0 else s.len
    csum := if Config.resetClearsCsum s.draws then 0 else s.csum
    pbuf := if s.hold.isSome then s.pbuf else []
    draws := s.draws + 1 }

/-- RST (R35, R230): the reset state, with unspecified `cmd`, `len` and `csum` (log entry 5). The parameters and what lies
outside the block stay. -/
def State.hardReset (s : State) : State :=
  { s with
    phase := .waitStart
    scratch := []
    payload := []
    cmd := Config.rstCmd s.draws
    len := Config.rstLen s.draws
    csum := Config.rstCsum s.draws
    pbuf := []
    traceRaw := []
    traceRec := []
    pending := []
    hold := none
    frameValid := false
    draws := s.draws + 1 }

end Sys2Proof.Machine
end

