-- ==== Sys2Proof/Machine/Operands.lean ====
section
/-! DEFINITION. The operand forms: the fields of a record, the held frame, the word that selects the row of a presented
operation. -/

namespace Sys2Proof.Machine

/-- `rec_kind`: 0 for a ClassificationRecord, 1 for a DetectionRecord (R73). -/
def recordKind : Record → Bool
  | .classification _ _ _ => false
  | .detection _ _ _ _ _ _ _ => true

/-- The `subtype` of a record (R30). -/
def recordSubtype : Record → Byte
  | .classification st _ _ => st
  | .detection st _ _ _ _ _ _ => st

/-- The `confidence` of a record (R30). -/
def recordConfidence : Record → Byte
  | .classification _ _ c => c
  | .detection _ _ _ _ _ _ c => c

/-- The geometry of a record, (x, y, w, h); a ClassificationRecord has none (R30). -/
def recordGeometry : Record → Option (Byte × Byte × Byte × Byte)
  | .classification _ _ _ => none
  | .detection _ _ x y w h _ => some (x, y, w, h)

/-- The frame that FEED_END_EMIT emits (R108). -/
def State.heldFrame (s : State) : Frame :=
  { command := s.cmd, length := s.len, payload := s.payload, checksum := s.csum }

/-- The word that selects the row of a FEED: the key of the phase and the byte, with `|scratch|` and `len` (R70). -/
def feedWord (b : Byte) (s : State) : OpWord :=
  .feed (feedKey s.phase b) s.scratch.length s.len

/-- The word that selects the row of a presented operation in a state (R69). -/
def selectWord (o : Operation) (s : State) : OpWord :=
  match o with
  | .feed b => feedWord b s
  | .reset => .control true false
  | .rst => .control false true
  | .interpret f => .command f
  | .route r => .record r s.triggerId
  | .logPushRaw t b => .pushRaw t b
  | .logPushRecord t r => .pushRecord t r
  | .logSnapshot ch => .snapshot ch.sel

end Sys2Proof.Machine
end

