-- ==== Sys2Proof/Machine/Flags.lean ====
section
/-! DEFINITION. The block has no flags (R22). What stands in their place: the status code of R33, `busy` of R78, and the
four labelled conditions of R200, which are not outputs of the block. -/

namespace Sys2Proof.Machine

/-- The `phase` status port (R33, R81). -/
def State.statusCode (s : State) : BitVec 3 := s.phase.code

/-- `busy`: records of the last frame are still to be taken (R78). -/
def State.busy (s : State) : Bool := !s.pending.isEmpty

/-- The four error-handling conditions of R200. -/
inductive Condition where
  /-- COND_RESYNC (R201). -/
  | resync
  /-- COND_DESYNC_STALL (R202). -/
  | desyncStall
  /-- COND_UNKNOWN_COMMAND (R203). -/
  | unknownCommand
  /-- COND_TRUNCATED_TAIL (R204). -/
  | truncatedTail
deriving DecidableEq, Repr

/-- The condition a fed byte realises in a phase, if any (R200, R101, R109). -/
def feedCondition (p : Phase) (b : Byte) : Option Condition :=
  match p with
  | .waitStart => if b ≠ Config.startMarker then some .resync else none
  | .header => none
  | .payload => none
  | .checksum => none
  | .atEnd => if b ≠ Config.endMarker then some .desyncStall else none

/-- The condition the interpretation of a frame realises, if any (R200, R122 to R124). That a detection frame with N = 0
realises none, although `(N - 1) mod 6 != 0` of R123 carries no guard, is DEDUCED (log entry 32). -/
def frameCondition (f : Frame) : Option Condition :=
  let n := f.payload.length
  if f.command = Config.cmdClassification then
    if 2 ≤ n ∧ (n - 1) % 2 ≠ 0 then some .truncatedTail else none
  else if f.command = Config.cmdDetection then
    if 1 ≤ n ∧ (n - 1) % 6 ≠ 0 then some .truncatedTail else none
  else some .unknownCommand

end Sys2Proof.Machine
end

