-- ==== Sys2Proof/Machine/FrameDecoder.lean ====
section
/-! DEFINITION. The FrameDecoder: the ten FEED rows (R100 to R109). Each meaning is its rule's pseudocode; where its guard
does not hold the row is not the one that applies, and the meaning refuses by name (log entry 12). -/

namespace Sys2Proof.Machine

/-- FEED_WS_START (R100). -/
def execFeedWsStart (s : State) : Result :=
  if s.phase = .waitStart then .next (((s.setScratch []).setPayload []).setPhase .header)
  else .refused (.rowNotApplicable "FEED_WS_START")

/-- FEED_WS_SKIP (R101). -/
def execFeedWsSkip (b : Byte) (s : State) : Result :=
  if s.phase = .waitStart ∧ b ≠ Config.startMarker then .next s
  else .refused (.rowNotApplicable "FEED_WS_SKIP")

/-- FEED_HDR_ACC (R102). -/
def execFeedHdrAcc (b : Byte) (s : State) : Result :=
  if s.phase = .header ∧ s.scratch.length < 2 then .next (s.setScratch (s.scratch ++ [b]))
  else .refused (.rowNotApplicable "FEED_HDR_ACC")

/-- What the third header byte does once the header is known: `len = 0` goes to Checksum at once (R103). -/
def headerDone (c : Byte) (l : Half) (s : State) : State :=
  let s1 := (s.setHeader c l).setScratch []
  if l = 0 then (s1.setPayload []).setPhase .checksum else s1.setPhase .payload

/-- FEED_HDR_DONE (R103). -/
def execFeedHdrDone (b : Byte) (s : State) : Result :=
  match s.phase, s.scratch with
  | .header, [c, lo] => .next (headerDone c (le16 lo b) s)
  | _, _ => .refused (.rowNotApplicable "FEED_HDR_DONE")

/-- FEED_PL_ACC (R104). -/
def execFeedPlAcc (b : Byte) (s : State) : Result :=
  if s.phase = .payload ∧ s.scratch.length + 1 < s.len.toNat then
    andThen (memWrite s.scratch.length b s) fun s1 => .next (s1.setScratch (s1.scratch ++ [b]))
  else .refused (.rowNotApplicable "FEED_PL_ACC")

/-- FEED_PL_DONE (R105). -/
def execFeedPlDone (b : Byte) (s : State) : Result :=
  if s.phase = .payload ∧ s.scratch.length + 1 = s.len.toNat then
    andThen (memWrite s.scratch.length b s) fun s1 =>
      .next (((s1.setPayload (s1.scratch ++ [b])).setScratch []).setPhase .checksum)
  else .refused (.rowNotApplicable "FEED_PL_DONE")

/-- FEED_CK_ACC (R106). -/
def execFeedCkAcc (b : Byte) (s : State) : Result :=
  if s.phase = .checksum ∧ s.scratch.length < 3 then .next (s.setScratch (s.scratch ++ [b]))
  else .refused (.rowNotApplicable "FEED_CK_ACC")

/-- FEED_CK_DONE (R107). -/
def execFeedCkDone (b : Byte) (s : State) : Result :=
  match s.phase, s.scratch with
  | .checksum, [c0, c1, c2] => .next (((s.setCsum (le32 c0 c1 c2 b)).setScratch []).setPhase .atEnd)
  | _, _ => .refused (.rowNotApplicable "FEED_CK_DONE")

/-- FEED_END_EMIT (R108). -/
def execFeedEndEmit (s : State) : Result :=
  if s.phase = .atEnd then .next (((s.setPayload []).setPhase .waitStart).emitFrame s.heldFrame)
  else .refused (.rowNotApplicable "FEED_END_EMIT")

/-- FEED_END_STALL (R109). -/
def execFeedEndStall (b : Byte) (s : State) : Result :=
  if s.phase = .atEnd ∧ b ≠ Config.endMarker then .next s
  else .refused (.rowNotApplicable "FEED_END_STALL")

end Sys2Proof.Machine
end

