-- ==== Sys2Proof/Machine/Interpreter.lean ====
section
/-! DEFINITION. The MessageInterpreter (R120 to R124): a pure function of a completed frame, whose records are yielded to
the record cursor. A meaning refuses by name a frame whose command its row does not match (log entry 12). -/

namespace Sys2Proof.Machine

/-- The (id, confidence) pairs after the subtype byte; an unpaired last byte is ignored (R122). -/
def classifyPairs (subtype : Byte) : List Byte → List Record
  | i :: c :: rest => .classification subtype i c :: classifyPairs subtype rest
  | _ => []

/-- The records of a classification payload: byte 0 is the subtype (R65, R122). -/
def classify : List Byte → List Record
  | [] => []
  | subtype :: rest => classifyPairs subtype rest

/-- The (id, x, y, w, h, confidence) tuples after the subtype byte; a final group of fewer than 6 bytes is ignored (R123). -/
def detectTuples (subtype : Byte) : List Byte → List Record
  | i :: x :: y :: w :: h :: c :: rest => .detection subtype i x y w h c :: detectTuples subtype rest
  | _ => []

/-- The records of a detection payload: byte 0 is the subtype (R66, R123). -/
def detect : List Byte → List Record
  | [] => []
  | subtype :: rest => detectTuples subtype rest

/-- `interpret(f)`, "a plain match on `command`" (R121). -/
def interpret (f : Frame) : List Record :=
  if f.command = Config.cmdClassification then classify f.payload
  else if f.command = Config.cmdDetection then detect f.payload
  else []

/-- INTERP_CLASSIFICATION (R122). -/
def execInterpClassification (f : Frame) (s : State) : Result :=
  if f.command = Config.cmdClassification then .next (s.yieldRecords (classify f.payload))
  else .refused (.rowNotApplicable "INTERP_CLASSIFICATION")

/-- INTERP_DETECTION (R123). -/
def execInterpDetection (f : Frame) (s : State) : Result :=
  if f.command = Config.cmdDetection then .next (s.yieldRecords (detect f.payload))
  else .refused (.rowNotApplicable "INTERP_DETECTION")

/-- INTERP_RESERVED_0 (R124, C1). -/
def execInterpReserved0 (f : Frame) (s : State) : Result :=
  if f.command = Config.cmdReserved0 then .next s
  else .refused (.rowNotApplicable "INTERP_RESERVED_0")

/-- INTERP_UNKNOWN (R124). -/
def execInterpUnknown (f : Frame) (s : State) : Result :=
  if f.command ≠ Config.cmdReserved0 ∧ f.command ≠ Config.cmdClassification ∧ f.command ≠ Config.cmdDetection then .next s
  else .refused (.rowNotApplicable "INTERP_UNKNOWN")

end Sys2Proof.Machine
end

