-- ==== Sys2Proof/Machine/Resets.lean ====
section
/-! DEFINITION. The two resets: `reset()` (R110) and the hardware reset (R230). Each is allowed in every phase. -/

namespace Sys2Proof.Machine

/-- RESET (R110). The trace, the record cursor and the frame hold are left alone (R35, R158, R232). -/
def execReset (s : State) : Result := .next s.softReset

/-- RST (R230). -/
def execRst (s : State) : Result := .next s.hardReset

end Sys2Proof.Machine
end

