-- ==== Sys2Proof/Machine/Router.lean ====
section
/-! DEFINITION. The EventRouter (R140, R141): stateless, comparing a record's id with TRIGGER_ID. -/

namespace Sys2Proof.Machine

/-- `route(r)` (R140, R141). -/
def route (triggerId : Byte) (r : Record) : Option TriggerEvent :=
  if r.id = triggerId then some ⟨r⟩ else none

/-- ROUTE_TRIGGER (R140). -/
def execRouteTrigger (r : Record) (s : State) : Result :=
  if r.id = s.triggerId then .next (s.emitTrigger r)
  else .refused (.rowNotApplicable "ROUTE_TRIGGER")

/-- ROUTE_NONE (R141). -/
def execRouteNone (r : Record) (s : State) : Result :=
  if r.id ≠ s.triggerId then .next s
  else .refused (.rowNotApplicable "ROUTE_NONE")

end Sys2Proof.Machine
end

