-- ==== Sys2Proof/Machine/TraceLog.lean ====
section
/-! DEFINITION. The BoundedLog trace unit (R150 to R155). A capacity of 0 is refused, as I7 asks (log entry 13). -/

namespace Sys2Proof.Machine

/-- LOG_PUSH_RAW (R151). -/
def execLogPushRaw (t : Timestamp) (b : Byte) (s : State) : Result :=
  if s.logCapacity = 0 then .refused .logCapacityZero
  else .next (s.setTraceRaw (pushBounded s.logCapacity s.traceRaw { timestamp := t, value := b }))

/-- LOG_PUSH_RECORD (R152). -/
def execLogPushRecord (t : Timestamp) (r : Record) (s : State) : Result :=
  if s.logCapacity = 0 then .refused .logCapacityZero
  else .next (s.setTraceRec (pushBounded s.logCapacity s.traceRec { timestamp := t, record := r }))

/-- LOG_SNAPSHOT (R155). -/
def execLogSnapshot (ch : Channel) (s : State) : Result :=
  .next (s.emitSnapshot (s.snapshot ch))

end Sys2Proof.Machine
end

