-- ==== Sys2Proof/Machine/Dispatch.lean ====
section
/-! DEFINITION. One arm per row of the opcode table. -/

namespace Sys2Proof.Machine

def exec (i : Instr) (s : State) : Host.Outcome State Fault Refusal :=
  match i with
  | .feedWsStart => Sys2Proof.Machine.execFeedWsStart s
  | .feedWsSkip b => Sys2Proof.Machine.execFeedWsSkip b s
  | .feedHdrAcc b => Sys2Proof.Machine.execFeedHdrAcc b s
  | .feedHdrDone b => Sys2Proof.Machine.execFeedHdrDone b s
  | .feedPlAcc b => Sys2Proof.Machine.execFeedPlAcc b s
  | .feedPlDone b => Sys2Proof.Machine.execFeedPlDone b s
  | .feedCkAcc b => Sys2Proof.Machine.execFeedCkAcc b s
  | .feedCkDone b => Sys2Proof.Machine.execFeedCkDone b s
  | .feedEndEmit => Sys2Proof.Machine.execFeedEndEmit s
  | .feedEndStall b => Sys2Proof.Machine.execFeedEndStall b s
  | .reset => Sys2Proof.Machine.execReset s
  | .rst => Sys2Proof.Machine.execRst s
  | .interpClassification f => Sys2Proof.Machine.execInterpClassification f s
  | .interpDetection f => Sys2Proof.Machine.execInterpDetection f s
  | .interpReserved0 f => Sys2Proof.Machine.execInterpReserved0 f s
  | .interpUnknown f => Sys2Proof.Machine.execInterpUnknown f s
  | .routeTrigger r => Sys2Proof.Machine.execRouteTrigger r s
  | .routeNone r => Sys2Proof.Machine.execRouteNone r s
  | .logPushRaw t b => Sys2Proof.Machine.execLogPushRaw t b s
  | .logPushRecord t r => Sys2Proof.Machine.execLogPushRecord t r s
  | .logSnapshot ch => Sys2Proof.Machine.execLogSnapshot ch s

end Sys2Proof.Machine
end

