-- ==== Sys2Proof/Machine/Pipeline.lean ====
section
/-! DEFINITION. The inline pipeline of 45_block_step.md: how a presented operation runs its row, how a transaction is
composed of rows (R170 to R172), and how the records of a frame are delivered (R51, R170). -/

namespace Sys2Proof.Machine

/-- Run the instruction that a word selects. -/
def runDecoded (w : OpWord) (s : State) : Result :=
  match decode w with
  | .ok i => exec i s
  | .error e => .refused (.undecodable e)

/-- Instructions one after another. -/
def execAll : List Instr → State → Result
  | [], s => .next s
  | i :: is, s => andThen (exec i s) (execAll is)

/-- The consumer takes the next record: it receives the record, the record is routed, and then pushed to the decoded channel
(R79, R80, R170). -/
def takeRecord (t : Timestamp) (s : State) : Result :=
  match s.pending with
  | [] => .next s
  | r :: rest =>
    andThen (runDecoded (.record r s.triggerId) ((s.setPending rest).emitRecord r)) (runDecoded (.pushRecord t r))

/-- The consumer takes the next `n` records, each with a timestamp of its own. -/
def deliver : Nat → State → Result
  | 0, s => .next s
  | n + 1, s => andThen (takeRecord (Config.timestamp s.draws) s.drawn) (deliver n)

/-- The consumer takes every record that has been yielded. -/
def deliverAll (s : State) : Result := deliver s.pending.length s

/-- The interpreter runs on the frame just emitted, if there is one (R120, R170). -/
def interpretEmitted (s : State) : Result :=
  match s.hold with
  | none => .next s
  | some f => runDecoded (.command f) s

/-- One byte is accepted: the frame window closes (R77), the byte is pushed to the raw channel, the decoder's row runs, and
a frame it emits is interpreted (R170). -/
def acceptByte (t : Timestamp) (b : Byte) (s : State) : Result :=
  andThen (runDecoded (.pushRaw t b) s.closeWindow) fun s1 =>
    andThen (runDecoded (feedWord b s1) s1) interpretEmitted

/-- The FEED transaction (R170). Records still to be taken come first: no byte is accepted before them (R51, R78; log
entry 11). -/
def feedTransaction (b : Byte) (s : State) : Result :=
  andThen (deliverAll s) fun s1 =>
    andThen (acceptByte (Config.timestamp s1.draws) b s1.drawn) deliverAll

/-- One presented operation as a transaction (R10, R170 to R172). A reset returns no frame, so `frame_valid` is low after
it (R76). -/
def transact (o : Operation) (s : State) : Result :=
  match o with
  | .feed b => feedTransaction b s
  | .reset => runDecoded (selectWord .reset s) s.endPulse
  | .rst => runDecoded (selectWord .rst s) s.endPulse
  | .interpret f => runDecoded (selectWord (.interpret f) s) s
  | .route r => runDecoded (selectWord (.route r) s) s
  | .logPushRaw t b => runDecoded (selectWord (.logPushRaw t b) s) s
  | .logPushRecord t r => runDecoded (selectWord (.logPushRecord t r) s) s
  | .logSnapshot ch => runDecoded (selectWord (.logSnapshot ch) s) s

/-- The state in which the next step runs the instruction of a word: a FEED needs the phase of its key, a count its row's
condition accepts (and in Payload a length), and the byte presented; an INTERPRET needs the frame presented. -/
def presentWord (w : OpWord) (s : State) : State :=
  match w with
  | .feed key n len =>
    { s with
      phase := (Phase.ofCode (keyCode key)).getD s.phase
      scratch := List.replicate n 0
      len := if Phase.ofCode (keyCode key) = some .payload then len else s.len
      inputs := .op (.feed (keyByte key)) :: s.inputs }
  | .control softReset rst =>
    if rst then s.setInputs (.op .rst :: s.inputs)
    else if softReset then s.setInputs (.op .reset :: s.inputs)
    else s
  | .command f => s.setInputs (.op (.interpret f) :: s.inputs)
  | .record r _ => s.setInputs (.op (.route r) :: s.inputs)
  | .pushRaw t b => s.setInputs (.op (.logPushRaw t b) :: s.inputs)
  | .pushRecord t r => s.setInputs (.op (.logPushRecord t r) :: s.inputs)
  | .snapshot logSel => s.setInputs (.op (.logSnapshot (Channel.ofSel logSel)) :: s.inputs)

end Sys2Proof.Machine
end

