-- ==== Sys2Proof/Machine/Ports.lean ====
section
/-! DEFINITION. The cycle-level realisation (R73 to R82): what one rising edge does and what the output ports show. -/

namespace Sys2Proof.Machine

/-- The eight lanes on which a record is shown (R73). -/
structure Lanes where
  kind : Bool
  subtype : Byte
  id : Byte
  x : Byte
  y : Byte
  w : Byte
  h : Byte
  conf : Byte
deriving DecidableEq, Repr

/-- The output ports of R73. -/
structure PortOut where
  inReady : Bool
  frameValid : Bool
  frameCmd : Byte
  frameLen : Half
  frameCsum : Word
  plData : Byte
  recValid : Bool
  record : Lanes
  trigValid : Bool
  phase : BitVec 3
  logCount : Nat
  logTs : Timestamp
  logByte : Byte
  logRec : Lanes
deriving DecidableEq, Repr

/-- "Any value" on a byte-wide port (log entry 18). -/
def openByte (port : OpenPort) (s : State) (index : Nat) : Byte :=
  BitVec.ofNat 8 (Config.openPort port s.draws index)

/-- "Any value" on a one-bit port. -/
def openBit (port : OpenPort) (s : State) (index : Nat) : Bool :=
  Config.openPort port s.draws index % 2 == 1

/-- A record on the `rec_*` lanes; a ClassificationRecord drives the four geometry lanes 0 (R79). -/
def recLanes (r : Record) : Lanes :=
  { kind := recordKind r, subtype := recordSubtype r, id := r.id
    x := (recordGeometry r).elim 0 (·.1)
    y := (recordGeometry r).elim 0 (·.2.1)
    w := (recordGeometry r).elim 0 (·.2.2.1)
    h := (recordGeometry r).elim 0 (·.2.2.2)
    conf := recordConfidence r }

/-- The `rec_*` lanes while `rec_valid` is low (log entry 19). -/
def openRecLanes (s : State) : Lanes :=
  { kind := openBit .recKind s 0, subtype := openByte .recSubtype s 0, id := openByte .recId s 0
    x := openByte .recX s 0, y := openByte .recY s 0, w := openByte .recW s 0, h := openByte .recH s 0
    conf := openByte .recConf s 0 }

/-- A record on the `log_rec_*` lanes (R82). What the geometry lanes show for a ClassificationRecord is not stated (log
entry 19). -/
def logLanes (s : State) (index : Nat) (r : Record) : Lanes :=
  { kind := recordKind r, subtype := recordSubtype r, id := r.id
    x := (recordGeometry r).elim (openByte .logRecX s index) (·.1)
    y := (recordGeometry r).elim (openByte .logRecY s index) (·.2.1)
    w := (recordGeometry r).elim (openByte .logRecW s index) (·.2.2.1)
    h := (recordGeometry r).elim (openByte .logRecH s index) (·.2.2.2)
    conf := recordConfidence r }

/-- The `log_rec_*` lanes where they are any value (R82). -/
def openLogLanes (s : State) (index : Nat) : Lanes :=
  { kind := openBit .logRecKind s index, subtype := openByte .logRecSubtype s index, id := openByte .logRecId s index
    x := openByte .logRecX s index, y := openByte .logRecY s index
    w := openByte .logRecW s index, h := openByte .logRecH s index
    conf := openByte .logRecConf s index }

/-- `in_ready = !rst && !soft_reset && !busy` (R78). -/
def inReady (p : PortIn) (s : State) : Bool := !p.rst && !p.softReset && !s.busy

/-- `pl_data`: the payload byte at `pl_addr`, read from PBUF, while the window is open and the address is below `frame_len`
(R77). -/
def plData (addr : BitVec 16) (s : State) : Byte :=
  match s.hold with
  | none => openByte .plData s addr.toNat
  | some f =>
    if addr.toNat < f.length.toNat then (s.pbuf.read addr.toNat).getD (openByte .plData s addr.toNat)
    else openByte .plData s addr.toNat

/-- The raw entry `log_idx` of the newest-first snapshot (R82, R155). -/
def rawEntryAt (i : Nat) (s : State) : Option RawEntry := s.traceRaw.reverse[i]?

/-- The decoded entry `log_idx` of the newest-first snapshot (R82, R155). -/
def recEntryAt (i : Nat) (s : State) : Option RecEntry := s.traceRec.reverse[i]?

/-- `log_count` (R82). -/
def logCount (logSel : Bool) (s : State) : Nat :=
  match Channel.ofSel logSel with
  | .raw => s.traceRaw.length
  | .decoded => s.traceRec.length

/-- `log_ts` (R82). -/
def logTs (logSel : Bool) (i : Nat) (s : State) : Timestamp :=
  let shown := match Channel.ofSel logSel with
    | .raw => (rawEntryAt i s).map RawEntry.timestamp
    | .decoded => (recEntryAt i s).map RecEntry.timestamp
  shown.getD (BitVec.ofNat Config.tsWidth (Config.openPort .logTs s.draws i))

/-- `log_byte` (R82). -/
def logByte (logSel : Bool) (i : Nat) (s : State) : Byte :=
  let shown := match Channel.ofSel logSel with
    | .raw => (rawEntryAt i s).map RawEntry.value
    | .decoded => none
  shown.getD (openByte .logByte s i)

/-- `log_rec_*` (R82). -/
def logRec (logSel : Bool) (i : Nat) (s : State) : Lanes :=
  let shown := match Channel.ofSel logSel with
    | .raw => none
    | .decoded => (recEntryAt i s).map fun (e : RecEntry) => logLanes s i e.record
  shown.getD (openLogLanes s i)

/-- What the output ports show in a cycle in which the block is in state `s` and the inputs are `p` (R73 to R82). -/
def portOut (p : PortIn) (s : State) : PortOut :=
  { inReady := inReady p s
    frameValid := s.frameValid
    frameCmd := (s.hold.map Frame.command).getD (openByte .frameCmd s 0)
    frameLen := (s.hold.map Frame.length).getD (BitVec.ofNat 16 (Config.openPort .frameLen s.draws 0))
    frameCsum := (s.hold.map Frame.checksum).getD (BitVec.ofNat 32 (Config.openPort .frameCsum s.draws 0))
    plData := plData p.plAddr s
    recValid := s.busy
    record := (s.pending.head?.map recLanes).getD (openRecLanes s)
    trigValid := s.busy && (s.pending.head?.map Record.id == some s.triggerId)
    phase := s.statusCode
    logCount := logCount p.logSel s
    logTs := logTs p.logSel p.logIdx s
    logByte := logByte p.logSel p.logIdx s
    logRec := logRec p.logSel p.logIdx s }

/-- The least `w` with `n ≤ 2 ^ w`, searched up to `n`: `ceil(log2(n))` for `n ≥ 1`. -/
def ceilLog2 (n : Nat) : Nat := ((List.range (n + 1)).find? fun w => n ≤ 2 ^ w).getD 0

/-- The width of `log_idx` (R73). -/
def logIdxWidth (capacity : Nat) : Nat := max 1 (ceilLog2 capacity)

/-- The width of `log_count` (R73). -/
def logCountWidth (capacity : Nat) : Nat := ceilLog2 (capacity + 1)

/-- What an edge does after a record has been taken: `rst` before `soft_reset` before the presented byte (R74, R209), which is
accepted when `in_valid && in_ready` (R75). `accept` is that condition, sampled before the edge. -/
def edgeInput (p : PortIn) (accept : Bool) (s : State) : Result :=
  if p.rst || p.softReset then runDecoded (.control p.softReset p.rst) s
  else if accept then acceptByte p.ts p.inData s
  else .next s

/-- One rising edge: the pulse ends (R76), a presented record is taken if the consumer is ready (R79; log entry 20), then the
reset lines or the presented byte act. While a record is presented no byte is accepted, so a consumer that is never ready
holds the block forever (R237, I15); that it takes every record eventually is a host duty, `ConsumerDuty` of Safety.lean. -/
def clockEdge (p : PortIn) (s : State) : Result :=
  andThen (if s.busy && p.recReady then takeRecord p.ts s.drawn.endPulse else .next s.drawn.endPulse)
    (edgeInput p (p.inValid && inReady p s))

/-- The transactions that one edge performs (R74, R75). -/
def edgeOps (p : PortIn) (s : State) : List Operation :=
  if p.rst then [.rst]
  else if p.softReset then [.reset]
  else if p.inValid && inReady p s then [.feed p.inData]
  else []

/-- The transactions that a sequence of edges performs, in order (R83). -/
def acceptedOps : List PortIn → State → List Operation
  | [], _ => []
  | p :: ps, s =>
    edgeOps p s ++
      match clockEdge p s with
      | .next s1 => acceptedOps ps s1
      | .fault _ => []
      | .refused _ => []

/-- No edge of a sequence asserts `rst` while records are still to be taken (log entry 25). -/
def noRstWhileBusy : List PortIn → State → Bool
  | [], _ => true
  | p :: ps, s =>
    !(p.rst && s.busy) &&
      match clockEdge p s with
      | .next s1 => noRstWhileBusy ps s1
      | .fault _ => true
      | .refused _ => true

end Sys2Proof.Machine
end

