-- ==== Sys2Proof/Machine/Step.lean ====
section
/-! DEFINITION. One step: the next thing the environment presents. -/

namespace Sys2Proof.Machine

/-- One step. With nothing presented the block takes no step and keeps its state (R173, I16; log entry 1). -/
def step (s : State) : Host.Outcome State Fault Refusal :=
  match s.inputs with
  | [] => .next s
  | .op o :: rest => transact o (s.setInputs rest)
  | .edge p :: rest => clockEdge p (s.setInputs rest)

/-- The state in which the next step runs the instruction of an opcode-table number (log entries 2, 15 and 16). -/
def State.withFetchWord (s : State) (nbits w : Nat) : State :=
  match tableWord nbits w with
  | none => s
  | some word => presentWord word s

end Sys2Proof.Machine
end

