-- ==== Sys2Proof/Machine/Registers.lean ====
section
/-! DEFINITION. The register realisation of the decoder state (R38): a view, since the mapping adds no behaviour. -/

namespace Sys2Proof.Machine

/-- The registers of R38. Each holds a value in every state; PBUF is a `Memory`, whose unlisted bytes have none (I2, log
entry 7). -/
structure HwRegs where
  /-- PHASE, 3 bits. -/
  phase : BitVec 3
  /-- CNT, 16 bits. -/
  cnt : Half
  /-- HDR0. -/
  hdr0 : Byte
  /-- HDR1. -/
  hdr1 : Byte
  /-- CMD. -/
  cmd : Byte
  /-- LEN. -/
  len : Half
  /-- PBUF. -/
  pbuf : Memory
  /-- CSUM, 32 bits. -/
  csum : Word
deriving DecidableEq, Repr

/-- CNT: `|scratch|` in Header, Payload and Checksum, 0 otherwise (R38). -/
def State.cnt (s : State) : Half :=
  match s.phase with
  | .waitStart => 0
  | .header => BitVec.ofNat 16 s.scratch.length
  | .payload => BitVec.ofNat 16 s.scratch.length
  | .checksum => BitVec.ofNat 16 s.scratch.length
  | .atEnd => 0

/-- HDR0 and HDR1 where R38 gives them no contents: 0 until the first draw, so at State.reset, and a free value from then
on (DESIGN CHOICE, log entry 31). -/
def State.idleHeader (i : Nat) (s : State) : Byte :=
  match s.draws with
  | 0 => 0
  | n + 1 => Config.idleHeader i n

/-- HDR0 (`i = 0`) or HDR1 (`i = 1`): `scratch[i]` while in Header, once it has arrived (R38). -/
def State.headerReg (i : Nat) (s : State) : Byte :=
  match s.phase with
  | .waitStart => s.idleHeader i
  | .header => s.scratch[i]?.getD (s.idleHeader i)
  | .payload => s.idleHeader i
  | .checksum => s.idleHeader i
  | .atEnd => s.idleHeader i

/-- Byte lane `i` of CSUM, bits `[8i+7:8i]`: the checksum bytes as they arrive while in Checksum, `S.csum` otherwise (R38). A
lane whose byte has not arrived holds a free value (log entry 24). -/
def State.csumLane (i : Nat) (s : State) : Byte :=
  match s.phase with
  | .waitStart => wordByte s.csum i
  | .header => wordByte s.csum i
  | .payload => wordByte s.csum i
  | .checksum => s.scratch[i]?.getD (Config.idleChecksum i s.draws)
  | .atEnd => wordByte s.csum i

/-- The registers that hold a decoder state (R38). -/
def State.hwRegs (s : State) : HwRegs :=
  { phase := s.phase.code
    cnt := s.cnt
    hdr0 := s.headerReg 0
    hdr1 := s.headerReg 1
    cmd := s.cmd
    len := s.len
    pbuf := s.pbuf
    csum := le32 (s.csumLane 0) (s.csumLane 1) (s.csumLane 2) (s.csumLane 3) }

end Sys2Proof.Machine
end

