-- ==== Sys2Proof/Safety.lean ====
section
/-! DEFINITION. What counts as a safe run: the invariant of a state, the inputs an environment may present, runs, what an
observer of a run sees, the duty of the
record consumer, and when two states agree but for one part. -/

namespace Sys2Proof

/-- The operations that come from outside the block (R69). -/
def Operation.external : Operation → Bool
  | .feed _ => true
  | .reset => true
  | .rst => true
  | .interpret _ => false
  | .route _ => false
  | .logPushRaw _ _ => false
  | .logPushRecord _ _ => false
  | .logSnapshot _ => true

/-- The byte that a FEED row is applied to; rows 1 and 9 have it in their key (R70). -/
def Instr.fedByte : Instr → Option Byte
  | .feedWsStart => some Config.startMarker
  | .feedWsSkip b => some b
  | .feedHdrAcc b => some b
  | .feedHdrDone b => some b
  | .feedPlAcc b => some b
  | .feedPlDone b => some b
  | .feedCkAcc b => some b
  | .feedCkDone b => some b
  | .feedEndEmit => some Config.endMarker
  | .feedEndStall b => some b
  | .reset => none
  | .rst => none
  | .interpClassification _ => none
  | .interpDetection _ => none
  | .interpReserved0 _ => none
  | .interpUnknown _ => none
  | .routeTrigger _ => none
  | .routeNone _ => none
  | .logPushRaw _ _ => none
  | .logPushRecord _ _ => none
  | .logSnapshot _ => none

/-- A frame with its checksum left out. -/
def Frame.butChecksum (f : Frame) : Frame := { f with checksum := 0 }

end Sys2Proof

namespace Sys2Proof.Machine

/-- What PBUF holds in a state: the payload bytes so far, the held frame's payload, or the payload of the frame that the
open window shows (R38, R40, R77). -/
def State.buffered (s : State) : List Byte :=
  match s.phase with
  | .waitStart =>
    match s.hold with
    | some f => f.payload
    | none => []
  | .header => []
  | .payload => s.scratch
  | .checksum => s.payload
  | .atEnd => s.payload

/-- The invariant: the phase invariants of R37, the capacity bounds of R32 and R153, the frame window of R77, and PBUF. -/
structure State.Inv (s : State) : Prop where
  waitStart : s.phase = .waitStart → s.scratch = [] ∧ s.payload = []
  header : s.phase = .header → s.scratch.length ≤ 2 ∧ s.payload = []
  payload : s.phase = .payload → 1 ≤ s.len.toNat ∧ s.scratch.length < s.len.toNat ∧ s.payload = []
  checksum : s.phase = .checksum → s.scratch.length ≤ 3 ∧ s.payload.length = s.len.toNat
  atEnd : s.phase = .atEnd → s.scratch = [] ∧ s.payload.length = s.len.toNat
  window : ∀ f, s.hold = some f → f.wf = true ∧ s.phase = .waitStart
  pulse : s.frameValid = true → s.hold.isSome = true
  pbuf : s.pbuf = Memory.ofBytes s.buffered
  capacity : 1 ≤ s.logCapacity
  traceRaw : s.traceRaw.length ≤ s.logCapacity
  traceRec : s.traceRec.length ≤ s.logCapacity
  frames : ∀ f ∈ s.frames, f.wf = true

/-- The inputs that an environment may present: the external operations and clock edges. -/
def Input.external : Input → Bool
  | .op o => o.external
  | .edge _ => true

/-- `k` steps of the machine. -/
abbrev run (k : Nat) (s : State) : Result := Host.Core.run Sys2Proof.core k s

/-- A run of `k` steps is safe when no step of it faults or refuses. -/
def SafeRun (k : Nat) (s : State) : Prop := ∃ t, run k s = .next t

/-- The state with these operations presented, and nothing else. -/
def State.presentOps (os : List Operation) (s : State) : State := s.setInputs (os.map .op)

/-- The state with these edges presented, and nothing else. -/
def State.presentEdges (ps : List PortIn) (s : State) : State := s.setInputs (ps.map .edge)

/-- Feed these bytes, one transaction each, with nothing else presented (R46). -/
def feedBytes (bs : List Byte) (s : State) : Result := run bs.length (s.presentOps (bs.map .feed))

/-- Feed the bytes of these chunks, chunk after chunk (R53). -/
def feedChunks : List (List Byte) → State → Result
  | [], s => .next s
  | c :: cs, s => andThen (feedBytes c s) (feedChunks cs)

/-- What an observer of a run sees at its end, timestamps apart (R173, R174). -/
structure Observed where
  phase : Phase
  frames : List Frame
  records : List Record
  triggers : List TriggerEvent
  rawValues : List Byte
  recRecords : List Record
deriving DecidableEq, Repr

/-- The observation of a state. -/
def State.observe (s : State) : Observed :=
  { phase := s.phase, frames := s.frames, records := s.records, triggers := s.triggers
    rawValues := s.traceRaw.map RawEntry.value, recRecords := s.traceRec.map RecEntry.record }

/-- A state with every checksum in it left out. -/
def State.butChecksum (s : State) : State :=
  { s with csum := 0, hold := s.hold.map Frame.butChecksum, frames := s.frames.map Frame.butChecksum }

/-- A state with the trace and what observers read of it left out. -/
def State.butTrace (s : State) : State := { s with traceRaw := [], traceRec := [], snapshots := [] }

/-- A state with TRIGGER_ID and the delivered trigger events left out. -/
def State.butTriggers (s : State) : State := { s with triggerId := 0, triggers := [] }

/-- The byte presented at an edge is accepted there: `in_valid && in_ready` (R75). -/
def accepts (p : PortIn) (s : State) : Bool := p.inValid && inReady p s

/-- The state after the first `n` edges of a stream. -/
def edgeRun (e : Nat → PortIn) : Nat → State → Result
  | 0, s => .next s
  | n + 1, s => andThen (edgeRun e n s) (clockEdge (e n))

/-- The HOST DUTY of R237: "the consumer takes every presented record eventually". Whenever a record is presented along a
stream of edges, `rec_ready` is high at that edge or a later one. A stream without it may hold the block forever (I15):
no byte is accepted while a record is presented. The duty is the environment's; the block does not enforce it, and no
meaning assumes it (log entry 33). -/
def ConsumerDuty (e : Nat → PortIn) (s : State) : Prop :=
  ∀ n t, edgeRun e n s = .next t → t.busy = true → ∃ m, n ≤ m ∧ (e m).recReady = true

/-- The last `n` elements of a list. -/
def lastN {α : Type} (n : Nat) (l : List α) : List α := l.drop (l.length - n)

end Sys2Proof.Machine
end

