-- ==== Sys2Proof/Certificates/Slice0/Obligations.lean ====
section
/-! DEFINITION. The statements for the provers. A statement about `exec` that concludes `exec i s = .next …` also says that
the instruction completes; a next state written `{ s with … }` says that every other field is unchanged. -/

open Sys2Proof Sys2Proof.Machine

/-! ### FEED: the ten rows -/

/-- R100. In WaitStart the byte 0xFD selects FEED_WS_START, which begins a new frame: scratch and payload are cleared, the
phase is Header, no frame is emitted and nothing else changes. -/
def Obligations.StartMarkerBeginsAFrame : Prop :=
  ∀ s : State, s.phase = .waitStart →
    decode (feedWord 0xFD s) = .ok .feedWsStart ∧
    exec .feedWsStart s = .next { s with scratch := [], payload := [], phase := .header }

/-- R101. In WaitStart any other byte selects FEED_WS_SKIP, which changes nothing and is the resync condition. -/
def Obligations.OtherBytesAreSkippedWhileScanning : Prop :=
  ∀ (s : State) (b : Byte), s.phase = .waitStart → b ≠ 0xFD →
    decode (feedWord b s) = .ok (.feedWsSkip b) ∧ exec (.feedWsSkip b) s = .next s ∧
    feedCondition s.phase b = some .resync

/-- R102. In Header with fewer than two bytes collected, any byte selects FEED_HDR_ACC, which appends it. -/
def Obligations.HeaderByteIsCollected : Prop :=
  ∀ (s : State) (b : Byte), s.phase = .header → s.scratch.length < 2 →
    decode (feedWord b s) = .ok (.feedHdrAcc b) ∧
    exec (.feedHdrAcc b) s = .next { s with scratch := s.scratch ++ [b] }

/-- R103. The third header byte selects FEED_HDR_DONE: cmd and the little-endian len are set, scratch is cleared, and the
phase is Payload, or Checksum with an empty payload when len is 0. -/
def Obligations.HeaderCompletes : Prop :=
  ∀ (s : State) (c lo hi : Byte), s.phase = .header → s.scratch = [c, lo] →
    let l : Half := lo.zeroExtend 16 ||| (hi.zeroExtend 16 <<< 8)
    decode (feedWord hi s) = .ok (.feedHdrDone hi) ∧
    exec (.feedHdrDone hi) s = .next
      (if l = 0 then { s with cmd := c, len := l, scratch := [], payload := [], phase := .checksum }
        else { s with cmd := c, len := l, scratch := [], phase := .payload })

/-- R104. A payload byte that is not the last selects FEED_PL_ACC: it is written to PBUF at index |scratch| and appended to
scratch; every other byte of PBUF reads as before. -/
def Obligations.PayloadByteIsCollected : Prop :=
  ∀ (s : State) (b : Byte), s.phase = .payload → s.scratch.length + 1 < s.len.toNat →
    decode (feedWord b s) = .ok (.feedPlAcc b) ∧
    ∃ m : Memory, exec (.feedPlAcc b) s = .next { s with scratch := s.scratch ++ [b], pbuf := m } ∧
      m.read s.scratch.length = some b ∧ ∀ a, a ≠ s.scratch.length → m.read a = s.pbuf.read a

/-- R105. The last payload byte selects FEED_PL_DONE: it is written to PBUF at index len - 1, the payload is scratch with
the byte appended (exactly len bytes), scratch is cleared and the phase is Checksum; every other byte of PBUF reads as
before. -/
def Obligations.PayloadCompletes : Prop :=
  ∀ (s : State) (b : Byte), s.phase = .payload → s.scratch.length + 1 = s.len.toNat →
    decode (feedWord b s) = .ok (.feedPlDone b) ∧ (s.scratch ++ [b]).length = s.len.toNat ∧
    ∃ m : Memory,
      exec (.feedPlDone b) s = .next
        { s with payload := s.scratch ++ [b], scratch := [], phase := .checksum, pbuf := m } ∧
      m.read (s.len.toNat - 1) = some b ∧ ∀ a, a ≠ s.len.toNat - 1 → m.read a = s.pbuf.read a

/-- R106. The first three checksum bytes select FEED_CK_ACC, which appends each. -/
def Obligations.ChecksumByteIsCollected : Prop :=
  ∀ (s : State) (b : Byte), s.phase = .checksum → s.scratch.length < 3 →
    decode (feedWord b s) = .ok (.feedCkAcc b) ∧
    exec (.feedCkAcc b) s = .next { s with scratch := s.scratch ++ [b] }

/-- R107. The fourth checksum byte selects FEED_CK_DONE: csum is the four bytes little-endian, scratch is cleared and the
phase is End. -/
def Obligations.ChecksumCompletes : Prop :=
  ∀ (s : State) (c0 c1 c2 c3 : Byte), s.phase = .checksum → s.scratch = [c0, c1, c2] →
    decode (feedWord c3 s) = .ok (.feedCkDone c3) ∧
    exec (.feedCkDone c3) s = .next
      { s with
        csum := c0.zeroExtend 32 ||| (c1.zeroExtend 32 <<< 8) ||| (c2.zeroExtend 32 <<< 16) ||| (c3.zeroExtend 32 <<< 24)
        scratch := []
        phase := .atEnd }

/-- R108. In End the byte 0xED selects FEED_END_EMIT: the held frame is emitted (its window opens and its pulse rises), the
payload is cleared and the phase is WaitStart; in a state that meets the phase invariants the emitted value is a frame, its
payload as long as its length says. -/
def Obligations.EndMarkerEmitsTheFrame : Prop :=
  ∀ s : State, s.phase = .atEnd →
    let f : Frame := { command := s.cmd, length := s.len, payload := s.payload, checksum := s.csum }
    decode (feedWord 0xED s) = .ok .feedEndEmit ∧
    exec .feedEndEmit s = .next
      { s with payload := [], phase := .waitStart, frames := s.frames ++ [f], hold := some f, frameValid := true } ∧
    (s.Inv → f.payload.length = f.length.toNat)

/-- R109. In End any other byte selects FEED_END_STALL, which changes nothing and is the desync stall. -/
def Obligations.OtherBytesStallInEnd : Prop :=
  ∀ (s : State) (b : Byte), s.phase = .atEnd → b ≠ 0xED →
    decode (feedWord b s) = .ok (.feedEndStall b) ∧ exec (.feedEndStall b) s = .next s ∧
    feedCondition s.phase b = some .desyncStall

/-! ### The resets -/

/-- R110. RESET completes in every state: WaitStart, scratch and payload empty; cmd, len and csum each unchanged or cleared;
no frame, record or trigger is delivered; trace, pending records, frame hold and configuration are unchanged. -/
def Obligations.SoftResetAbandonsThePartialFrame : Prop :=
  ∀ s : State, ∃ t, exec .reset s = .next t ∧
    t.phase = .waitStart ∧ t.scratch = [] ∧ t.payload = [] ∧
    (t.cmd = s.cmd ∨ t.cmd = 0) ∧ (t.len = s.len ∨ t.len = 0) ∧ (t.csum = s.csum ∨ t.csum = 0) ∧
    t.frames = s.frames ∧ t.records = s.records ∧ t.triggers = s.triggers ∧ t.snapshots = s.snapshots ∧
    t.traceRaw = s.traceRaw ∧ t.traceRec = s.traceRec ∧ t.pending = s.pending ∧ t.hold = s.hold ∧
    t.frameValid = s.frameValid ∧ t.triggerId = s.triggerId ∧ t.logCapacity = s.logCapacity ∧ t.inputs = s.inputs ∧
    (s.hold.isSome → ∀ a, t.pbuf.read a = s.pbuf.read a)

/-- R230. RST completes in every state: WaitStart, scratch and payload empty, both trace channels empty, no record pending,
no frame held, `frame_valid`, `rec_valid` and `trig_valid` low, `in_ready` low while `rst` is high; nothing is delivered
and the configuration is unchanged. -/
def Obligations.HardResetGivesTheResetState : Prop :=
  ∀ s : State, ∃ t, exec .rst s = .next t ∧
    t.phase = .waitStart ∧ t.scratch = [] ∧ t.payload = [] ∧ t.traceRaw = [] ∧ t.traceRec = [] ∧ t.pending = [] ∧
    t.hold = none ∧ t.busy = false ∧
    (∀ p, (portOut p t).frameValid = false ∧ (portOut p t).recValid = false ∧ (portOut p t).trigValid = false) ∧
    (∀ p u, p.rst = true → (portOut p u).inReady = false) ∧
    t.frames = s.frames ∧ t.records = s.records ∧ t.triggers = s.triggers ∧ t.snapshots = s.snapshots ∧
    t.triggerId = s.triggerId ∧ t.logCapacity = s.logCapacity ∧ t.inputs = s.inputs

/-- R158. RST empties both channels; RESET leaves both unchanged. -/
def Obligations.HardResetEmptiesTheTraceSoftResetKeepsIt : Prop :=
  ∀ s : State,
    (∃ t, exec .rst s = .next t ∧ t.traceRaw = [] ∧ t.traceRec = []) ∧
    (∃ t, exec .reset s = .next t ∧ t.traceRaw = s.traceRaw ∧ t.traceRec = s.traceRec)

/-- R231, R110. After RST or RESET the next byte is decoded in WaitStart: it selects FEED_WS_START if it is 0xFD and
FEED_WS_SKIP otherwise. And bytes fed after a reset are decoded as from a fresh WaitStart state, whatever was accumulated
before it: from any two states, the same bytes lead to the same phase and emit the same frames. -/
def Obligations.DecodingStartsAfreshAfterAReset : Prop :=
  (∀ (s t : State) (b : Byte), exec .reset s = .next t ∨ exec .rst s = .next t →
    decode (feedWord b t) = .ok (if b = 0xFD then .feedWsStart else .feedWsSkip b)) ∧
  (∀ (s1 s2 t1 t2 : State) (bs : List Byte), s1.Inv → s2.Inv →
    exec .reset s1 = .next t1 ∨ exec .rst s1 = .next t1 → exec .reset s2 = .next t2 ∨ exec .rst s2 = .next t2 →
    ∃ (u1 u2 : State) (fs : List Frame), feedBytes bs t1 = .next u1 ∧ feedBytes bs t2 = .next u2 ∧ u1.phase = u2.phase ∧
      u1.frames = s1.frames ++ fs ∧ u2.frames = s2.frames ++ fs)

/-! ### The interpreter -/

/-- R122. A frame with command 0x01 and N payload bytes selects INTERP_CLASSIFICATION, which yields (N - 1) / 2 records
(none for N = 0); record k has payload byte 0 as subtype and bytes 1 + 2k and 2 + 2k as id and confidence. An unpaired last
byte is the truncated-tail condition. -/
def Obligations.ClassificationYieldsPairs : Prop :=
  ∀ (f : Frame) (s : State), f.wf = true → f.command = 0x01 →
    let n := f.length.toNat
    decode (.command f) = .ok (.interpClassification f) ∧
    (frameCondition f = some .truncatedTail ↔ 2 ≤ n ∧ (n - 1) % 2 = 1) ∧
    ∃ rs : List Record, exec (.interpClassification f) s = .next { s with pending := s.pending ++ rs } ∧
      rs.length = (n - 1) / 2 ∧
      ∀ k, k < (n - 1) / 2 → ∃ st i c, f.payload[0]? = some st ∧ f.payload[1 + 2 * k]? = some i ∧
        f.payload[2 + 2 * k]? = some c ∧ rs[k]? = some (.classification st i c)

/-- R123. A frame with command 0x02 and N payload bytes selects INTERP_DETECTION, which yields (N - 1) / 6 records (none for
N = 0); record k has payload byte 0 as subtype and bytes 1 + 6k to 6 + 6k as id, x, y, w, h and confidence. A last group
of fewer than six bytes is the truncated-tail condition; that a frame with N = 0 does not realise it is the model's reading
(log entry 32). -/
def Obligations.DetectionYieldsTuples : Prop :=
  ∀ (f : Frame) (s : State), f.wf = true → f.command = 0x02 →
    let n := f.length.toNat
    decode (.command f) = .ok (.interpDetection f) ∧
    (frameCondition f = some .truncatedTail ↔ 1 ≤ n ∧ (n - 1) % 6 ≠ 0) ∧
    ∃ rs : List Record, exec (.interpDetection f) s = .next { s with pending := s.pending ++ rs } ∧
      rs.length = (n - 1) / 6 ∧
      ∀ k, k < (n - 1) / 6 → ∃ st i x y w h c, f.payload[0]? = some st ∧ f.payload[1 + 6 * k]? = some i ∧
        f.payload[2 + 6 * k]? = some x ∧ f.payload[3 + 6 * k]? = some y ∧ f.payload[4 + 6 * k]? = some w ∧
        f.payload[5 + 6 * k]? = some h ∧ f.payload[6 + 6 * k]? = some c ∧
        rs[k]? = some (.detection st i x y w h c)

/-- R124. A frame with command 0x00 selects INTERP_RESERVED_0, one with any command above 0x02 INTERP_UNKNOWN; both yield
nothing and change nothing, and both are the unknown-command condition. -/
def Obligations.OtherCommandsYieldNothing : Prop :=
  ∀ (f : Frame) (s : State), f.wf = true →
    (f.command = 0x00 →
      decode (.command f) = .ok (.interpReserved0 f) ∧ exec (.interpReserved0 f) s = .next s ∧
      interpret f = [] ∧ frameCondition f = some .unknownCommand) ∧
    (3 ≤ f.command.toNat →
      decode (.command f) = .ok (.interpUnknown f) ∧ exec (.interpUnknown f) s = .next s ∧
      interpret f = [] ∧ frameCondition f = some .unknownCommand)

/-- R121. Every frame selects a row, and running it yields exactly `interpret f`; a value whose payload is not as long as its
length field says selects none. -/
def Obligations.EveryFrameIsInterpreted : Prop :=
  ∀ (f : Frame) (s : State),
    (f.wf = true → ∃ i, decode (.command f) = .ok i ∧ exec i s = .next { s with pending := s.pending ++ interpret f }) ∧
    (f.wf = false → decode (.command f) = .error .notAFrame)

/-- R126. The record counts, by command and payload length, and the largest ones. -/
def Obligations.RecordCounts : Prop :=
  ∀ f : Frame, f.wf = true →
    let n := f.length.toNat
    (interpret f).length =
      (if f.command = 0x01 ∧ 1 ≤ n then (n - 1) / 2 else if f.command = 0x02 ∧ 1 ≤ n then (n - 1) / 6 else 0) ∧
    (f.command = 0x01 → (interpret f).length ≤ 32767 ∧ (n = 65535 → (interpret f).length = 32767)) ∧
    (f.command = 0x02 → (interpret f).length ≤ 10922 ∧ (n = 65535 → (interpret f).length = 10922))

/-! ### The router -/

/-- R140, R141. A record whose id equals TRIGGER_ID, of either variant, selects ROUTE_TRIGGER, which delivers one event that
carries it; every other record selects ROUTE_NONE, which delivers nothing; neither changes anything else. -/
def Obligations.RecordsAreRoutedById : Prop :=
  ∀ (s : State) (r : Record) (id : Byte),
    ((∃ st c, r = .classification st id c) ∨ (∃ st x y w h c, r = .detection st id x y w h c)) →
    (id = s.triggerId →
      decode (.record r s.triggerId) = .ok (.routeTrigger r) ∧
      exec (.routeTrigger r) s = .next { s with triggers := s.triggers ++ [{ record := r }] }) ∧
    (id ≠ s.triggerId →
      decode (.record r s.triggerId) = .ok (.routeNone r) ∧ exec (.routeNone r) s = .next s)

/-! ### The trace -/

/-- R151, R152. A push appends the entry to its channel and drops the oldest entry when the channel then exceeds
LOG_CAPACITY; the other channel and everything else are unchanged. -/
def Obligations.PushesAppendAndEvict : Prop :=
  ∀ (s : State) (x : Timestamp), 1 ≤ s.logCapacity →
    (∀ b : Byte, exec (.logPushRaw x b) s = .next
      { s with traceRaw :=
          if s.traceRaw.length + 1 > s.logCapacity then (s.traceRaw ++ [RawEntry.mk x b]).tail
          else s.traceRaw ++ [RawEntry.mk x b] }) ∧
    (∀ r : Record, exec (.logPushRecord x r) s = .next
      { s with traceRec :=
          if s.traceRec.length + 1 > s.logCapacity then (s.traceRec ++ [RecEntry.mk x r]).tail
          else s.traceRec ++ [RecEntry.mk x r] })

/-- R153. After any sequence of pushes into an empty channel, the channel holds exactly the last min(n, C) entries pushed, in
push order. -/
def Obligations.EvictionIsStrictFifo : Prop :=
  ∀ s : State, 1 ≤ s.logCapacity →
    (∀ es : List RawEntry, s.traceRaw = [] →
      ∃ t, execAll (es.map fun e => .logPushRaw e.timestamp e.value) s = .next t ∧
        t.traceRaw = es.drop (es.length - min es.length s.logCapacity)) ∧
    (∀ es : List RecEntry, s.traceRec = [] →
      ∃ t, execAll (es.map fun e => .logPushRecord e.timestamp e.record) s = .next t ∧
        t.traceRec = es.drop (es.length - min es.length s.logCapacity))

/-- R155. A snapshot is the selected channel newest first; reading it changes nothing in the block. -/
def Obligations.SnapshotReadsNewestFirst : Prop :=
  ∀ s : State,
    (decode (.snapshot false) = .ok (.logSnapshot .raw) ∧
      exec (.logSnapshot .raw) s = .next { s with snapshots := s.snapshots ++ [.raw s.traceRaw.reverse] }) ∧
    (decode (.snapshot true) = .ok (.logSnapshot .decoded) ∧
      exec (.logSnapshot .decoded) s = .next { s with snapshots := s.snapshots ++ [.decoded s.traceRec.reverse] })

/-! ### Decoding and encoding -/

/-- Decoding the word of a well-formed instruction gives it back, with every operand at every value. -/
def Obligations.DecodeEncodeRoundTrip : Prop :=
  ∀ i : Instr, i.wf = true → decode (encode i) = .ok i

/-- R60 to R62. Parsing accepts exactly the wire layouts of frames: it answers `f` and a rest exactly when `f` is a frame
and the bytes are its layout followed by the rest. -/
def Obligations.WireLayoutIsParsedExactly : Prop :=
  ∀ (bs tail : List Byte) (f : Frame), parseWire bs = .ok (f, tail) ↔ f.wf = true ∧ bs = f.wire ++ tail

/-- R61. A frame occupies 9 + N bytes, from 9 to 65544. -/
def Obligations.FrameSizes : Prop :=
  ∀ f : Frame, f.wf = true →
    f.wire.length = 9 + f.length.toNat ∧ 9 ≤ f.wire.length ∧ f.wire.length ≤ 65544

/-- R72. The pseudo-operation `frame` expands to the bytes of R60 with length N, one FEED each. -/
def Obligations.FramePseudoOperationExpands : Prop :=
  ∀ (c : Byte) (k : Word) (p : List Byte), p.length ≤ 65535 →
    (Line.frame c k p).encoding =
      [0xFD, c, BitVec.ofNat 8 (p.length % 256), BitVec.ofNat 8 (p.length / 256)] ++ p ++
        [k.extractLsb' 0 8, k.extractLsb' 8 8, k.extractLsb' 16 8, k.extractLsb' 24 8, 0xED] ∧
    (Line.frame c k p).events = (Line.frame c k p).encoding.map .feed

/-- Words written out from the spec's tables (R70, R64, R74, R82) decode to the operations they stand for. -/
def Obligations.WordsOfTheTablesDecode : Prop :=
  decode (.feed 0b00011111101 0 0) = .ok .feedWsStart ∧
  decode (.feed 0b00011101101 0 0) = .ok (.feedWsSkip 0xED) ∧
  decode (.feed 0b00111111101 1 0) = .ok (.feedHdrAcc 0xFD) ∧
  decode (.feed 0b00100000001 2 0) = .ok (.feedHdrDone 0x01) ∧
  decode (.feed 0b01011111101 3 5) = .ok (.feedPlAcc 0xFD) ∧
  decode (.feed 0b01011101101 4 5) = .ok (.feedPlDone 0xED) ∧
  decode (.feed 0b01111101101 2 0) = .ok (.feedCkAcc 0xED) ∧
  decode (.feed 0b01100010010 3 0) = .ok (.feedCkDone 0x12) ∧
  decode (.feed 0b10011101101 0 1) = .ok .feedEndEmit ∧
  decode (.feed 0b10011111101 0 1) = .ok (.feedEndStall 0xFD) ∧
  decode (.control true true) = .ok .rst ∧
  decode (.command ⟨0x0F, 1, [0xFD], 0⟩) = .ok (.interpUnknown ⟨0x0F, 1, [0xFD], 0⟩)

/-- R112. In every state that meets the phase invariants, every byte selects a row, that row completes, no other FEED row of
that byte does, and the bounds on scratch and payload hold afterwards. -/
def Obligations.ExactlyOneFeedRowApplies : Prop :=
  ∀ (s : State) (b : Byte), s.Inv →
    ∃ i t, decode (feedWord b s) = .ok i ∧ exec i s = .next t ∧
      t.scratch.length ≤ max 3 (t.len.toNat - 1) ∧ t.payload.length ≤ 65535 ∧
      ∀ j, j.wf = true → j.fedByte = some b → (∃ u, exec j s = .next u) → j = i

/-- A FEED, INTERP or ROUTE row completes exactly where the decoder selects it, and otherwise refuses by name: no meaning is
ever applied where its row of the opcode table does not match. (That it refuses there is the model's choice, log entry 12.) -/
def Obligations.RowsCompleteExactlyWhereSelected : Prop :=
  (∀ (i : Instr) (s : State) (b : Byte), i.wf = true → i.fedByte = some b →
    ((∃ t, exec i s = .next t) ↔ decode (feedWord b s) = .ok i) ∧
    (decode (feedWord b s) ≠ .ok i → ∃ m, exec i s = .refused (.rowNotApplicable m))) ∧
  (∀ (f : Frame) (i : Instr) (s : State), f.wf = true →
    (i = .interpClassification f ∨ i = .interpDetection f ∨ i = .interpReserved0 f ∨ i = .interpUnknown f) →
    ((∃ t, exec i s = .next t) ↔ decode (.command f) = .ok i) ∧
    (decode (.command f) ≠ .ok i → ∃ m, exec i s = .refused (.rowNotApplicable m))) ∧
  (∀ (r : Record) (s : State),
    ((∃ t, exec (.routeTrigger r) s = .next t) ↔ decode (.record r s.triggerId) = .ok (.routeTrigger r)) ∧
    ((∃ t, exec (.routeNone r) s = .next t) ↔ decode (.record r s.triggerId) = .ok (.routeNone r)))

/-- No instruction ever faults, in any state (R200); the log pushes refuse a LOG_CAPACITY of 0 by name (I7), and no
instruction stops in any other way than that or by the refusal of a row that does not apply. -/
def Obligations.NoInstructionFaults : Prop :=
  ∀ (i : Instr) (s : State),
    (∀ r, exec i s ≠ .fault r) ∧
    (∀ r, exec i s = .refused r → (∃ m, r = .rowNotApplicable m) ∨ (r = .logCapacityZero ∧ s.logCapacity = 0)) ∧
    (s.logCapacity = 0 → ∀ x b, exec (.logPushRaw x b) s = .refused .logCapacityZero) ∧
    (s.logCapacity = 0 → ∀ x r, exec (.logPushRecord x r) s = .refused .logCapacityZero)

/-- R68. The `phase` port shows the codes 0 to 4 of the five phases and never 5, 6 or 7; a FEED key with one of these codes
is rejected by name (I13), and a PHASE register holding one of them is handled as WaitStart. -/
def Obligations.PhaseCodes : Prop :=
  (∀ (p : PortIn) (s : State), (portOut p s).phase =
    match s.phase with
    | .waitStart => 0
    | .header => 1
    | .payload => 2
    | .checksum => 3
    | .atEnd => 4) ∧
  (∀ (p : PortIn) (s : State), (portOut p s).phase.toNat ≤ 4) ∧
  (∀ (key : BitVec 11) (n : Nat) (l : Half), 0x500 ≤ key.toNat →
    decode (.feed key n l) = .error (.phaseCode (key.extractLsb' 8 3))) ∧
  (∀ c : BitVec 3, 5 ≤ c.toNat → Phase.ofReg c = .waitStart) ∧
  (∀ p : Phase, Phase.ofReg p.code = p)

/-! ### Steps and transactions -/

/-- A step runs the decoded instruction: for a presented operation other than FEED, the step is `exec` of the instruction its
word decodes to, on the state with the operation consumed (and, for a reset, `frame_valid` fallen). That inputs stand in
State, that INTERPRET, ROUTE and the log pushes, which R69 calls internal, may be presented alone, and which operations end
the pulse at this level and which keep it, are the model's choices (log entries 2, 26 and 28). -/
def Obligations.StepRunsTheSelectedRow : Prop :=
  ∀ (s : State) (o : Operation) (rest : List Input) (i : Instr),
    s.inputs = .op o :: rest → (∀ b, o ≠ .feed b) → decode (selectWord o s) = .ok i →
    step s = exec i
      { s with
        inputs := rest
        frameValid := if o = .reset ∨ o = .rst then false else s.frameValid }

/-- A step runs the decoded instruction: for a FEED with no record pending, the step closes the frame window, runs the raw
push and then the row that the byte selects, and, when that row emits a frame, the row the frame selects and the delivery of
its records (R170, R238). The exact next state rests on choices of the model: that inputs stand in State (log entry 2), that
PBUF is forgotten when the window closes (log entry 7), and the numbering of timestamps by the draw counter (log entries 8
and 9). -/
def Obligations.FeedStepRunsTheSelectedRows : Prop :=
  ∀ (s s1 s2 : State) (b : Byte) (rest : List Input) (i : Instr),
    s.inputs = .op (.feed b) :: rest → s.pending = [] →
    exec (.logPushRaw (Config.timestamp s.draws) b)
      { s with
        inputs := rest, draws := s.draws + 1, hold := none, frameValid := false
        pbuf := if s.hold.isSome then [] else s.pbuf } = .next s1 →
    decode (feedWord b s1) = .ok i → exec i s1 = .next s2 →
    (i ≠ .feedEndEmit → step s = .next s2) ∧
    (i = .feedEndEmit → ∀ (j : Instr) (s3 : State), decode (.command s1.heldFrame) = .ok j → exec j s2 = .next s3 →
      step s = deliverAll s3)

/-- R170. One FEED transaction: the byte enters the raw channel; the decoder state is what the selected row makes of it; the
frames delivered are the frame that row emits, if any; the records are those the frame gives, in order, all delivered and
logged; the triggers are those among them whose id is TRIGGER_ID. -/
def Obligations.FeedTransaction : Prop :=
  ∀ (s : State) (b : Byte) (rest : List Input), s.Inv → s.pending = [] → s.inputs = .op (.feed b) :: rest →
    let emitted : List Frame := if s.phase = .atEnd ∧ b = 0xED then [s.heldFrame] else []
    let yielded : List Record := emitted.flatMap interpret
    ∃ i u t, decode (feedWord b s) = .ok i ∧ exec i s = .next u ∧ step s = .next t ∧
      t.phase = u.phase ∧ t.scratch = u.scratch ∧ t.cmd = u.cmd ∧ t.len = u.len ∧ t.payload = u.payload ∧
      t.csum = u.csum ∧
      t.frames = s.frames ++ emitted ∧ t.records = s.records ++ yielded ∧
      t.triggers = s.triggers ++ (yielded.filter fun r => r.id == s.triggerId).map TriggerEvent.mk ∧
      t.traceRaw.map RawEntry.value = lastN s.logCapacity (s.traceRaw.map RawEntry.value ++ [b]) ∧
      t.traceRec.map RecEntry.record = lastN s.logCapacity (s.traceRec.map RecEntry.record ++ yielded) ∧
      t.pending = [] ∧ t.inputs = rest ∧ t.snapshots = s.snapshots ∧ t.triggerId = s.triggerId ∧
      t.logCapacity = s.logCapacity

/-- R171, R172. The RESET transaction resets the decoder, keeps the trace, and delivers nothing; the RST transaction gives
the reset state with empty trace channels and delivers nothing. (That `frame_valid` is low after a RESET transaction is read
from R76, log entry 28; that pending records and the hold stay is R35, log entry 29.) -/
def Obligations.ResetTransactions : Prop :=
  ∀ (s : State) (rest : List Input),
    (s.inputs = .op .reset :: rest → ∃ t, step s = .next t ∧
      t.phase = .waitStart ∧ t.scratch = [] ∧ t.payload = [] ∧ t.traceRaw = s.traceRaw ∧ t.traceRec = s.traceRec ∧
      t.pending = s.pending ∧ t.hold = s.hold ∧ t.frameValid = false ∧
      t.frames = s.frames ∧ t.records = s.records ∧ t.triggers = s.triggers ∧ t.inputs = rest) ∧
    (s.inputs = .op .rst :: rest → ∃ t, step s = .next t ∧
      t.phase = .waitStart ∧ t.scratch = [] ∧ t.payload = [] ∧ t.traceRaw = [] ∧ t.traceRec = [] ∧
      t.pending = [] ∧ t.hold = none ∧ t.frameValid = false ∧
      t.frames = s.frames ∧ t.records = s.records ∧ t.triggers = s.triggers ∧ t.inputs = rest)

/-- With nothing presented the block takes no step: it keeps its whole state, for any number of steps (R173, R211; that a
step then answers the same state is the model's choice, log entry 1). -/
def Obligations.IdleKeepsTheState : Prop :=
  ∀ (s : State) (k : Nat), s.inputs = [] → run k s = .next s

/-! ### Invariants and safe runs -/

/-- The invariant holds at reset. -/
def Obligations.InvariantHoldsAtReset : Prop := State.reset.Inv

/-- R37. Every step, whatever is presented, keeps the invariant. -/
def Obligations.EveryStepKeepsTheInvariant : Prop :=
  ∀ s t : State, s.Inv → step s = .next t → t.Inv

/-- From every state that meets the invariant, any number of steps over inputs that come from outside the block (bytes,
resets, snapshots, clock edges) completes and meets the invariant again: nothing stalls, faults or refuses (R112, R200). -/
def Obligations.ExternalRunsNeverStop : Prop :=
  ∀ (k : Nat) (s : State), s.Inv → (∀ i ∈ s.inputs, i.external = true) →
    ∃ t, run k s = .next t ∧ t.Inv ∧ t.inputs = s.inputs.drop k

/-- R32. TRIGGER_ID is 2 and LOG_CAPACITY 100 by default, and no step changes either. -/
def Obligations.ConfigurationIsFixed : Prop :=
  State.reset.triggerId = 2 ∧ State.reset.logCapacity = 100 ∧
  ∀ s t : State, step s = .next t → t.triggerId = s.triggerId ∧ t.logCapacity = s.logCapacity

/-- R40. PBUF holds byte i of the payload at index i: of the bytes so far while the payload is collected, of the held
frame's payload afterwards, of the shown frame's payload while its window is open; and it keeps the canonical form. -/
def Obligations.PayloadBufferHoldsThePayload : Prop :=
  ∀ s : State, s.Inv →
    s.pbuf.wf ∧
    (s.phase = .payload → ∀ i, i < s.scratch.length → s.pbuf.read i = s.scratch[i]?) ∧
    (s.phase = .checksum ∨ s.phase = .atEnd → ∀ i, i < s.len.toNat → s.pbuf.read i = s.payload[i]?) ∧
    (∀ f, s.hold = some f → ∀ i, i < f.length.toNat → s.pbuf.read i = f.payload[i]?)

/-- R38. The registers hold the decoder state: PHASE its code, CNT the length of scratch in Header, Payload and Checksum and
0 otherwise, HDR0 and HDR1 the first header bytes while in Header, PBUF the scratch bytes while in Payload and the payload
in Checksum and End, CSUM the checksum bytes as they arrive and csum once complete. -/
def Obligations.RegistersHoldTheState : Prop :=
  ∀ s : State, s.Inv →
    s.hwRegs.phase = s.phase.code ∧ s.hwRegs.cmd = s.cmd ∧ s.hwRegs.len = s.len ∧
    s.hwRegs.cnt.toNat =
      (if s.phase = .header ∨ s.phase = .payload ∨ s.phase = .checksum then s.scratch.length else 0) ∧
    (s.phase = .header → (∀ b, s.scratch[0]? = some b → s.hwRegs.hdr0 = b) ∧
      (∀ b, s.scratch[1]? = some b → s.hwRegs.hdr1 = b)) ∧
    (s.phase = .payload → ∀ i, i < s.scratch.length → s.hwRegs.pbuf.read i = s.scratch[i]?) ∧
    (s.phase = .checksum ∨ s.phase = .atEnd → ∀ i, i < s.len.toNat → s.hwRegs.pbuf.read i = s.payload[i]?) ∧
    (s.phase = .checksum → ∀ i b, s.scratch[i]? = some b → s.hwRegs.csum.extractLsb' (8 * i) 8 = b) ∧
    (s.phase = .atEnd → s.hwRegs.csum = s.csum)

/-! ### Frames of instructions, and rules about all of them -/

/-- The frame of the ten FEED rows: what each leaves unchanged when it answers a next state. -/
def Obligations.FeedRowsFrame : Prop :=
  ∀ (i : Instr) (s t : State), i.format = .feed → exec i s = .next t →
    (t.traceRaw = s.traceRaw ∧ t.traceRec = s.traceRec ∧ t.triggerId = s.triggerId ∧ t.logCapacity = s.logCapacity ∧
      t.pending = s.pending ∧ t.records = s.records ∧ t.triggers = s.triggers ∧ t.snapshots = s.snapshots ∧
      t.inputs = s.inputs ∧ t.draws = s.draws) ∧
    ((∀ b, i ≠ .feedHdrDone b) → t.cmd = s.cmd ∧ t.len = s.len) ∧
    ((∀ b, i ≠ .feedCkDone b) → t.csum = s.csum) ∧
    (i ≠ .feedEndEmit → t.hold = s.hold ∧ t.frameValid = s.frameValid ∧ t.frames = s.frames) ∧
    (i ≠ .feedWsStart → (∀ b, i ≠ .feedHdrDone b) → (∀ b, i ≠ .feedPlDone b) → i ≠ .feedEndEmit →
      t.payload = s.payload) ∧
    ((∀ b, i ≠ .feedPlAcc b) → (∀ b, i ≠ .feedPlDone b) → ∀ a, t.pbuf.read a = s.pbuf.read a) ∧
    (∀ a, a ≠ s.scratch.length → t.pbuf.read a = s.pbuf.read a) ∧
    ((∃ b, i = .feedWsSkip b ∨ i = .feedHdrAcc b ∨ i = .feedPlAcc b ∨ i = .feedCkAcc b ∨ i = .feedEndStall b) →
      t.phase = s.phase)

/-- R175. The only inputs that change S are accepted bytes and resets: the interpreter, router and trace rows leave the whole
decoder state, PBUF, the frame output, the configuration and the emitted frames as they are, and so does, at the ports, an
edge that accepts no byte and asserts no reset, whatever the consumer and the observers do at it. -/
def Obligations.OnlyBytesAndResetsChangeTheDecoder : Prop :=
  (∀ (i : Instr) (s t : State), i.format ≠ .feed → i.format ≠ .control → exec i s = .next t →
    t.phase = s.phase ∧ t.scratch = s.scratch ∧ t.cmd = s.cmd ∧ t.len = s.len ∧ t.payload = s.payload ∧
    t.csum = s.csum ∧ (∀ a, t.pbuf.read a = s.pbuf.read a) ∧ t.hold = s.hold ∧ t.frameValid = s.frameValid ∧
    t.frames = s.frames ∧ t.records = s.records ∧ t.triggerId = s.triggerId ∧ t.logCapacity = s.logCapacity ∧
    t.inputs = s.inputs ∧ t.draws = s.draws ∧
    (i.format ≠ .command → t.pending = s.pending) ∧ (i.format ≠ .record → t.triggers = s.triggers) ∧
    ((∀ x b, i ≠ .logPushRaw x b) → t.traceRaw = s.traceRaw) ∧
    ((∀ x r, i ≠ .logPushRecord x r) → t.traceRec = s.traceRec) ∧
    ((∀ ch, i ≠ .logSnapshot ch) → t.snapshots = s.snapshots)) ∧
  (∀ (p : PortIn) (s t : State), p.rst = false → p.softReset = false → accepts p s = false → clockEdge p s = .next t →
    t.phase = s.phase ∧ t.scratch = s.scratch ∧ t.cmd = s.cmd ∧ t.len = s.len ∧ t.payload = s.payload ∧
    t.csum = s.csum ∧ (∀ a, t.pbuf.read a = s.pbuf.read a) ∧ t.hold = s.hold ∧ t.frames = s.frames)

/-- R111. `feed` returns a frame only by FEED_END_EMIT: every other instruction emits none, and a byte selects FEED_END_EMIT
only if it is the end marker, in End. -/
def Obligations.OnlyTheEndMarkerEmits : Prop :=
  (∀ (i : Instr) (s t : State), exec i s = .next t →
    (i ≠ .feedEndEmit → t.frames = s.frames) ∧ (i = .feedEndEmit → t.frames = s.frames ++ [s.heldFrame])) ∧
  (∀ (s : State) (b : Byte), decode (feedWord b s) = .ok .feedEndEmit → s.phase = .atEnd ∧ b = 0xED)

/-! ### What influences what -/

/-- R113. The checksum influences nothing: two states that agree but for checksums step alike, and the states they step to
agree but for checksums again. It is copied into the emitted frame, and of all ports only `frame_csum` shows it. -/
def Obligations.ChecksumInfluencesNothing : Prop :=
  (∀ s t s1 : State, s.butChecksum = t.butChecksum → step s = .next s1 →
    ∃ t1, step t = .next t1 ∧ s1.butChecksum = t1.butChecksum) ∧
  (∀ s : State, s.phase = .atEnd → ∃ t, exec .feedEndEmit s = .next t ∧ (t.frames.getLast?).map Frame.checksum = some s.csum) ∧
  (∀ (p : PortIn) (s t : State), s.butChecksum = t.butChecksum →
    { portOut p s with frameCsum := 0 } = { portOut p t with frameCsum := 0 })

/-- The trace never influences decoding, interpretation or routing (R31, R150): two states that agree but for the trace step
alike, and the states they step to agree but for the trace again. -/
def Obligations.TraceInfluencesNothing : Prop :=
  ∀ s t s1 : State, s.butTrace = t.butTrace → step s = .next s1 →
    ∃ t1, step t = .next t1 ∧ s1.butTrace = t1.butTrace

/-- R142. TRIGGER_ID is 2 by default and swappable: two states that agree but for TRIGGER_ID and the delivered events step
alike, and the states they step to agree but for these again. -/
def Obligations.TriggerIdChangesOnlyTriggers : Prop :=
  State.reset.triggerId = 2 ∧
  ∀ s t s1 : State, s.butTriggers = t.butTriggers → step s = .next s1 →
    ∃ t1, step t = .next t1 ∧ s1.butTriggers = t1.butTriggers

/-! ### Streams of bytes -/

/-- R53. Feeding the bytes of any chunks, chunk by chunk, is feeding the same bytes one at a time. -/
def Obligations.ChunksDoNotMatter : Prop :=
  ∀ (chunks : List (List Byte)) (s : State), s.inputs = [] → feedChunks chunks s = feedBytes chunks.flatten s

/-- R101, R201. While scanning, a run of any length of bytes other than 0xFD leaves the decoder in WaitStart as it was, with
no frame, record or trigger. -/
def Obligations.NoiseIsDiscarded : Prop :=
  ∀ (bs : List Byte) (s : State), s.Inv → s.phase = .waitStart → s.pending = [] → (∀ b ∈ bs, b ≠ 0xFD) →
    ∃ t, feedBytes bs s = .next t ∧ t.phase = .waitStart ∧ t.scratch = s.scratch ∧ t.payload = s.payload ∧
      t.cmd = s.cmd ∧ t.len = s.len ∧ t.csum = s.csum ∧ t.frames = s.frames ∧ t.records = s.records ∧
      t.triggers = s.triggers ∧ t.traceRec = s.traceRec

/-- R114. A decoder in End that discards any number of bytes other than 0xED stays in End without emitting anything, and
emits its held frame, unchanged, at the first 0xED, resuming in WaitStart. -/
def Obligations.LateEndMarkerEmitsTheHeldFrame : Prop :=
  ∀ (bs : List Byte) (s : State), s.Inv → s.phase = .atEnd → s.pending = [] → (∀ b ∈ bs, b ≠ 0xED) →
    (∃ t, feedBytes bs s = .next t ∧ t.phase = .atEnd ∧ t.frames = s.frames ∧ t.records = s.records) ∧
    (∃ t, feedBytes (bs ++ [0xED]) s = .next t ∧ t.phase = .waitStart ∧ t.frames = s.frames ++ [s.heldFrame] ∧
      t.records = s.records ++ interpret s.heldFrame)

/-- R115. From WaitStart, feeding the 9 + N bytes of a frame's layout emits nothing for the first 8 + N bytes and exactly that
frame on the last, leaving WaitStart with empty scratch, whatever the bytes; its records and triggers are delivered in
order. -/
def Obligations.FedFramesAreEmitted : Prop :=
  ∀ (f : Frame) (s : State), s.Inv → s.phase = .waitStart → s.pending = [] → f.wf = true →
    (∀ k, k ≤ 8 + f.length.toNat → ∃ t, feedBytes (f.wire.take k) s = .next t ∧ t.frames = s.frames ∧
      t.records = s.records ∧ t.triggers = s.triggers) ∧
    (∃ t, feedBytes f.wire s = .next t ∧ t.frames = s.frames ++ [f] ∧ t.phase = .waitStart ∧ t.scratch = [] ∧
      t.records = s.records ++ interpret f ∧
      t.triggers = s.triggers ++ ((interpret f).filter fun r => r.id == s.triggerId).map TriggerEvent.mk ∧
      t.traceRec.map RecEntry.record = lastN s.logCapacity (s.traceRec.map RecEntry.record ++ interpret f))

/-! ### The cycle-level realisation -/

/-- R83. Every sequence of edges, from a state with no record pending, gives, once the records still presented are taken, the
frames, records, triggers, trace and phase that the transactions it performs give, provided no edge asserts `rst` while
records are still to be taken (such an edge discards records that the transaction model has delivered, log entry 25). -/
def Obligations.EdgesRealiseTransactions : Prop :=
  ∀ (ps : List PortIn) (s : State), s.Inv → s.pending = [] → noRstWhileBusy ps s = true →
    ∃ u v w, run ps.length (s.presentEdges ps) = .next u ∧ deliverAll u = .next v ∧
      run (acceptedOps ps s).length (s.presentOps (acceptedOps ps s)) = .next w ∧ v.observe = w.observe

/-- R76. `frame_valid` is high after an edge exactly when that edge accepted the byte that completed a frame, and the frame
outputs then show the frame. -/
def Obligations.FrameValidPulses : Prop :=
  ∀ (s t : State) (p : PortIn), clockEdge p s = .next t →
    (∀ q, (portOut q t).frameValid = true ↔ accepts p s = true ∧ s.phase = .atEnd ∧ p.inData = 0xED) ∧
    (t.frameValid = true → ∀ q, (portOut q t).frameCmd = s.cmd ∧ (portOut q t).frameLen = s.len ∧
      (portOut q t).frameCsum = s.csum)

/-- R77. While a frame is held, the frame outputs show it and `pl_data` shows the payload byte at every `pl_addr` below
`frame_len`; an edge that accepts no byte and does not assert `rst` keeps the window, and one that accepts a byte closes
it. -/
def Obligations.FrameWindow : Prop :=
  ∀ (s : State) (f : Frame), s.Inv → s.hold = some f →
    (∀ q, (portOut q s).frameCmd = f.command ∧ (portOut q s).frameLen = f.length ∧
      (portOut q s).frameCsum = f.checksum ∧
      (q.plAddr.toNat < f.length.toNat → f.payload[q.plAddr.toNat]? = some (portOut q s).plData)) ∧
    (∀ p t, clockEdge p s = .next t → p.rst = false → accepts p s = false →
      t.hold = some f ∧ ∀ a, t.pbuf.read a = s.pbuf.read a) ∧
    (∀ p t, clockEdge p s = .next t → accepts p s = true → t.hold = none)

/-- R78. `in_ready` is low during either reset and while `busy`; `busy` is set by an edge that accepts the byte completing a
frame that yields at least one record, and cleared by the edge that takes the last of them (or by `rst`). -/
def Obligations.InputIsHeldWhileRecordsAreDelivered : Prop :=
  (∀ (p : PortIn) (s : State), (portOut p s).inReady = (!p.rst && !p.softReset && !s.busy)) ∧
  (∀ (s t : State) (p : PortIn), clockEdge p s = .next t →
    (t.busy = true ↔ p.rst = false ∧
      ((s.busy = true ∧ ¬ (p.recReady = true ∧ s.pending.length = 1)) ∨
        (accepts p s = true ∧ s.phase = .atEnd ∧ p.inData = 0xED ∧ interpret s.heldFrame ≠ []))))

/-- R79, R80. While busy the next record is presented: a ClassificationRecord drives the geometry lanes 0; `trig_valid` is
high exactly when its id is TRIGGER_ID. An edge with `rec_ready` takes it (it is delivered, and its trigger event with it),
one without keeps it. -/
def Obligations.RecordHandshake : Prop :=
  ∀ (s : State) (p : PortIn),
    (s.pending = [] → (portOut p s).recValid = false ∧ (portOut p s).trigValid = false) ∧
    (∀ r rest, s.pending = r :: rest → 1 ≤ s.logCapacity →
      (portOut p s).recValid = true ∧ ((portOut p s).trigValid = true ↔ r.id = s.triggerId) ∧
      (∀ st i c, r = .classification st i c →
        (portOut p s).record = { kind := false, subtype := st, id := i, x := 0, y := 0, w := 0, h := 0, conf := c }) ∧
      (∀ st i x y w h c, r = .detection st i x y w h c →
        (portOut p s).record = { kind := true, subtype := st, id := i, x := x, y := y, w := w, h := h, conf := c }) ∧
      (p.rst = false → ∃ t, clockEdge p s = .next t ∧ t.traceRaw = s.traceRaw ∧
        (p.recReady = true →
          t.pending = rest ∧ t.records = s.records ++ [r] ∧
          t.triggers = s.triggers ++ (if r.id = s.triggerId then [{ record := r }] else []) ∧
          t.traceRec = pushBounded s.logCapacity s.traceRec { timestamp := p.ts, record := r }) ∧
        (p.recReady = false →
          t.pending = s.pending ∧ t.records = s.records ∧ t.triggers = s.triggers ∧ t.traceRec = s.traceRec)))

/-- `rst` wins over `soft_reset`, and either over a presented byte, which is then not accepted (R74); a byte that is not
accepted has no effect (R75), and an edge with neither resets, nor an accepted byte, nor a record taken changes nothing but
the pulse, which ends (R76), and the model's own draw counter, which counts the edge (the model's choice, log entry 9). -/
def Obligations.EdgePriorities : Prop :=
  ∀ (s : State) (p : PortIn), 1 ≤ s.logCapacity →
    (p.rst = true → ∃ t, clockEdge p s = .next t ∧ accepts p s = false ∧ t.phase = .waitStart ∧ t.scratch = [] ∧
      t.payload = [] ∧ t.traceRaw = [] ∧ t.traceRec = [] ∧ t.pending = [] ∧ t.hold = none ∧ t.frames = s.frames) ∧
    (p.rst = false → p.softReset = true → ∃ t, clockEdge p s = .next t ∧ accepts p s = false ∧ t.phase = .waitStart ∧
      t.scratch = [] ∧ t.payload = [] ∧ t.traceRaw = s.traceRaw ∧ t.frames = s.frames ∧ t.hold = s.hold) ∧
    (p.rst = false → p.softReset = false → accepts p s = false → (s.busy && p.recReady) = false →
      clockEdge p s = .next { s with frameValid := false, draws := s.draws + 1 })

/-- R82. `log_count` is the length of the selected channel; below it, the read ports show entry `log_idx` of the newest-first
snapshot, so index 0 is the newest entry; `log_count` fits its width. -/
def Obligations.TraceReadPort : Prop :=
  ∀ (s : State) (p : PortIn), s.Inv →
    (portOut p s).logCount < 2 ^ logCountWidth s.logCapacity ∧
    (p.logSel = false → (portOut p s).logCount = s.traceRaw.length ∧
      ∀ e, p.logIdx < s.traceRaw.length → s.traceRaw[s.traceRaw.length - 1 - p.logIdx]? = some e →
        (portOut p s).logTs = e.timestamp ∧ (portOut p s).logByte = e.value) ∧
    (p.logSel = true → (portOut p s).logCount = s.traceRec.length ∧
      ∀ e, p.logIdx < s.traceRec.length → s.traceRec[s.traceRec.length - 1 - p.logIdx]? = some e →
        (portOut p s).logTs = e.timestamp ∧ (portOut p s).logRec.kind = recordKind e.record ∧
        (portOut p s).logRec.subtype = recordSubtype e.record ∧ (portOut p s).logRec.id = e.record.id ∧
        (portOut p s).logRec.conf = recordConfidence e.record ∧
        ∀ x y w h, recordGeometry e.record = some (x, y, w, h) →
          (portOut p s).logRec.x = x ∧ (portOut p s).logRec.y = y ∧ (portOut p s).logRec.w = w ∧
          (portOut p s).logRec.h = h)
end

