-- ==== Sys2Proof/Laws/Decode.lean ====
section
/-! SUPPORT. Byte order, the FEED key and the row it selects, the command rows, the wire frame. -/

namespace Sys2Proof

/-! ### Byte order -/

theorem halfByte_le16 (v : Half) : le16 (halfByte v 0) (halfByte v 1) = v := by
  ext i hi
  simp only [le16, halfByte]
  simp
  by_cases h : i < 8
  · simp [h, show i < 16 by omega]
  · simp [h, show i - 8 < 8 by omega, show 8 + (i - 8) = i by omega, hi, BitVec.getLsbD_eq_getElem]

theorem le16_halfByte0 (lo hi : Byte) : halfByte (le16 lo hi) 0 = lo := by
  ext i h
  simp [le16, halfByte, h, show i < 16 by omega, BitVec.getLsbD_eq_getElem]

theorem le16_halfByte1 (lo hi : Byte) : halfByte (le16 lo hi) 1 = hi := by
  ext i h
  simp [le16, halfByte, h, show 8 + i < 16 by omega, BitVec.getLsbD_eq_getElem]

theorem wordByte_le32 (v : Word) : le32 (wordByte v 0) (wordByte v 1) (wordByte v 2) (wordByte v 3) = v := by
  ext i hi
  simp only [le32, wordByte, BitVec.getElem_or, BitVec.getElem_shiftLeft, BitVec.getLsbD_extractLsb',
    BitVec.getElem_setWidth, BitVec.truncate_eq_setWidth]
  rcases (by omega : i < 8 ∨ (8 ≤ i ∧ i < 16) ∨ (16 ≤ i ∧ i < 24) ∨ 24 ≤ i) with h | ⟨h, h'⟩ | ⟨h, h'⟩ | h
  · simp [h, show i < 16 by omega, show i < 24 by omega, BitVec.getLsbD_eq_getElem, hi]
  · simp [h', show ¬ i < 8 by omega, show i - 8 < 8 by omega, show 8 + (i - 8) = i by omega, show i < 24 by omega,
      BitVec.getLsbD_eq_getElem, hi]
  · simp [h', show ¬ i < 8 by omega, show ¬ i < 16 by omega, show ¬ i - 8 < 8 by omega, show i - 16 < 8 by omega,
      show 16 + (i - 16) = i by omega, BitVec.getLsbD_eq_getElem, hi]
  · simp [show ¬ i < 8 by omega, show ¬ i < 16 by omega, show ¬ i < 24 by omega, show ¬ i - 8 < 8 by omega,
      show ¬ i - 16 < 8 by omega, show i - 24 < 8 by omega, show 24 + (i - 24) = i by omega,
      BitVec.getLsbD_eq_getElem, hi]

theorem le32_wordByte0 (a b c d : Byte) : wordByte (le32 a b c d) 0 = a := by
  ext i h
  simp [le32, wordByte, h, show i < 16 by omega, show i < 24 by omega, show i < 32 by omega, BitVec.getLsbD_eq_getElem]

theorem le32_wordByte1 (a b c d : Byte) : wordByte (le32 a b c d) 1 = b := by
  ext i h
  simp [le32, wordByte, h, show 8 + i < 16 by omega, show 8 + i < 24 by omega, show 8 + i < 32 by omega,
    BitVec.getLsbD_eq_getElem]

theorem le32_wordByte2 (a b c d : Byte) : wordByte (le32 a b c d) 2 = c := by
  ext i h
  simp [le32, wordByte, h, show ¬ 16 + i < 16 by omega, show 16 + i < 24 by omega, show 16 + i < 32 by omega,
    BitVec.getLsbD_eq_getElem, BitVec.getLsbD_of_ge a (16 + i) (by omega), BitVec.getLsbD_of_ge b (16 + i - 8) (by omega)]

theorem le32_wordByte3 (a b c d : Byte) : wordByte (le32 a b c d) 3 = d := by
  ext i h
  simp [le32, wordByte, h, show ¬ 24 + i < 16 by omega, show ¬ 24 + i < 24 by omega, show 24 + i < 32 by omega,
    BitVec.getLsbD_eq_getElem, BitVec.getLsbD_of_ge a (24 + i) (by omega), BitVec.getLsbD_of_ge b (24 + i - 8) (by omega),
    BitVec.getLsbD_of_ge c (24 + i - 16) (by omega)]

/-! ### The FEED key -/

theorem keyByte_feedKey (p : Phase) (b : Byte) : keyByte (feedKey p b) = b := by
  cases p <;> revert b <;> decide

theorem keyCode_feedKey (p : Phase) (b : Byte) : keyCode (feedKey p b) = p.code := by
  cases p <;> revert b <;> decide

@[simp] theorem ofCode_code (p : Phase) : Phase.ofCode p.code = some p := by cases p <;> rfl

theorem feedKey_waitStart (p : Phase) (b : Byte) : (feedKey p b &&& 0x700 == 0x000) = decide (p = .waitStart) := by
  cases p <;> revert b <;> decide

theorem feedKey_header (p : Phase) (b : Byte) : (feedKey p b &&& 0x700 == 0x100) = decide (p = .header) := by
  cases p <;> revert b <;> decide

theorem feedKey_payload (p : Phase) (b : Byte) : (feedKey p b &&& 0x700 == 0x200) = decide (p = .payload) := by
  cases p <;> revert b <;> decide

theorem feedKey_checksum (p : Phase) (b : Byte) : (feedKey p b &&& 0x700 == 0x300) = decide (p = .checksum) := by
  cases p <;> revert b <;> decide

theorem feedKey_atEnd (p : Phase) (b : Byte) : (feedKey p b &&& 0x700 == 0x400) = decide (p = .atEnd) := by
  cases p <;> revert b <;> decide

/-- Row 1 matches in WaitStart on START_MARKER only (R70). -/
theorem feedKey_start (p : Phase) (b : Byte) :
    (feedKey p b &&& 0x7FF == 0x0FD) = (decide (p = .waitStart) && decide (b = Config.startMarker)) := by
  cases p <;> revert b <;> decide

/-- Row 9 matches in End on END_MARKER only (R70). -/
theorem feedKey_stop (p : Phase) (b : Byte) :
    (feedKey p b &&& 0x7FF == 0x4ED) = (decide (p = .atEnd) && decide (b = Config.endMarker)) := by
  cases p <;> revert b <;> decide

/-- The row that a FEED selects, phase by phase (R70). -/
theorem decodeFeed_feedKey (p : Phase) (b : Byte) (n : Nat) (len : Half) :
    decodeFeed (feedKey p b) n len =
      match p with
      | .waitStart => if b = Config.startMarker then some .feedWsStart else some (.feedWsSkip b)
      | .header => if n < 2 then some (.feedHdrAcc b) else if n = 2 then some (.feedHdrDone b) else none
      | .payload =>
        if n + 1 < len.toNat then some (.feedPlAcc b) else if n + 1 = len.toNat then some (.feedPlDone b) else none
      | .checksum => if n < 3 then some (.feedCkAcc b) else if n = 3 then some (.feedCkDone b) else none
      | .atEnd => if b = Config.endMarker then some .feedEndEmit else some (.feedEndStall b) := by
  simp only [decodeFeed, feedRows, FeedRow.hits, List.cons_append, List.nil_append, List.find?_cons, List.find?_nil,
    feedKey_start, feedKey_stop, feedKey_waitStart, feedKey_header, feedKey_payload, feedKey_checksum, feedKey_atEnd,
    CountCond.holds, keyByte_feedKey]
  cases p
  · by_cases h : b = 253#8 <;> simp [h]
  · rcases (by omega : n < 2 ∨ n = 2 ∨ 2 < n) with h | rfl | h
    · simp [h]
    · simp
    · simp [show ¬ n ≤ 1 by omega, show ¬ n = 2 by omega, show (n == 2) = false by simp; omega]
  · rcases lt_trichotomy (n + 1) len.toNat with h | h | h
    · simp [h]
    · simp [h]
    · simp [show ¬ n + 1 < len.toNat by omega, show ¬ n + 1 = len.toNat by omega,
        show (n + 1 == len.toNat) = false by simp; omega]
  · rcases (by omega : n < 3 ∨ n = 3 ∨ 3 < n) with h | rfl | h
    · simp [h]
    · simp
    · simp [show ¬ n < 3 by omega, show ¬ n = 3 by omega, show (n == 3) = false by simp; omega]
  · by_cases h : b = 237#8 <;> simp [h]

/-- The word of a FEED decodes to the row its key and count select; a count that no row accepts is rejected by name. -/
theorem decode_feedKey (p : Phase) (b : Byte) (n : Nat) (len : Half) :
    decode (.feed (feedKey p b) n len) =
      match decodeFeed (feedKey p b) n len with
      | some i => .ok i
      | none => .error (.noFeedRow (feedKey p b)) := by
  simp only [decode, keyCode_feedKey, ofCode_code]
  cases decodeFeed (feedKey p b) n len <;> simp

/-- A key whose phase code is 5, 6 or 7 matches no row (R68, I13). -/
theorem hits_badCode : ∀ key : BitVec 11, Phase.ofCode (keyCode key) = none → ∀ row ∈ feedRows, row.hits key = false := by
  have h : ∀ key : BitVec 11, Phase.ofCode (keyCode key) = none → feedRows.all fun row => !row.hits key := by decide
  intro key hk row hrow
  simpa using List.all_eq_true.1 (h key hk) row hrow

theorem decodeFeed_badCode (key : BitVec 11) (n : Nat) (len : Half) (h : Phase.ofCode (keyCode key) = none) :
    decodeFeed key n len = none := by
  simp only [decodeFeed, Option.map_eq_none_iff, List.find?_eq_none]
  intro row hrow
  simp [hits_badCode key h row hrow]

/-! ### The command byte -/

/-- The row that a command byte selects (R64, R121). -/
theorem decodeCommand_eq (f : Frame) :
    decodeCommand f = some
      (if f.command = Config.cmdClassification then .interpClassification f
        else if f.command = Config.cmdDetection then .interpDetection f
        else if f.command = Config.cmdReserved0 then .interpReserved0 f
        else .interpUnknown f) := by
  have rows3 : ∀ c : Byte,
      (c &&& 0xFF == 0x01) = decide (c = 1) ∧ (c &&& 0xFF == 0x02) = decide (c = 2) ∧ (c &&& 0xFF == 0x00) = decide (c = 0) := by
    decide
  have rest : ∀ c : Byte, c ≠ 1 → c ≠ 2 → c ≠ 0 →
      ((c &&& 0xFF == 0x03) || (c &&& 0xFC == 0x04) || (c &&& 0xF8 == 0x08) || (c &&& 0xF0 == 0x10) || (c &&& 0xE0 == 0x20)
        || (c &&& 0xC0 == 0x40) || (c &&& 0x80 == 0x80)) = true := by decide
  obtain ⟨r1, r2, r0⟩ := rows3 f.command
  simp only [decodeCommand, commandRows, CommandRow.hits, List.cons_append, List.nil_append, List.find?_cons, List.find?_nil,
    r1, r2, r0]
  by_cases h1 : f.command = 1
  · simp [h1]
  by_cases h2 : f.command = 2
  · simp [h2]
  by_cases h0 : f.command = 0
  · simp [h0]
  have hr := rest f.command h1 h2 h0
  simp only [h1, h2, h0, decide_false, if_false]
  repeat' split
  all_goals first | rfl | (clear rows3 rest; simp_all)

/-! ### The wire frame -/

theorem wire_length (f : Frame) : f.wire.length = 9 + f.payload.length := by
  simp [Frame.wire]
  omega

end Sys2Proof
end

