-- ==== Sys2Proof/Laws/State.lean ====
section
/-! SUPPORT. Each field after each update of the state. -/

namespace Sys2Proof.Machine

/-! ### setPhase -/

@[simp] theorem State.setPhase_phase (p : Phase) (s : State) : (s.setPhase p).phase = p := rfl
@[simp] theorem State.setPhase_scratch (p : Phase) (s : State) : (s.setPhase p).scratch = s.scratch := rfl
@[simp] theorem State.setPhase_cmd (p : Phase) (s : State) : (s.setPhase p).cmd = s.cmd := rfl
@[simp] theorem State.setPhase_len (p : Phase) (s : State) : (s.setPhase p).len = s.len := rfl
@[simp] theorem State.setPhase_payload (p : Phase) (s : State) : (s.setPhase p).payload = s.payload := rfl
@[simp] theorem State.setPhase_csum (p : Phase) (s : State) : (s.setPhase p).csum = s.csum := rfl
@[simp] theorem State.setPhase_pbuf (p : Phase) (s : State) : (s.setPhase p).pbuf = s.pbuf := rfl
@[simp] theorem State.setPhase_traceRaw (p : Phase) (s : State) : (s.setPhase p).traceRaw = s.traceRaw := rfl
@[simp] theorem State.setPhase_traceRec (p : Phase) (s : State) : (s.setPhase p).traceRec = s.traceRec := rfl
@[simp] theorem State.setPhase_triggerId (p : Phase) (s : State) : (s.setPhase p).triggerId = s.triggerId := rfl
@[simp] theorem State.setPhase_logCapacity (p : Phase) (s : State) : (s.setPhase p).logCapacity = s.logCapacity := rfl
@[simp] theorem State.setPhase_pending (p : Phase) (s : State) : (s.setPhase p).pending = s.pending := rfl
@[simp] theorem State.setPhase_hold (p : Phase) (s : State) : (s.setPhase p).hold = s.hold := rfl
@[simp] theorem State.setPhase_frameValid (p : Phase) (s : State) : (s.setPhase p).frameValid = s.frameValid := rfl
@[simp] theorem State.setPhase_frames (p : Phase) (s : State) : (s.setPhase p).frames = s.frames := rfl
@[simp] theorem State.setPhase_records (p : Phase) (s : State) : (s.setPhase p).records = s.records := rfl
@[simp] theorem State.setPhase_triggers (p : Phase) (s : State) : (s.setPhase p).triggers = s.triggers := rfl
@[simp] theorem State.setPhase_snapshots (p : Phase) (s : State) : (s.setPhase p).snapshots = s.snapshots := rfl
@[simp] theorem State.setPhase_inputs (p : Phase) (s : State) : (s.setPhase p).inputs = s.inputs := rfl
@[simp] theorem State.setPhase_draws (p : Phase) (s : State) : (s.setPhase p).draws = s.draws := rfl

/-! ### setScratch -/

@[simp] theorem State.setScratch_phase (bs : List Byte) (s : State) : (s.setScratch bs).phase = s.phase := rfl
@[simp] theorem State.setScratch_scratch (bs : List Byte) (s : State) : (s.setScratch bs).scratch = bs := rfl
@[simp] theorem State.setScratch_cmd (bs : List Byte) (s : State) : (s.setScratch bs).cmd = s.cmd := rfl
@[simp] theorem State.setScratch_len (bs : List Byte) (s : State) : (s.setScratch bs).len = s.len := rfl
@[simp] theorem State.setScratch_payload (bs : List Byte) (s : State) : (s.setScratch bs).payload = s.payload := rfl
@[simp] theorem State.setScratch_csum (bs : List Byte) (s : State) : (s.setScratch bs).csum = s.csum := rfl
@[simp] theorem State.setScratch_pbuf (bs : List Byte) (s : State) : (s.setScratch bs).pbuf = s.pbuf := rfl
@[simp] theorem State.setScratch_traceRaw (bs : List Byte) (s : State) : (s.setScratch bs).traceRaw = s.traceRaw := rfl
@[simp] theorem State.setScratch_traceRec (bs : List Byte) (s : State) : (s.setScratch bs).traceRec = s.traceRec := rfl
@[simp] theorem State.setScratch_triggerId (bs : List Byte) (s : State) : (s.setScratch bs).triggerId = s.triggerId := rfl
@[simp] theorem State.setScratch_logCapacity (bs : List Byte) (s : State) : (s.setScratch bs).logCapacity = s.logCapacity := rfl
@[simp] theorem State.setScratch_pending (bs : List Byte) (s : State) : (s.setScratch bs).pending = s.pending := rfl
@[simp] theorem State.setScratch_hold (bs : List Byte) (s : State) : (s.setScratch bs).hold = s.hold := rfl
@[simp] theorem State.setScratch_frameValid (bs : List Byte) (s : State) : (s.setScratch bs).frameValid = s.frameValid := rfl
@[simp] theorem State.setScratch_frames (bs : List Byte) (s : State) : (s.setScratch bs).frames = s.frames := rfl
@[simp] theorem State.setScratch_records (bs : List Byte) (s : State) : (s.setScratch bs).records = s.records := rfl
@[simp] theorem State.setScratch_triggers (bs : List Byte) (s : State) : (s.setScratch bs).triggers = s.triggers := rfl
@[simp] theorem State.setScratch_snapshots (bs : List Byte) (s : State) : (s.setScratch bs).snapshots = s.snapshots := rfl
@[simp] theorem State.setScratch_inputs (bs : List Byte) (s : State) : (s.setScratch bs).inputs = s.inputs := rfl
@[simp] theorem State.setScratch_draws (bs : List Byte) (s : State) : (s.setScratch bs).draws = s.draws := rfl

/-! ### setHeader -/

@[simp] theorem State.setHeader_phase (c : Byte) (l : Half) (s : State) : (s.setHeader c l).phase = s.phase := rfl
@[simp] theorem State.setHeader_scratch (c : Byte) (l : Half) (s : State) : (s.setHeader c l).scratch = s.scratch := rfl
@[simp] theorem State.setHeader_cmd (c : Byte) (l : Half) (s : State) : (s.setHeader c l).cmd = c := rfl
@[simp] theorem State.setHeader_len (c : Byte) (l : Half) (s : State) : (s.setHeader c l).len = l := rfl
@[simp] theorem State.setHeader_payload (c : Byte) (l : Half) (s : State) : (s.setHeader c l).payload = s.payload := rfl
@[simp] theorem State.setHeader_csum (c : Byte) (l : Half) (s : State) : (s.setHeader c l).csum = s.csum := rfl
@[simp] theorem State.setHeader_pbuf (c : Byte) (l : Half) (s : State) : (s.setHeader c l).pbuf = s.pbuf := rfl
@[simp] theorem State.setHeader_traceRaw (c : Byte) (l : Half) (s : State) : (s.setHeader c l).traceRaw = s.traceRaw := rfl
@[simp] theorem State.setHeader_traceRec (c : Byte) (l : Half) (s : State) : (s.setHeader c l).traceRec = s.traceRec := rfl
@[simp] theorem State.setHeader_triggerId (c : Byte) (l : Half) (s : State) : (s.setHeader c l).triggerId = s.triggerId := rfl
@[simp] theorem State.setHeader_logCapacity (c : Byte) (l : Half) (s : State) : (s.setHeader c l).logCapacity = s.logCapacity := rfl
@[simp] theorem State.setHeader_pending (c : Byte) (l : Half) (s : State) : (s.setHeader c l).pending = s.pending := rfl
@[simp] theorem State.setHeader_hold (c : Byte) (l : Half) (s : State) : (s.setHeader c l).hold = s.hold := rfl
@[simp] theorem State.setHeader_frameValid (c : Byte) (l : Half) (s : State) : (s.setHeader c l).frameValid = s.frameValid := rfl
@[simp] theorem State.setHeader_frames (c : Byte) (l : Half) (s : State) : (s.setHeader c l).frames = s.frames := rfl
@[simp] theorem State.setHeader_records (c : Byte) (l : Half) (s : State) : (s.setHeader c l).records = s.records := rfl
@[simp] theorem State.setHeader_triggers (c : Byte) (l : Half) (s : State) : (s.setHeader c l).triggers = s.triggers := rfl
@[simp] theorem State.setHeader_snapshots (c : Byte) (l : Half) (s : State) : (s.setHeader c l).snapshots = s.snapshots := rfl
@[simp] theorem State.setHeader_inputs (c : Byte) (l : Half) (s : State) : (s.setHeader c l).inputs = s.inputs := rfl
@[simp] theorem State.setHeader_draws (c : Byte) (l : Half) (s : State) : (s.setHeader c l).draws = s.draws := rfl

/-! ### setPayload -/

@[simp] theorem State.setPayload_phase (bs : List Byte) (s : State) : (s.setPayload bs).phase = s.phase := rfl
@[simp] theorem State.setPayload_scratch (bs : List Byte) (s : State) : (s.setPayload bs).scratch = s.scratch := rfl
@[simp] theorem State.setPayload_cmd (bs : List Byte) (s : State) : (s.setPayload bs).cmd = s.cmd := rfl
@[simp] theorem State.setPayload_len (bs : List Byte) (s : State) : (s.setPayload bs).len = s.len := rfl
@[simp] theorem State.setPayload_payload (bs : List Byte) (s : State) : (s.setPayload bs).payload = bs := rfl
@[simp] theorem State.setPayload_csum (bs : List Byte) (s : State) : (s.setPayload bs).csum = s.csum := rfl
@[simp] theorem State.setPayload_pbuf (bs : List Byte) (s : State) : (s.setPayload bs).pbuf = s.pbuf := rfl
@[simp] theorem State.setPayload_traceRaw (bs : List Byte) (s : State) : (s.setPayload bs).traceRaw = s.traceRaw := rfl
@[simp] theorem State.setPayload_traceRec (bs : List Byte) (s : State) : (s.setPayload bs).traceRec = s.traceRec := rfl
@[simp] theorem State.setPayload_triggerId (bs : List Byte) (s : State) : (s.setPayload bs).triggerId = s.triggerId := rfl
@[simp] theorem State.setPayload_logCapacity (bs : List Byte) (s : State) : (s.setPayload bs).logCapacity = s.logCapacity := rfl
@[simp] theorem State.setPayload_pending (bs : List Byte) (s : State) : (s.setPayload bs).pending = s.pending := rfl
@[simp] theorem State.setPayload_hold (bs : List Byte) (s : State) : (s.setPayload bs).hold = s.hold := rfl
@[simp] theorem State.setPayload_frameValid (bs : List Byte) (s : State) : (s.setPayload bs).frameValid = s.frameValid := rfl
@[simp] theorem State.setPayload_frames (bs : List Byte) (s : State) : (s.setPayload bs).frames = s.frames := rfl
@[simp] theorem State.setPayload_records (bs : List Byte) (s : State) : (s.setPayload bs).records = s.records := rfl
@[simp] theorem State.setPayload_triggers (bs : List Byte) (s : State) : (s.setPayload bs).triggers = s.triggers := rfl
@[simp] theorem State.setPayload_snapshots (bs : List Byte) (s : State) : (s.setPayload bs).snapshots = s.snapshots := rfl
@[simp] theorem State.setPayload_inputs (bs : List Byte) (s : State) : (s.setPayload bs).inputs = s.inputs := rfl
@[simp] theorem State.setPayload_draws (bs : List Byte) (s : State) : (s.setPayload bs).draws = s.draws := rfl

/-! ### setCsum -/

@[simp] theorem State.setCsum_phase (v : Word) (s : State) : (s.setCsum v).phase = s.phase := rfl
@[simp] theorem State.setCsum_scratch (v : Word) (s : State) : (s.setCsum v).scratch = s.scratch := rfl
@[simp] theorem State.setCsum_cmd (v : Word) (s : State) : (s.setCsum v).cmd = s.cmd := rfl
@[simp] theorem State.setCsum_len (v : Word) (s : State) : (s.setCsum v).len = s.len := rfl
@[simp] theorem State.setCsum_payload (v : Word) (s : State) : (s.setCsum v).payload = s.payload := rfl
@[simp] theorem State.setCsum_csum (v : Word) (s : State) : (s.setCsum v).csum = v := rfl
@[simp] theorem State.setCsum_pbuf (v : Word) (s : State) : (s.setCsum v).pbuf = s.pbuf := rfl
@[simp] theorem State.setCsum_traceRaw (v : Word) (s : State) : (s.setCsum v).traceRaw = s.traceRaw := rfl
@[simp] theorem State.setCsum_traceRec (v : Word) (s : State) : (s.setCsum v).traceRec = s.traceRec := rfl
@[simp] theorem State.setCsum_triggerId (v : Word) (s : State) : (s.setCsum v).triggerId = s.triggerId := rfl
@[simp] theorem State.setCsum_logCapacity (v : Word) (s : State) : (s.setCsum v).logCapacity = s.logCapacity := rfl
@[simp] theorem State.setCsum_pending (v : Word) (s : State) : (s.setCsum v).pending = s.pending := rfl
@[simp] theorem State.setCsum_hold (v : Word) (s : State) : (s.setCsum v).hold = s.hold := rfl
@[simp] theorem State.setCsum_frameValid (v : Word) (s : State) : (s.setCsum v).frameValid = s.frameValid := rfl
@[simp] theorem State.setCsum_frames (v : Word) (s : State) : (s.setCsum v).frames = s.frames := rfl
@[simp] theorem State.setCsum_records (v : Word) (s : State) : (s.setCsum v).records = s.records := rfl
@[simp] theorem State.setCsum_triggers (v : Word) (s : State) : (s.setCsum v).triggers = s.triggers := rfl
@[simp] theorem State.setCsum_snapshots (v : Word) (s : State) : (s.setCsum v).snapshots = s.snapshots := rfl
@[simp] theorem State.setCsum_inputs (v : Word) (s : State) : (s.setCsum v).inputs = s.inputs := rfl
@[simp] theorem State.setCsum_draws (v : Word) (s : State) : (s.setCsum v).draws = s.draws := rfl

/-! ### setPbuf -/

@[simp] theorem State.setPbuf_phase (m : Memory) (s : State) : (s.setPbuf m).phase = s.phase := rfl
@[simp] theorem State.setPbuf_scratch (m : Memory) (s : State) : (s.setPbuf m).scratch = s.scratch := rfl
@[simp] theorem State.setPbuf_cmd (m : Memory) (s : State) : (s.setPbuf m).cmd = s.cmd := rfl
@[simp] theorem State.setPbuf_len (m : Memory) (s : State) : (s.setPbuf m).len = s.len := rfl
@[simp] theorem State.setPbuf_payload (m : Memory) (s : State) : (s.setPbuf m).payload = s.payload := rfl
@[simp] theorem State.setPbuf_csum (m : Memory) (s : State) : (s.setPbuf m).csum = s.csum := rfl
@[simp] theorem State.setPbuf_pbuf (m : Memory) (s : State) : (s.setPbuf m).pbuf = m := rfl
@[simp] theorem State.setPbuf_traceRaw (m : Memory) (s : State) : (s.setPbuf m).traceRaw = s.traceRaw := rfl
@[simp] theorem State.setPbuf_traceRec (m : Memory) (s : State) : (s.setPbuf m).traceRec = s.traceRec := rfl
@[simp] theorem State.setPbuf_triggerId (m : Memory) (s : State) : (s.setPbuf m).triggerId = s.triggerId := rfl
@[simp] theorem State.setPbuf_logCapacity (m : Memory) (s : State) : (s.setPbuf m).logCapacity = s.logCapacity := rfl
@[simp] theorem State.setPbuf_pending (m : Memory) (s : State) : (s.setPbuf m).pending = s.pending := rfl
@[simp] theorem State.setPbuf_hold (m : Memory) (s : State) : (s.setPbuf m).hold = s.hold := rfl
@[simp] theorem State.setPbuf_frameValid (m : Memory) (s : State) : (s.setPbuf m).frameValid = s.frameValid := rfl
@[simp] theorem State.setPbuf_frames (m : Memory) (s : State) : (s.setPbuf m).frames = s.frames := rfl
@[simp] theorem State.setPbuf_records (m : Memory) (s : State) : (s.setPbuf m).records = s.records := rfl
@[simp] theorem State.setPbuf_triggers (m : Memory) (s : State) : (s.setPbuf m).triggers = s.triggers := rfl
@[simp] theorem State.setPbuf_snapshots (m : Memory) (s : State) : (s.setPbuf m).snapshots = s.snapshots := rfl
@[simp] theorem State.setPbuf_inputs (m : Memory) (s : State) : (s.setPbuf m).inputs = s.inputs := rfl
@[simp] theorem State.setPbuf_draws (m : Memory) (s : State) : (s.setPbuf m).draws = s.draws := rfl

/-! ### setTraceRaw -/

@[simp] theorem State.setTraceRaw_phase (es : List RawEntry) (s : State) : (s.setTraceRaw es).phase = s.phase := rfl
@[simp] theorem State.setTraceRaw_scratch (es : List RawEntry) (s : State) : (s.setTraceRaw es).scratch = s.scratch := rfl
@[simp] theorem State.setTraceRaw_cmd (es : List RawEntry) (s : State) : (s.setTraceRaw es).cmd = s.cmd := rfl
@[simp] theorem State.setTraceRaw_len (es : List RawEntry) (s : State) : (s.setTraceRaw es).len = s.len := rfl
@[simp] theorem State.setTraceRaw_payload (es : List RawEntry) (s : State) : (s.setTraceRaw es).payload = s.payload := rfl
@[simp] theorem State.setTraceRaw_csum (es : List RawEntry) (s : State) : (s.setTraceRaw es).csum = s.csum := rfl
@[simp] theorem State.setTraceRaw_pbuf (es : List RawEntry) (s : State) : (s.setTraceRaw es).pbuf = s.pbuf := rfl
@[simp] theorem State.setTraceRaw_traceRaw (es : List RawEntry) (s : State) : (s.setTraceRaw es).traceRaw = es := rfl
@[simp] theorem State.setTraceRaw_traceRec (es : List RawEntry) (s : State) : (s.setTraceRaw es).traceRec = s.traceRec := rfl
@[simp] theorem State.setTraceRaw_triggerId (es : List RawEntry) (s : State) : (s.setTraceRaw es).triggerId = s.triggerId := rfl
@[simp] theorem State.setTraceRaw_logCapacity (es : List RawEntry) (s : State) : (s.setTraceRaw es).logCapacity = s.logCapacity := rfl
@[simp] theorem State.setTraceRaw_pending (es : List RawEntry) (s : State) : (s.setTraceRaw es).pending = s.pending := rfl
@[simp] theorem State.setTraceRaw_hold (es : List RawEntry) (s : State) : (s.setTraceRaw es).hold = s.hold := rfl
@[simp] theorem State.setTraceRaw_frameValid (es : List RawEntry) (s : State) : (s.setTraceRaw es).frameValid = s.frameValid := rfl
@[simp] theorem State.setTraceRaw_frames (es : List RawEntry) (s : State) : (s.setTraceRaw es).frames = s.frames := rfl
@[simp] theorem State.setTraceRaw_records (es : List RawEntry) (s : State) : (s.setTraceRaw es).records = s.records := rfl
@[simp] theorem State.setTraceRaw_triggers (es : List RawEntry) (s : State) : (s.setTraceRaw es).triggers = s.triggers := rfl
@[simp] theorem State.setTraceRaw_snapshots (es : List RawEntry) (s : State) : (s.setTraceRaw es).snapshots = s.snapshots := rfl
@[simp] theorem State.setTraceRaw_inputs (es : List RawEntry) (s : State) : (s.setTraceRaw es).inputs = s.inputs := rfl
@[simp] theorem State.setTraceRaw_draws (es : List RawEntry) (s : State) : (s.setTraceRaw es).draws = s.draws := rfl

/-! ### setTraceRec -/

@[simp] theorem State.setTraceRec_phase (es : List RecEntry) (s : State) : (s.setTraceRec es).phase = s.phase := rfl
@[simp] theorem State.setTraceRec_scratch (es : List RecEntry) (s : State) : (s.setTraceRec es).scratch = s.scratch := rfl
@[simp] theorem State.setTraceRec_cmd (es : List RecEntry) (s : State) : (s.setTraceRec es).cmd = s.cmd := rfl
@[simp] theorem State.setTraceRec_len (es : List RecEntry) (s : State) : (s.setTraceRec es).len = s.len := rfl
@[simp] theorem State.setTraceRec_payload (es : List RecEntry) (s : State) : (s.setTraceRec es).payload = s.payload := rfl
@[simp] theorem State.setTraceRec_csum (es : List RecEntry) (s : State) : (s.setTraceRec es).csum = s.csum := rfl
@[simp] theorem State.setTraceRec_pbuf (es : List RecEntry) (s : State) : (s.setTraceRec es).pbuf = s.pbuf := rfl
@[simp] theorem State.setTraceRec_traceRaw (es : List RecEntry) (s : State) : (s.setTraceRec es).traceRaw = s.traceRaw := rfl
@[simp] theorem State.setTraceRec_traceRec (es : List RecEntry) (s : State) : (s.setTraceRec es).traceRec = es := rfl
@[simp] theorem State.setTraceRec_triggerId (es : List RecEntry) (s : State) : (s.setTraceRec es).triggerId = s.triggerId := rfl
@[simp] theorem State.setTraceRec_logCapacity (es : List RecEntry) (s : State) : (s.setTraceRec es).logCapacity = s.logCapacity := rfl
@[simp] theorem State.setTraceRec_pending (es : List RecEntry) (s : State) : (s.setTraceRec es).pending = s.pending := rfl
@[simp] theorem State.setTraceRec_hold (es : List RecEntry) (s : State) : (s.setTraceRec es).hold = s.hold := rfl
@[simp] theorem State.setTraceRec_frameValid (es : List RecEntry) (s : State) : (s.setTraceRec es).frameValid = s.frameValid := rfl
@[simp] theorem State.setTraceRec_frames (es : List RecEntry) (s : State) : (s.setTraceRec es).frames = s.frames := rfl
@[simp] theorem State.setTraceRec_records (es : List RecEntry) (s : State) : (s.setTraceRec es).records = s.records := rfl
@[simp] theorem State.setTraceRec_triggers (es : List RecEntry) (s : State) : (s.setTraceRec es).triggers = s.triggers := rfl
@[simp] theorem State.setTraceRec_snapshots (es : List RecEntry) (s : State) : (s.setTraceRec es).snapshots = s.snapshots := rfl
@[simp] theorem State.setTraceRec_inputs (es : List RecEntry) (s : State) : (s.setTraceRec es).inputs = s.inputs := rfl
@[simp] theorem State.setTraceRec_draws (es : List RecEntry) (s : State) : (s.setTraceRec es).draws = s.draws := rfl

/-! ### setPending -/

@[simp] theorem State.setPending_phase (rs : List Record) (s : State) : (s.setPending rs).phase = s.phase := rfl
@[simp] theorem State.setPending_scratch (rs : List Record) (s : State) : (s.setPending rs).scratch = s.scratch := rfl
@[simp] theorem State.setPending_cmd (rs : List Record) (s : State) : (s.setPending rs).cmd = s.cmd := rfl
@[simp] theorem State.setPending_len (rs : List Record) (s : State) : (s.setPending rs).len = s.len := rfl
@[simp] theorem State.setPending_payload (rs : List Record) (s : State) : (s.setPending rs).payload = s.payload := rfl
@[simp] theorem State.setPending_csum (rs : List Record) (s : State) : (s.setPending rs).csum = s.csum := rfl
@[simp] theorem State.setPending_pbuf (rs : List Record) (s : State) : (s.setPending rs).pbuf = s.pbuf := rfl
@[simp] theorem State.setPending_traceRaw (rs : List Record) (s : State) : (s.setPending rs).traceRaw = s.traceRaw := rfl
@[simp] theorem State.setPending_traceRec (rs : List Record) (s : State) : (s.setPending rs).traceRec = s.traceRec := rfl
@[simp] theorem State.setPending_triggerId (rs : List Record) (s : State) : (s.setPending rs).triggerId = s.triggerId := rfl
@[simp] theorem State.setPending_logCapacity (rs : List Record) (s : State) : (s.setPending rs).logCapacity = s.logCapacity := rfl
@[simp] theorem State.setPending_pending (rs : List Record) (s : State) : (s.setPending rs).pending = rs := rfl
@[simp] theorem State.setPending_hold (rs : List Record) (s : State) : (s.setPending rs).hold = s.hold := rfl
@[simp] theorem State.setPending_frameValid (rs : List Record) (s : State) : (s.setPending rs).frameValid = s.frameValid := rfl
@[simp] theorem State.setPending_frames (rs : List Record) (s : State) : (s.setPending rs).frames = s.frames := rfl
@[simp] theorem State.setPending_records (rs : List Record) (s : State) : (s.setPending rs).records = s.records := rfl
@[simp] theorem State.setPending_triggers (rs : List Record) (s : State) : (s.setPending rs).triggers = s.triggers := rfl
@[simp] theorem State.setPending_snapshots (rs : List Record) (s : State) : (s.setPending rs).snapshots = s.snapshots := rfl
@[simp] theorem State.setPending_inputs (rs : List Record) (s : State) : (s.setPending rs).inputs = s.inputs := rfl
@[simp] theorem State.setPending_draws (rs : List Record) (s : State) : (s.setPending rs).draws = s.draws := rfl

/-! ### yieldRecords -/

@[simp] theorem State.yieldRecords_phase (rs : List Record) (s : State) : (s.yieldRecords rs).phase = s.phase := rfl
@[simp] theorem State.yieldRecords_scratch (rs : List Record) (s : State) : (s.yieldRecords rs).scratch = s.scratch := rfl
@[simp] theorem State.yieldRecords_cmd (rs : List Record) (s : State) : (s.yieldRecords rs).cmd = s.cmd := rfl
@[simp] theorem State.yieldRecords_len (rs : List Record) (s : State) : (s.yieldRecords rs).len = s.len := rfl
@[simp] theorem State.yieldRecords_payload (rs : List Record) (s : State) : (s.yieldRecords rs).payload = s.payload := rfl
@[simp] theorem State.yieldRecords_csum (rs : List Record) (s : State) : (s.yieldRecords rs).csum = s.csum := rfl
@[simp] theorem State.yieldRecords_pbuf (rs : List Record) (s : State) : (s.yieldRecords rs).pbuf = s.pbuf := rfl
@[simp] theorem State.yieldRecords_traceRaw (rs : List Record) (s : State) : (s.yieldRecords rs).traceRaw = s.traceRaw := rfl
@[simp] theorem State.yieldRecords_traceRec (rs : List Record) (s : State) : (s.yieldRecords rs).traceRec = s.traceRec := rfl
@[simp] theorem State.yieldRecords_triggerId (rs : List Record) (s : State) : (s.yieldRecords rs).triggerId = s.triggerId := rfl
@[simp] theorem State.yieldRecords_logCapacity (rs : List Record) (s : State) : (s.yieldRecords rs).logCapacity = s.logCapacity := rfl
@[simp] theorem State.yieldRecords_pending (rs : List Record) (s : State) : (s.yieldRecords rs).pending = s.pending ++ rs := rfl
@[simp] theorem State.yieldRecords_hold (rs : List Record) (s : State) : (s.yieldRecords rs).hold = s.hold := rfl
@[simp] theorem State.yieldRecords_frameValid (rs : List Record) (s : State) : (s.yieldRecords rs).frameValid = s.frameValid := rfl
@[simp] theorem State.yieldRecords_frames (rs : List Record) (s : State) : (s.yieldRecords rs).frames = s.frames := rfl
@[simp] theorem State.yieldRecords_records (rs : List Record) (s : State) : (s.yieldRecords rs).records = s.records := rfl
@[simp] theorem State.yieldRecords_triggers (rs : List Record) (s : State) : (s.yieldRecords rs).triggers = s.triggers := rfl
@[simp] theorem State.yieldRecords_snapshots (rs : List Record) (s : State) : (s.yieldRecords rs).snapshots = s.snapshots := rfl
@[simp] theorem State.yieldRecords_inputs (rs : List Record) (s : State) : (s.yieldRecords rs).inputs = s.inputs := rfl
@[simp] theorem State.yieldRecords_draws (rs : List Record) (s : State) : (s.yieldRecords rs).draws = s.draws := rfl

/-! ### emitFrame -/

@[simp] theorem State.emitFrame_phase (f : Frame) (s : State) : (s.emitFrame f).phase = s.phase := rfl
@[simp] theorem State.emitFrame_scratch (f : Frame) (s : State) : (s.emitFrame f).scratch = s.scratch := rfl
@[simp] theorem State.emitFrame_cmd (f : Frame) (s : State) : (s.emitFrame f).cmd = s.cmd := rfl
@[simp] theorem State.emitFrame_len (f : Frame) (s : State) : (s.emitFrame f).len = s.len := rfl
@[simp] theorem State.emitFrame_payload (f : Frame) (s : State) : (s.emitFrame f).payload = s.payload := rfl
@[simp] theorem State.emitFrame_csum (f : Frame) (s : State) : (s.emitFrame f).csum = s.csum := rfl
@[simp] theorem State.emitFrame_pbuf (f : Frame) (s : State) : (s.emitFrame f).pbuf = s.pbuf := rfl
@[simp] theorem State.emitFrame_traceRaw (f : Frame) (s : State) : (s.emitFrame f).traceRaw = s.traceRaw := rfl
@[simp] theorem State.emitFrame_traceRec (f : Frame) (s : State) : (s.emitFrame f).traceRec = s.traceRec := rfl
@[simp] theorem State.emitFrame_triggerId (f : Frame) (s : State) : (s.emitFrame f).triggerId = s.triggerId := rfl
@[simp] theorem State.emitFrame_logCapacity (f : Frame) (s : State) : (s.emitFrame f).logCapacity = s.logCapacity := rfl
@[simp] theorem State.emitFrame_pending (f : Frame) (s : State) : (s.emitFrame f).pending = s.pending := rfl
@[simp] theorem State.emitFrame_hold (f : Frame) (s : State) : (s.emitFrame f).hold = some f := rfl
@[simp] theorem State.emitFrame_frameValid (f : Frame) (s : State) : (s.emitFrame f).frameValid = true := rfl
@[simp] theorem State.emitFrame_frames (f : Frame) (s : State) : (s.emitFrame f).frames = s.frames ++ [f] := rfl
@[simp] theorem State.emitFrame_records (f : Frame) (s : State) : (s.emitFrame f).records = s.records := rfl
@[simp] theorem State.emitFrame_triggers (f : Frame) (s : State) : (s.emitFrame f).triggers = s.triggers := rfl
@[simp] theorem State.emitFrame_snapshots (f : Frame) (s : State) : (s.emitFrame f).snapshots = s.snapshots := rfl
@[simp] theorem State.emitFrame_inputs (f : Frame) (s : State) : (s.emitFrame f).inputs = s.inputs := rfl
@[simp] theorem State.emitFrame_draws (f : Frame) (s : State) : (s.emitFrame f).draws = s.draws := rfl

/-! ### emitRecord -/

@[simp] theorem State.emitRecord_phase (r : Record) (s : State) : (s.emitRecord r).phase = s.phase := rfl
@[simp] theorem State.emitRecord_scratch (r : Record) (s : State) : (s.emitRecord r).scratch = s.scratch := rfl
@[simp] theorem State.emitRecord_cmd (r : Record) (s : State) : (s.emitRecord r).cmd = s.cmd := rfl
@[simp] theorem State.emitRecord_len (r : Record) (s : State) : (s.emitRecord r).len = s.len := rfl
@[simp] theorem State.emitRecord_payload (r : Record) (s : State) : (s.emitRecord r).payload = s.payload := rfl
@[simp] theorem State.emitRecord_csum (r : Record) (s : State) : (s.emitRecord r).csum = s.csum := rfl
@[simp] theorem State.emitRecord_pbuf (r : Record) (s : State) : (s.emitRecord r).pbuf = s.pbuf := rfl
@[simp] theorem State.emitRecord_traceRaw (r : Record) (s : State) : (s.emitRecord r).traceRaw = s.traceRaw := rfl
@[simp] theorem State.emitRecord_traceRec (r : Record) (s : State) : (s.emitRecord r).traceRec = s.traceRec := rfl
@[simp] theorem State.emitRecord_triggerId (r : Record) (s : State) : (s.emitRecord r).triggerId = s.triggerId := rfl
@[simp] theorem State.emitRecord_logCapacity (r : Record) (s : State) : (s.emitRecord r).logCapacity = s.logCapacity := rfl
@[simp] theorem State.emitRecord_pending (r : Record) (s : State) : (s.emitRecord r).pending = s.pending := rfl
@[simp] theorem State.emitRecord_hold (r : Record) (s : State) : (s.emitRecord r).hold = s.hold := rfl
@[simp] theorem State.emitRecord_frameValid (r : Record) (s : State) : (s.emitRecord r).frameValid = s.frameValid := rfl
@[simp] theorem State.emitRecord_frames (r : Record) (s : State) : (s.emitRecord r).frames = s.frames := rfl
@[simp] theorem State.emitRecord_records (r : Record) (s : State) : (s.emitRecord r).records = s.records ++ [r] := rfl
@[simp] theorem State.emitRecord_triggers (r : Record) (s : State) : (s.emitRecord r).triggers = s.triggers := rfl
@[simp] theorem State.emitRecord_snapshots (r : Record) (s : State) : (s.emitRecord r).snapshots = s.snapshots := rfl
@[simp] theorem State.emitRecord_inputs (r : Record) (s : State) : (s.emitRecord r).inputs = s.inputs := rfl
@[simp] theorem State.emitRecord_draws (r : Record) (s : State) : (s.emitRecord r).draws = s.draws := rfl

/-! ### emitTrigger -/

@[simp] theorem State.emitTrigger_phase (r : Record) (s : State) : (s.emitTrigger r).phase = s.phase := rfl
@[simp] theorem State.emitTrigger_scratch (r : Record) (s : State) : (s.emitTrigger r).scratch = s.scratch := rfl
@[simp] theorem State.emitTrigger_cmd (r : Record) (s : State) : (s.emitTrigger r).cmd = s.cmd := rfl
@[simp] theorem State.emitTrigger_len (r : Record) (s : State) : (s.emitTrigger r).len = s.len := rfl
@[simp] theorem State.emitTrigger_payload (r : Record) (s : State) : (s.emitTrigger r).payload = s.payload := rfl
@[simp] theorem State.emitTrigger_csum (r : Record) (s : State) : (s.emitTrigger r).csum = s.csum := rfl
@[simp] theorem State.emitTrigger_pbuf (r : Record) (s : State) : (s.emitTrigger r).pbuf = s.pbuf := rfl
@[simp] theorem State.emitTrigger_traceRaw (r : Record) (s : State) : (s.emitTrigger r).traceRaw = s.traceRaw := rfl
@[simp] theorem State.emitTrigger_traceRec (r : Record) (s : State) : (s.emitTrigger r).traceRec = s.traceRec := rfl
@[simp] theorem State.emitTrigger_triggerId (r : Record) (s : State) : (s.emitTrigger r).triggerId = s.triggerId := rfl
@[simp] theorem State.emitTrigger_logCapacity (r : Record) (s : State) : (s.emitTrigger r).logCapacity = s.logCapacity := rfl
@[simp] theorem State.emitTrigger_pending (r : Record) (s : State) : (s.emitTrigger r).pending = s.pending := rfl
@[simp] theorem State.emitTrigger_hold (r : Record) (s : State) : (s.emitTrigger r).hold = s.hold := rfl
@[simp] theorem State.emitTrigger_frameValid (r : Record) (s : State) : (s.emitTrigger r).frameValid = s.frameValid := rfl
@[simp] theorem State.emitTrigger_frames (r : Record) (s : State) : (s.emitTrigger r).frames = s.frames := rfl
@[simp] theorem State.emitTrigger_records (r : Record) (s : State) : (s.emitTrigger r).records = s.records := rfl
@[simp] theorem State.emitTrigger_triggers (r : Record) (s : State) : (s.emitTrigger r).triggers = s.triggers ++ [⟨r⟩] := rfl
@[simp] theorem State.emitTrigger_snapshots (r : Record) (s : State) : (s.emitTrigger r).snapshots = s.snapshots := rfl
@[simp] theorem State.emitTrigger_inputs (r : Record) (s : State) : (s.emitTrigger r).inputs = s.inputs := rfl
@[simp] theorem State.emitTrigger_draws (r : Record) (s : State) : (s.emitTrigger r).draws = s.draws := rfl

/-! ### emitSnapshot -/

@[simp] theorem State.emitSnapshot_phase (x : Snapshot) (s : State) : (s.emitSnapshot x).phase = s.phase := rfl
@[simp] theorem State.emitSnapshot_scratch (x : Snapshot) (s : State) : (s.emitSnapshot x).scratch = s.scratch := rfl
@[simp] theorem State.emitSnapshot_cmd (x : Snapshot) (s : State) : (s.emitSnapshot x).cmd = s.cmd := rfl
@[simp] theorem State.emitSnapshot_len (x : Snapshot) (s : State) : (s.emitSnapshot x).len = s.len := rfl
@[simp] theorem State.emitSnapshot_payload (x : Snapshot) (s : State) : (s.emitSnapshot x).payload = s.payload := rfl
@[simp] theorem State.emitSnapshot_csum (x : Snapshot) (s : State) : (s.emitSnapshot x).csum = s.csum := rfl
@[simp] theorem State.emitSnapshot_pbuf (x : Snapshot) (s : State) : (s.emitSnapshot x).pbuf = s.pbuf := rfl
@[simp] theorem State.emitSnapshot_traceRaw (x : Snapshot) (s : State) : (s.emitSnapshot x).traceRaw = s.traceRaw := rfl
@[simp] theorem State.emitSnapshot_traceRec (x : Snapshot) (s : State) : (s.emitSnapshot x).traceRec = s.traceRec := rfl
@[simp] theorem State.emitSnapshot_triggerId (x : Snapshot) (s : State) : (s.emitSnapshot x).triggerId = s.triggerId := rfl
@[simp] theorem State.emitSnapshot_logCapacity (x : Snapshot) (s : State) : (s.emitSnapshot x).logCapacity = s.logCapacity := rfl
@[simp] theorem State.emitSnapshot_pending (x : Snapshot) (s : State) : (s.emitSnapshot x).pending = s.pending := rfl
@[simp] theorem State.emitSnapshot_hold (x : Snapshot) (s : State) : (s.emitSnapshot x).hold = s.hold := rfl
@[simp] theorem State.emitSnapshot_frameValid (x : Snapshot) (s : State) : (s.emitSnapshot x).frameValid = s.frameValid := rfl
@[simp] theorem State.emitSnapshot_frames (x : Snapshot) (s : State) : (s.emitSnapshot x).frames = s.frames := rfl
@[simp] theorem State.emitSnapshot_records (x : Snapshot) (s : State) : (s.emitSnapshot x).records = s.records := rfl
@[simp] theorem State.emitSnapshot_triggers (x : Snapshot) (s : State) : (s.emitSnapshot x).triggers = s.triggers := rfl
@[simp] theorem State.emitSnapshot_snapshots (x : Snapshot) (s : State) : (s.emitSnapshot x).snapshots = s.snapshots ++ [x] := rfl
@[simp] theorem State.emitSnapshot_inputs (x : Snapshot) (s : State) : (s.emitSnapshot x).inputs = s.inputs := rfl
@[simp] theorem State.emitSnapshot_draws (x : Snapshot) (s : State) : (s.emitSnapshot x).draws = s.draws := rfl

/-! ### endPulse -/

@[simp] theorem State.endPulse_phase (s : State) : s.endPulse.phase = s.phase := rfl
@[simp] theorem State.endPulse_scratch (s : State) : s.endPulse.scratch = s.scratch := rfl
@[simp] theorem State.endPulse_cmd (s : State) : s.endPulse.cmd = s.cmd := rfl
@[simp] theorem State.endPulse_len (s : State) : s.endPulse.len = s.len := rfl
@[simp] theorem State.endPulse_payload (s : State) : s.endPulse.payload = s.payload := rfl
@[simp] theorem State.endPulse_csum (s : State) : s.endPulse.csum = s.csum := rfl
@[simp] theorem State.endPulse_pbuf (s : State) : s.endPulse.pbuf = s.pbuf := rfl
@[simp] theorem State.endPulse_traceRaw (s : State) : s.endPulse.traceRaw = s.traceRaw := rfl
@[simp] theorem State.endPulse_traceRec (s : State) : s.endPulse.traceRec = s.traceRec := rfl
@[simp] theorem State.endPulse_triggerId (s : State) : s.endPulse.triggerId = s.triggerId := rfl
@[simp] theorem State.endPulse_logCapacity (s : State) : s.endPulse.logCapacity = s.logCapacity := rfl
@[simp] theorem State.endPulse_pending (s : State) : s.endPulse.pending = s.pending := rfl
@[simp] theorem State.endPulse_hold (s : State) : s.endPulse.hold = s.hold := rfl
@[simp] theorem State.endPulse_frameValid (s : State) : s.endPulse.frameValid = false := rfl
@[simp] theorem State.endPulse_frames (s : State) : s.endPulse.frames = s.frames := rfl
@[simp] theorem State.endPulse_records (s : State) : s.endPulse.records = s.records := rfl
@[simp] theorem State.endPulse_triggers (s : State) : s.endPulse.triggers = s.triggers := rfl
@[simp] theorem State.endPulse_snapshots (s : State) : s.endPulse.snapshots = s.snapshots := rfl
@[simp] theorem State.endPulse_inputs (s : State) : s.endPulse.inputs = s.inputs := rfl
@[simp] theorem State.endPulse_draws (s : State) : s.endPulse.draws = s.draws := rfl

/-! ### closeWindow -/

@[simp] theorem State.closeWindow_phase (s : State) : s.closeWindow.phase = s.phase := rfl
@[simp] theorem State.closeWindow_scratch (s : State) : s.closeWindow.scratch = s.scratch := rfl
@[simp] theorem State.closeWindow_cmd (s : State) : s.closeWindow.cmd = s.cmd := rfl
@[simp] theorem State.closeWindow_len (s : State) : s.closeWindow.len = s.len := rfl
@[simp] theorem State.closeWindow_payload (s : State) : s.closeWindow.payload = s.payload := rfl
@[simp] theorem State.closeWindow_csum (s : State) : s.closeWindow.csum = s.csum := rfl
@[simp] theorem State.closeWindow_pbuf (s : State) : s.closeWindow.pbuf = if s.hold.isSome then [] else s.pbuf := rfl
@[simp] theorem State.closeWindow_traceRaw (s : State) : s.closeWindow.traceRaw = s.traceRaw := rfl
@[simp] theorem State.closeWindow_traceRec (s : State) : s.closeWindow.traceRec = s.traceRec := rfl
@[simp] theorem State.closeWindow_triggerId (s : State) : s.closeWindow.triggerId = s.triggerId := rfl
@[simp] theorem State.closeWindow_logCapacity (s : State) : s.closeWindow.logCapacity = s.logCapacity := rfl
@[simp] theorem State.closeWindow_pending (s : State) : s.closeWindow.pending = s.pending := rfl
@[simp] theorem State.closeWindow_hold (s : State) : s.closeWindow.hold = none := rfl
@[simp] theorem State.closeWindow_frameValid (s : State) : s.closeWindow.frameValid = false := rfl
@[simp] theorem State.closeWindow_frames (s : State) : s.closeWindow.frames = s.frames := rfl
@[simp] theorem State.closeWindow_records (s : State) : s.closeWindow.records = s.records := rfl
@[simp] theorem State.closeWindow_triggers (s : State) : s.closeWindow.triggers = s.triggers := rfl
@[simp] theorem State.closeWindow_snapshots (s : State) : s.closeWindow.snapshots = s.snapshots := rfl
@[simp] theorem State.closeWindow_inputs (s : State) : s.closeWindow.inputs = s.inputs := rfl
@[simp] theorem State.closeWindow_draws (s : State) : s.closeWindow.draws = s.draws := rfl

/-! ### setInputs -/

@[simp] theorem State.setInputs_phase (is : List Input) (s : State) : (s.setInputs is).phase = s.phase := rfl
@[simp] theorem State.setInputs_scratch (is : List Input) (s : State) : (s.setInputs is).scratch = s.scratch := rfl
@[simp] theorem State.setInputs_cmd (is : List Input) (s : State) : (s.setInputs is).cmd = s.cmd := rfl
@[simp] theorem State.setInputs_len (is : List Input) (s : State) : (s.setInputs is).len = s.len := rfl
@[simp] theorem State.setInputs_payload (is : List Input) (s : State) : (s.setInputs is).payload = s.payload := rfl
@[simp] theorem State.setInputs_csum (is : List Input) (s : State) : (s.setInputs is).csum = s.csum := rfl
@[simp] theorem State.setInputs_pbuf (is : List Input) (s : State) : (s.setInputs is).pbuf = s.pbuf := rfl
@[simp] theorem State.setInputs_traceRaw (is : List Input) (s : State) : (s.setInputs is).traceRaw = s.traceRaw := rfl
@[simp] theorem State.setInputs_traceRec (is : List Input) (s : State) : (s.setInputs is).traceRec = s.traceRec := rfl
@[simp] theorem State.setInputs_triggerId (is : List Input) (s : State) : (s.setInputs is).triggerId = s.triggerId := rfl
@[simp] theorem State.setInputs_logCapacity (is : List Input) (s : State) : (s.setInputs is).logCapacity = s.logCapacity := rfl
@[simp] theorem State.setInputs_pending (is : List Input) (s : State) : (s.setInputs is).pending = s.pending := rfl
@[simp] theorem State.setInputs_hold (is : List Input) (s : State) : (s.setInputs is).hold = s.hold := rfl
@[simp] theorem State.setInputs_frameValid (is : List Input) (s : State) : (s.setInputs is).frameValid = s.frameValid := rfl
@[simp] theorem State.setInputs_frames (is : List Input) (s : State) : (s.setInputs is).frames = s.frames := rfl
@[simp] theorem State.setInputs_records (is : List Input) (s : State) : (s.setInputs is).records = s.records := rfl
@[simp] theorem State.setInputs_triggers (is : List Input) (s : State) : (s.setInputs is).triggers = s.triggers := rfl
@[simp] theorem State.setInputs_snapshots (is : List Input) (s : State) : (s.setInputs is).snapshots = s.snapshots := rfl
@[simp] theorem State.setInputs_inputs (is : List Input) (s : State) : (s.setInputs is).inputs = is := rfl
@[simp] theorem State.setInputs_draws (is : List Input) (s : State) : (s.setInputs is).draws = s.draws := rfl

/-! ### drawn -/

@[simp] theorem State.drawn_phase (s : State) : s.drawn.phase = s.phase := rfl
@[simp] theorem State.drawn_scratch (s : State) : s.drawn.scratch = s.scratch := rfl
@[simp] theorem State.drawn_cmd (s : State) : s.drawn.cmd = s.cmd := rfl
@[simp] theorem State.drawn_len (s : State) : s.drawn.len = s.len := rfl
@[simp] theorem State.drawn_payload (s : State) : s.drawn.payload = s.payload := rfl
@[simp] theorem State.drawn_csum (s : State) : s.drawn.csum = s.csum := rfl
@[simp] theorem State.drawn_pbuf (s : State) : s.drawn.pbuf = s.pbuf := rfl
@[simp] theorem State.drawn_traceRaw (s : State) : s.drawn.traceRaw = s.traceRaw := rfl
@[simp] theorem State.drawn_traceRec (s : State) : s.drawn.traceRec = s.traceRec := rfl
@[simp] theorem State.drawn_triggerId (s : State) : s.drawn.triggerId = s.triggerId := rfl
@[simp] theorem State.drawn_logCapacity (s : State) : s.drawn.logCapacity = s.logCapacity := rfl
@[simp] theorem State.drawn_pending (s : State) : s.drawn.pending = s.pending := rfl
@[simp] theorem State.drawn_hold (s : State) : s.drawn.hold = s.hold := rfl
@[simp] theorem State.drawn_frameValid (s : State) : s.drawn.frameValid = s.frameValid := rfl
@[simp] theorem State.drawn_frames (s : State) : s.drawn.frames = s.frames := rfl
@[simp] theorem State.drawn_records (s : State) : s.drawn.records = s.records := rfl
@[simp] theorem State.drawn_triggers (s : State) : s.drawn.triggers = s.triggers := rfl
@[simp] theorem State.drawn_snapshots (s : State) : s.drawn.snapshots = s.snapshots := rfl
@[simp] theorem State.drawn_inputs (s : State) : s.drawn.inputs = s.inputs := rfl
@[simp] theorem State.drawn_draws (s : State) : s.drawn.draws = s.draws + 1 := rfl

/-! ### softReset -/

@[simp] theorem State.softReset_phase (s : State) : s.softReset.phase = .waitStart := rfl
@[simp] theorem State.softReset_scratch (s : State) : s.softReset.scratch = [] := rfl
@[simp] theorem State.softReset_cmd (s : State) : s.softReset.cmd = if Config.resetClearsCmd s.draws then 0 else s.cmd := rfl
@[simp] theorem State.softReset_len (s : State) : s.softReset.len = if Config.resetClearsLen s.draws then 0 else s.len := rfl
@[simp] theorem State.softReset_payload (s : State) : s.softReset.payload = [] := rfl
@[simp] theorem State.softReset_csum (s : State) : s.softReset.csum = if Config.resetClearsCsum s.draws then 0 else s.csum := rfl
@[simp] theorem State.softReset_pbuf (s : State) : s.softReset.pbuf = if s.hold.isSome then s.pbuf else [] := rfl
@[simp] theorem State.softReset_traceRaw (s : State) : s.softReset.traceRaw = s.traceRaw := rfl
@[simp] theorem State.softReset_traceRec (s : State) : s.softReset.traceRec = s.traceRec := rfl
@[simp] theorem State.softReset_triggerId (s : State) : s.softReset.triggerId = s.triggerId := rfl
@[simp] theorem State.softReset_logCapacity (s : State) : s.softReset.logCapacity = s.logCapacity := rfl
@[simp] theorem State.softReset_pending (s : State) : s.softReset.pending = s.pending := rfl
@[simp] theorem State.softReset_hold (s : State) : s.softReset.hold = s.hold := rfl
@[simp] theorem State.softReset_frameValid (s : State) : s.softReset.frameValid = s.frameValid := rfl
@[simp] theorem State.softReset_frames (s : State) : s.softReset.frames = s.frames := rfl
@[simp] theorem State.softReset_records (s : State) : s.softReset.records = s.records := rfl
@[simp] theorem State.softReset_triggers (s : State) : s.softReset.triggers = s.triggers := rfl
@[simp] theorem State.softReset_snapshots (s : State) : s.softReset.snapshots = s.snapshots := rfl
@[simp] theorem State.softReset_inputs (s : State) : s.softReset.inputs = s.inputs := rfl
@[simp] theorem State.softReset_draws (s : State) : s.softReset.draws = s.draws + 1 := rfl

/-! ### hardReset -/

@[simp] theorem State.hardReset_phase (s : State) : s.hardReset.phase = .waitStart := rfl
@[simp] theorem State.hardReset_scratch (s : State) : s.hardReset.scratch = [] := rfl
@[simp] theorem State.hardReset_cmd (s : State) : s.hardReset.cmd = Config.rstCmd s.draws := rfl
@[simp] theorem State.hardReset_len (s : State) : s.hardReset.len = Config.rstLen s.draws := rfl
@[simp] theorem State.hardReset_payload (s : State) : s.hardReset.payload = [] := rfl
@[simp] theorem State.hardReset_csum (s : State) : s.hardReset.csum = Config.rstCsum s.draws := rfl
@[simp] theorem State.hardReset_pbuf (s : State) : s.hardReset.pbuf = [] := rfl
@[simp] theorem State.hardReset_traceRaw (s : State) : s.hardReset.traceRaw = [] := rfl
@[simp] theorem State.hardReset_traceRec (s : State) : s.hardReset.traceRec = [] := rfl
@[simp] theorem State.hardReset_triggerId (s : State) : s.hardReset.triggerId = s.triggerId := rfl
@[simp] theorem State.hardReset_logCapacity (s : State) : s.hardReset.logCapacity = s.logCapacity := rfl
@[simp] theorem State.hardReset_pending (s : State) : s.hardReset.pending = [] := rfl
@[simp] theorem State.hardReset_hold (s : State) : s.hardReset.hold = none := rfl
@[simp] theorem State.hardReset_frameValid (s : State) : s.hardReset.frameValid = false := rfl
@[simp] theorem State.hardReset_frames (s : State) : s.hardReset.frames = s.frames := rfl
@[simp] theorem State.hardReset_records (s : State) : s.hardReset.records = s.records := rfl
@[simp] theorem State.hardReset_triggers (s : State) : s.hardReset.triggers = s.triggers := rfl
@[simp] theorem State.hardReset_snapshots (s : State) : s.hardReset.snapshots = s.snapshots := rfl
@[simp] theorem State.hardReset_inputs (s : State) : s.hardReset.inputs = s.inputs := rfl
@[simp] theorem State.hardReset_draws (s : State) : s.hardReset.draws = s.draws + 1 := rfl

end Sys2Proof.Machine
end

