-- ==== Sys2Proof/Laws/Memory.lean ====
section
/-! SUPPORT. PBUF: a read after a write, the canonical form, and the memory of a byte sequence. -/

namespace Sys2Proof.Machine

@[simp] theorem Memory.read_nil (a : Nat) : Memory.read [] a = none := rfl

theorem Memory.read_cons (c : Host.Cell) (m : Memory) (a : Nat) :
    Memory.read (c :: m) a = if c.1 = a then some c.2 else Memory.read m a := by
  by_cases h : c.1 = a <;> simp [Memory.read, h]

/-- Every index of a written memory was there before, or is the one written. -/
theorem Memory.mem_write {m : Memory} {a : Nat} {b : Byte} {c : Host.Cell} (h : c ∈ m.write a b) :
    c = (a, b) ∨ c ∈ m := by
  induction m with
  | nil => simpa [Memory.write] using h
  | cons d m ih =>
    simp only [Memory.write] at h
    split at h
    · simpa using h
    · split at h
      · rcases List.mem_cons.1 h with h | h
        · exact .inl h
        · exact .inr (List.mem_cons_of_mem _ h)
      · rcases List.mem_cons.1 h with h | h
        · exact .inr (by simp [h])
        · exact (ih h).imp id (List.mem_cons_of_mem _)

/-- A write keeps the indices strictly rising. -/
theorem Memory.sorted_write {m : Memory} (a : Nat) (b : Byte) (h : m.Pairwise fun c d => c.1 < d.1) :
    (m.write a b).Pairwise fun c d => c.1 < d.1 := by
  induction m with
  | nil => simp [Memory.write]
  | cons d m ih =>
    have hd := List.pairwise_cons.1 h
    simp only [Memory.write]
    split
    · rename_i hlt
      exact List.pairwise_cons.2 ⟨fun c hc => by
        rcases List.mem_cons.1 hc with rfl | hc
        · exact hlt
        · exact lt_trans hlt (hd.1 c hc), h⟩
    · split
      · rename_i heq
        exact List.pairwise_cons.2 ⟨fun c hc => by have := hd.1 c hc; simp only [heq]; exact this, hd.2⟩
      · rename_i hlt hne
        refine List.pairwise_cons.2 ⟨fun c hc => ?_, ih hd.2⟩
        rcases Memory.mem_write hc with rfl | hc
        · exact lt_of_le_of_ne (not_lt.1 hlt) fun h => hne h.symm
        · exact hd.1 c hc

/-- A write inside PBUF keeps the canonical form. -/
theorem Memory.wf_write {m : Memory} {a : Nat} (b : Byte) (h : m.wf) (ha : a < Config.payloadCapacity) :
    (m.write a b).wf :=
  ⟨Memory.sorted_write a b h.1, fun c hc => (Memory.mem_write hc).elim (fun e => e ▸ ha) (h.2 c)⟩

/-- The memory after reset has the canonical form. -/
theorem Memory.wf_reset : State.reset.pbuf.wf := by simp [State.reset, Memory.wf]

theorem Memory.read_write_same (m : Memory) (a : Nat) (b : Byte) : (m.write a b).read a = some b := by
  induction m with
  | nil => simp [Memory.write, Memory.read_cons]
  | cons d m ih =>
    simp only [Memory.write]
    split
    · simp [Memory.read_cons]
    · split
      · simp [Memory.read_cons]
      · rename_i hlt hne
        rw [Memory.read_cons, if_neg (fun h => hne h.symm), ih]

theorem Memory.read_write_other (m : Memory) {a a' : Nat} (b : Byte) (h : a' ≠ a) :
    (m.write a b).read a' = m.read a' := by
  induction m with
  | nil => simp [Memory.write, Memory.read_cons, h.symm]
  | cons d m ih =>
    simp only [Memory.write]
    split
    · rw [Memory.read_cons, if_neg h.symm]
    · split
      · rename_i _ heq
        simp only [Memory.read_cons, if_neg h.symm, if_neg (fun e : d.1 = a' => h (e ▸ heq.symm))]
      · simp only [Memory.read_cons, ih]

/-! ### The memory of a byte sequence -/

@[simp] theorem Memory.ofBytes_nil : Memory.ofBytes [] = [] := rfl

theorem Memory.ofBytes_append (bs : List Byte) (b : Byte) :
    Memory.ofBytes (bs ++ [b]) = Memory.ofBytes bs ++ [(bs.length, b)] := by
  simp [Memory.ofBytes, List.zipIdx_append]

theorem Memory.mem_ofBytes {bs : List Byte} {c : Host.Cell} (h : c ∈ Memory.ofBytes bs) : c.1 < bs.length := by
  simp only [Memory.ofBytes, List.mem_map] at h
  obtain ⟨p, hp, rfl⟩ := h
  have := List.snd_lt_of_mem_zipIdx hp
  simpa using this

/-- A write beyond every listed index goes to the end. -/
theorem Memory.write_end {m : Memory} {a : Nat} (b : Byte) (h : ∀ c ∈ m, c.1 < a) : m.write a b = m ++ [(a, b)] := by
  induction m with
  | nil => rfl
  | cons d m ih =>
    have hd := h d (by simp)
    rw [Memory.write, if_neg (by omega), if_neg (by omega), ih fun c hc => h c (by simp [hc])]
    rfl

/-- Appending a byte to the sequence is writing it at the sequence's length (R41). -/
theorem Memory.write_ofBytes (bs : List Byte) (b : Byte) :
    (Memory.ofBytes bs).write bs.length b = Memory.ofBytes (bs ++ [b]) := by
  rw [Memory.write_end b fun c hc => Memory.mem_ofBytes hc, Memory.ofBytes_append]

/-- Byte `i` of the sequence is at index `i` (R40). -/
theorem Memory.read_ofBytes (bs : List Byte) (i : Nat) : (Memory.ofBytes bs).read i = bs[i]? := by
  induction bs using List.reverseRecOn with
  | nil => simp
  | append_singleton bs b ih =>
    rw [← Memory.write_ofBytes]
    by_cases h : i = bs.length
    · subst h
      simp [Memory.read_write_same]
    · rw [Memory.read_write_other _ _ h, ih]
      rcases Nat.lt_or_gt_of_ne h with h | h
      · rw [List.getElem?_append_left h]
      · rw [List.getElem?_eq_none (by omega), List.getElem?_eq_none (by simp; omega)]

/-- The memory of a payload has the canonical form. -/
theorem Memory.wf_ofBytes {bs : List Byte} (h : bs.length ≤ Config.payloadCapacity) : (Memory.ofBytes bs).wf := by
  refine ⟨?_, fun c hc => lt_of_lt_of_le (Memory.mem_ofBytes hc) h⟩
  clear h
  induction bs using List.reverseRecOn with
  | nil => simp
  | append_singleton bs b ih =>
    rw [Memory.ofBytes_append]
    exact List.pairwise_append.2 ⟨ih, by simp, fun c hc d hd => by
      rw [List.mem_singleton.1 hd]
      exact Memory.mem_ofBytes hc⟩

end Sys2Proof.Machine
end

