-- ==== Sys2Proof/Laws/Ops.lean ====
section
/-! SUPPORT. Sequencing, `memWrite` and `pushBounded`: everything each of them can do. -/

namespace Sys2Proof.Machine

@[simp] theorem andThen_next (s : State) (k : State → Result) : andThen (.next s) k = k s := rfl

@[simp] theorem andThen_fault (r : Fault) (k : State → Result) : andThen (.fault r) k = .fault r := rfl

@[simp] theorem andThen_refused (r : Refusal) (k : State → Result) : andThen (.refused r) k = .refused r := rfl

/-- Two operations answer a next state when the first does and the second does from there. -/
theorem andThen_eq_next {o : Result} {k : State → Result} {t : State} :
    andThen o k = .next t ↔ ∃ s, o = .next s ∧ k s = .next t := by
  cases o <;> simp

/-- A guarded meaning answers a next state exactly when its guard holds. -/
theorem guard_eq_next {p : Prop} [Decidable p] {u t : State} {m : Refusal} :
    ((if p then .next u else .refused m : Result) = .next t) ↔ p ∧ t = u := by
  split <;> simp [*, eq_comm (a := t)]

/-- A meaning with a refusing guard answers a next state exactly when the guard does not hold. -/
theorem stop_eq_next {p : Prop} [Decidable p] {u t : State} {m : Refusal} :
    ((if p then .refused m else .next u : Result) = .next t) ↔ ¬ p ∧ t = u := by
  split <;> simp [*, eq_comm (a := t)]

/-- `memWrite` answers a next state exactly for an index inside PBUF (R40). -/
theorem memWrite_eq_next {i : Nat} {b : Byte} {s t : State} :
    memWrite i b s = .next t ↔ i < Config.payloadCapacity ∧ t = s.setPbuf (s.pbuf.write i b) := by
  simp only [memWrite]
  split <;> simp_all [eq_comm]

theorem memWrite_of_lt {i : Nat} (b : Byte) (s : State) (h : i < Config.payloadCapacity) :
    memWrite i b s = .next (s.setPbuf (s.pbuf.write i b)) := if_pos h

/-- A channel within its capacity stays within it (R150, R153). -/
theorem pushBounded_length_le {α : Type} {capacity : Nat} {channel : List α} (entry : α) (h : channel.length ≤ capacity) :
    (pushBounded capacity channel entry).length ≤ capacity := by
  simp only [pushBounded]
  split
  · simpa using h
  · omega

/-- A push keeps the last `capacity` entries (R153). -/
theorem pushBounded_eq_drop {α : Type} {capacity : Nat} {channel : List α} (entry : α) (h : channel.length ≤ capacity) :
    pushBounded capacity channel entry = (channel ++ [entry]).drop ((channel ++ [entry]).length - capacity) := by
  simp only [pushBounded]
  split
  · rename_i hlt
    have : (channel ++ [entry]).length - capacity = 1 := by simp at hlt ⊢; omega
    rw [this]
  · rename_i hle
    rw [Nat.sub_eq_zero_of_le (Nat.not_lt.1 hle), List.drop_zero]

/-- Pushing entries one after another keeps the last `capacity` of all of them (R153). -/
theorem foldl_pushBounded {α : Type} {capacity : Nat} (channel entries : List α) (h : channel.length ≤ capacity) :
    entries.foldl (pushBounded capacity) channel =
      (channel ++ entries).drop ((channel ++ entries).length - capacity) := by
  induction entries generalizing channel with
  | nil => simp [Nat.sub_eq_zero_of_le h]
  | cons e es ih =>
    rw [List.foldl_cons, ih _ (pushBounded_length_le e h), pushBounded_eq_drop e h]
    have hd : ∀ n, n ≤ (channel ++ [e]).length → ((channel ++ [e]).drop n ++ es) = (channel ++ e :: es).drop n := fun n hn => by
      rw [← List.drop_append_of_le_length hn]; simp
    rw [hd _ (Nat.sub_le _ _), List.drop_drop]
    congr 1
    simp only [List.length_drop, List.length_append, List.length_cons, List.length_nil]
    omega

theorem map_pushBounded {α β : Type} (g : α → β) (capacity : Nat) (channel : List α) (entry : α) :
    (pushBounded capacity channel entry).map g = pushBounded capacity (channel.map g) (g entry) := by
  simp only [pushBounded, List.length_append, List.length_map, List.length_singleton]
  split <;> simp

end Sys2Proof.Machine
end

