-- ==== Sys2Proof/Laws/Exec.lean ====
section
/-! SUPPORT. One lemma per meaning: exactly when it answers a next state, and which. -/

namespace Sys2Proof.Machine

theorem execFeedWsStart_eq_next {s t : State} : execFeedWsStart s = .next t ↔
    s.phase = .waitStart ∧ t = ((s.setScratch []).setPayload []).setPhase .header :=
  guard_eq_next

theorem execFeedWsSkip_eq_next {b : Byte} {s t : State} : execFeedWsSkip b s = .next t ↔
    (s.phase = .waitStart ∧ b ≠ Config.startMarker) ∧ t = s :=
  guard_eq_next

theorem execFeedHdrAcc_eq_next {b : Byte} {s t : State} : execFeedHdrAcc b s = .next t ↔
    (s.phase = .header ∧ s.scratch.length < 2) ∧ t = s.setScratch (s.scratch ++ [b]) :=
  guard_eq_next

theorem execFeedHdrDone_eq_next {b : Byte} {s t : State} : execFeedHdrDone b s = .next t ↔
    ∃ c lo, s.phase = .header ∧ s.scratch = [c, lo] ∧ t = headerDone c (le16 lo b) s := by
  unfold execFeedHdrDone
  split
  · simp_all [eq_comm]
  · rename_i hne
    simp only [reduceCtorEq, false_iff, not_exists, not_and]
    intro c lo hp hs
    exact absurd hs (hne c lo hp)

theorem execFeedPlAcc_eq_next {b : Byte} {s t : State} : execFeedPlAcc b s = .next t ↔
    (s.phase = .payload ∧ s.scratch.length + 1 < s.len.toNat) ∧
      t = (s.setPbuf (s.pbuf.write s.scratch.length b)).setScratch (s.scratch ++ [b]) := by
  have hl := s.len.isLt
  simp only [execFeedPlAcc]
  split
  · rename_i h
    rw [memWrite_of_lt b s (by simp only [Config.payloadCapacity]; omega)]
    simp [h, eq_comm]
  · simp_all

theorem execFeedPlDone_eq_next {b : Byte} {s t : State} : execFeedPlDone b s = .next t ↔
    (s.phase = .payload ∧ s.scratch.length + 1 = s.len.toNat) ∧
      t = (((s.setPbuf (s.pbuf.write s.scratch.length b)).setPayload (s.scratch ++ [b])).setScratch []).setPhase .checksum := by
  have hl := s.len.isLt
  simp only [execFeedPlDone]
  split
  · rename_i h
    rw [memWrite_of_lt b s (by simp only [Config.payloadCapacity]; omega)]
    simp [h, eq_comm]
  · simp_all

theorem execFeedCkAcc_eq_next {b : Byte} {s t : State} : execFeedCkAcc b s = .next t ↔
    (s.phase = .checksum ∧ s.scratch.length < 3) ∧ t = s.setScratch (s.scratch ++ [b]) :=
  guard_eq_next

theorem execFeedCkDone_eq_next {b : Byte} {s t : State} : execFeedCkDone b s = .next t ↔
    ∃ c0 c1 c2, s.phase = .checksum ∧ s.scratch = [c0, c1, c2] ∧
      t = ((s.setCsum (le32 c0 c1 c2 b)).setScratch []).setPhase .atEnd := by
  unfold execFeedCkDone
  split
  · simp_all [eq_comm]
  · rename_i hne
    simp only [reduceCtorEq, false_iff, not_exists, not_and]
    intro c0 c1 c2 hp hs
    exact absurd hs (hne c0 c1 c2 hp)

theorem execFeedEndEmit_eq_next {s t : State} : execFeedEndEmit s = .next t ↔
    s.phase = .atEnd ∧ t = ((s.setPayload []).setPhase .waitStart).emitFrame s.heldFrame :=
  guard_eq_next

theorem execFeedEndStall_eq_next {b : Byte} {s t : State} : execFeedEndStall b s = .next t ↔
    (s.phase = .atEnd ∧ b ≠ Config.endMarker) ∧ t = s :=
  guard_eq_next

theorem execReset_eq_next {s t : State} : execReset s = .next t ↔ t = s.softReset := by
  rw [execReset, Host.Outcome.next.injEq, eq_comm]

theorem execRst_eq_next {s t : State} : execRst s = .next t ↔ t = s.hardReset := by
  rw [execRst, Host.Outcome.next.injEq, eq_comm]

theorem execInterpClassification_eq_next {f : Frame} {s t : State} : execInterpClassification f s = .next t ↔
    f.command = Config.cmdClassification ∧ t = s.yieldRecords (classify f.payload) :=
  guard_eq_next

theorem execInterpDetection_eq_next {f : Frame} {s t : State} : execInterpDetection f s = .next t ↔
    f.command = Config.cmdDetection ∧ t = s.yieldRecords (detect f.payload) :=
  guard_eq_next

theorem execInterpReserved0_eq_next {f : Frame} {s t : State} : execInterpReserved0 f s = .next t ↔
    f.command = Config.cmdReserved0 ∧ t = s :=
  guard_eq_next

theorem execInterpUnknown_eq_next {f : Frame} {s t : State} : execInterpUnknown f s = .next t ↔
    (f.command ≠ Config.cmdReserved0 ∧ f.command ≠ Config.cmdClassification ∧ f.command ≠ Config.cmdDetection) ∧ t = s :=
  guard_eq_next

theorem execRouteTrigger_eq_next {r : Record} {s t : State} : execRouteTrigger r s = .next t ↔
    r.id = s.triggerId ∧ t = s.emitTrigger r :=
  guard_eq_next

theorem execRouteNone_eq_next {r : Record} {s t : State} : execRouteNone r s = .next t ↔ r.id ≠ s.triggerId ∧ t = s :=
  guard_eq_next

theorem execLogPushRaw_eq_next {x : Timestamp} {b : Byte} {s t : State} : execLogPushRaw x b s = .next t ↔
    s.logCapacity ≠ 0 ∧ t = s.setTraceRaw (pushBounded s.logCapacity s.traceRaw ⟨x, b⟩) :=
  stop_eq_next

theorem execLogPushRecord_eq_next {x : Timestamp} {r : Record} {s t : State} : execLogPushRecord x r s = .next t ↔
    s.logCapacity ≠ 0 ∧ t = s.setTraceRec (pushBounded s.logCapacity s.traceRec ⟨x, r⟩) :=
  stop_eq_next

theorem execLogSnapshot_eq_next {ch : Channel} {s t : State} : execLogSnapshot ch s = .next t ↔
    t = s.emitSnapshot (s.snapshot ch) := by
  rw [execLogSnapshot, Host.Outcome.next.injEq, eq_comm]

end Sys2Proof.Machine
end

