-- ==== Sys2Proof/Laws/Interpreter.lean ====
section
/-! SUPPORT. How many records a payload gives and which bytes each of them holds. -/

namespace Sys2Proof.Machine

theorem classifyPairs_length (st : Byte) (l : List Byte) : (classifyPairs st l).length = l.length / 2 := by
  induction l using classifyPairs.induct with
  | case1 i c rest ih => simp [classifyPairs, ih]; omega
  | case2 l h =>
    match l, h with
    | [], _ => simp [classifyPairs]
    | [_], _ => simp [classifyPairs]
    | a :: b :: rest, h => exact absurd rfl (h a b rest)

theorem classifyPairs_getElem? (st : Byte) (l : List Byte) (k : Nat) :
    (classifyPairs st l)[k]? =
      (l[2 * k]?).bind fun i => (l[2 * k + 1]?).map fun c => .classification st i c := by
  induction l using classifyPairs.induct generalizing k with
  | case1 i c rest ih =>
    cases k with
    | zero => simp [classifyPairs]
    | succ k => simp [classifyPairs, ih, show 2 * (k + 1) = 2 * k + 1 + 1 by omega]
  | case2 l h =>
    match l, h with
    | [], _ => simp [classifyPairs]
    | [a], _ => simp [classifyPairs]
    | a :: b :: rest, h => exact absurd rfl (h a b rest)

theorem detectTuples_length (st : Byte) (l : List Byte) : (detectTuples st l).length = l.length / 6 := by
  induction l using detectTuples.induct with
  | case1 i x y w h c rest ih => simp [detectTuples, ih]; omega
  | case2 l h =>
    match l, h with
    | [], _ => simp [detectTuples]
    | [_], _ => simp [detectTuples]
    | [_, _], _ => simp [detectTuples]
    | [_, _, _], _ => simp [detectTuples]
    | [_, _, _, _], _ => simp [detectTuples]
    | [_, _, _, _, _], _ => simp [detectTuples]
    | a :: b :: c :: d :: e :: g :: rest, h => exact absurd rfl (h a b c d e g rest)

theorem detectTuples_getElem? (st : Byte) (l : List Byte) (k : Nat) (hk : k < l.length / 6) :
    ∃ i x y w h c, l[6 * k]? = some i ∧ l[6 * k + 1]? = some x ∧ l[6 * k + 2]? = some y ∧ l[6 * k + 3]? = some w ∧
      l[6 * k + 4]? = some h ∧ l[6 * k + 5]? = some c ∧ (detectTuples st l)[k]? = some (.detection st i x y w h c) := by
  induction l using detectTuples.induct generalizing k with
  | case1 i x y w h c rest ih =>
    cases k with
    | zero => exact ⟨i, x, y, w, h, c, by simp [detectTuples]⟩
    | succ k =>
      obtain ⟨i', x', y', w', h', c', hall⟩ := ih k (by simp at hk; omega)
      exact ⟨i', x', y', w', h', c', by simpa [detectTuples, show 6 * (k + 1) = 6 * k + 1 + 1 + 1 + 1 + 1 + 1 by omega] using hall⟩
  | case2 l h =>
    match l, h with
    | [], _ => simp at hk
    | [_], _ => simp at hk
    | [_, _], _ => simp at hk
    | [_, _, _], _ => simp at hk
    | [_, _, _, _], _ => simp at hk
    | [_, _, _, _, _], _ => simp at hk
    | a :: b :: c :: d :: e :: g :: rest, h => exact absurd rfl (h a b c d e g rest)

theorem classify_length (p : List Byte) : (classify p).length = (p.length - 1) / 2 := by
  cases p with
  | nil => rfl
  | cons st rest => simp [classify, classifyPairs_length]

theorem detect_length (p : List Byte) : (detect p).length = (p.length - 1) / 6 := by
  cases p with
  | nil => rfl
  | cons st rest => simp [detect, detectTuples_length]

/-- The interpreter does not read the checksum (R113, R120). -/
theorem interpret_checksum (f : Frame) (v : Word) : interpret { f with checksum := v } = interpret f := rfl

end Sys2Proof.Machine
end

