-- ==== Sys2Proof/Laws/Pipeline.lean ====
section
/-! SUPPORT. What each stage of the pipeline answers. -/

namespace Sys2Proof.Machine

theorem runDecoded_pushRaw (x : Timestamp) (b : Byte) (s : State) :
    runDecoded (.pushRaw x b) s = execLogPushRaw x b s := rfl

theorem runDecoded_pushRecord (x : Timestamp) (r : Record) (s : State) :
    runDecoded (.pushRecord x r) s = execLogPushRecord x r s := rfl

/-- Routing a record delivers its trigger event, if it has one (R140, R141). -/
theorem runDecoded_record (r : Record) (s : State) :
    runDecoded (.record r s.triggerId) s = .next { s with triggers := s.triggers ++ (route s.triggerId r).toList } := by
  by_cases h : r.id = s.triggerId
  · simp [runDecoded, decode, h, exec, execRouteTrigger, route, State.emitTrigger]
  · simp [runDecoded, decode, h, exec, execRouteNone, route]

/-- Interpreting a frame yields its records (R121). -/
theorem runDecoded_command {f : Frame} (hf : f.wf = true) (s : State) :
    runDecoded (.command f) s = .next (s.yieldRecords (interpret f)) := by
  simp only [runDecoded, decode, hf, if_true, decodeCommand_eq]
  by_cases h1 : f.command = Config.cmdClassification
  · simp [h1, exec, execInterpClassification, interpret]
  by_cases h2 : f.command = Config.cmdDetection
  · simp [h2, exec, execInterpDetection, interpret]
  by_cases h0 : f.command = Config.cmdReserved0
  · simp [h0, exec, execInterpReserved0, interpret, State.yieldRecords, State.setPending]
  · have hu : f.command ≠ Config.cmdReserved0 ∧ f.command ≠ Config.cmdClassification ∧ f.command ≠ Config.cmdDetection :=
      ⟨h0, h1, h2⟩
    simp only [h1, h2, h0, if_false, exec, execInterpUnknown, interpret, if_pos hu]
    simp [State.yieldRecords, State.setPending]

/-- A value that is no frame is not interpreted (R29). -/
theorem runDecoded_notAFrame {f : Frame} (hf : f.wf = false) (s : State) :
    runDecoded (.command f) s = .refused (.undecodable .notAFrame) := by
  simp [runDecoded, decode, hf]

/-- Taking a record delivers, routes and logs it (R79, R170). -/
theorem takeRecord_cons {s : State} {r : Record} {rest : List Record} (x : Timestamp) (hp : s.pending = r :: rest)
    (hc : s.logCapacity ≠ 0) :
    takeRecord x s = .next
      { s with
        pending := rest
        records := s.records ++ [r]
        triggers := s.triggers ++ (route s.triggerId r).toList
        traceRec := pushBounded s.logCapacity s.traceRec ⟨x, r⟩ } := by
  have h := runDecoded_record r ((s.setPending rest).emitRecord r)
  simp only [State.emitRecord_triggerId, State.setPending_triggerId] at h
  simp only [takeRecord, hp, h, andThen_next, runDecoded_pushRecord, execLogPushRecord]
  simp [State.setPending, State.emitRecord, State.setTraceRec, hc]

/-- Delivering every pending record (R51, R170): the decoded channel receives one entry for each of them, in order. -/
theorem deliver_pending (n : Nat) (s : State) (hn : s.pending.length = n) (hc : s.logCapacity ≠ 0) :
    ∃ es : List RecEntry, es.map RecEntry.record = s.pending ∧
      deliver n s = .next
        { s with
          pending := []
          records := s.records ++ s.pending
          triggers := s.triggers ++ s.pending.filterMap (route s.triggerId)
          traceRec := es.foldl (pushBounded s.logCapacity) s.traceRec
          draws := s.draws + n } := by
  induction n generalizing s with
  | zero =>
    have hp := List.length_eq_zero_iff.1 hn
    refine ⟨[], by simp [hp], ?_⟩
    cases s
    simp_all [deliver]
  | succ n ih =>
    match hp : s.pending with
    | [] => simp [hp] at hn
    | r :: rest =>
      obtain ⟨s1, hs1, ht⟩ : ∃ s1, _ = s1 ∧ takeRecord (Config.timestamp s.draws) s.drawn = .next s1 :=
        ⟨_, rfl, takeRecord_cons (s := s.drawn) (Config.timestamp s.draws) hp hc⟩
      obtain ⟨es, hes, hd⟩ := ih s1 (by subst hs1; simpa [hp] using hn) (by subst hs1; exact hc)
      refine ⟨⟨Config.timestamp s.draws, r⟩ :: es, by subst hs1; simp [hes], ?_⟩
      rw [deliver, ht, andThen_next, hd]
      subst hs1
      cases hr : route s.triggerId r <;> simp [hr, Nat.add_assoc, Nat.add_comm 1]

theorem deliverAll_nil {s : State} (h : s.pending = []) : deliverAll s = .next s := by
  simp [deliverAll, h, deliver]

end Sys2Proof.Machine
end

