-- ==== Sys2Proof/Laws/Invariant.lean ====
section
/-! SUPPORT. The invariant under the updates of the state, and what an accepted byte does to a state that meets it. -/

namespace Sys2Proof.Machine

/-! ### The row that a byte selects -/

/-- The decoder's part of one accepted byte, phase by phase (R100 to R109): what the selected row makes of a state that meets
the phase invariants. -/
def fedState (b : Byte) (s : State) : State :=
  match s.phase, s.scratch with
  | .waitStart, _ => if b = Config.startMarker then ((s.setScratch []).setPayload []).setPhase .header else s
  | .header, [c, lo] => headerDone c (le16 lo b) s
  | .header, bs => s.setScratch (bs ++ [b])
  | .payload, bs =>
    if bs.length + 1 < s.len.toNat then (s.setPbuf (s.pbuf.write bs.length b)).setScratch (bs ++ [b])
    else (((s.setPbuf (s.pbuf.write bs.length b)).setPayload (bs ++ [b])).setScratch []).setPhase .checksum
  | .checksum, [c0, c1, c2] => ((s.setCsum (le32 c0 c1 c2 b)).setScratch []).setPhase .atEnd
  | .checksum, bs => s.setScratch (bs ++ [b])
  | .atEnd, _ => if b = Config.endMarker then ((s.setPayload []).setPhase .waitStart).emitFrame s.heldFrame else s

/-- The word of a FEED in a state decodes to the row that phase, byte, count and length select (R70). -/
theorem decode_feedWord (b : Byte) (s : State) :
    decode (feedWord b s) =
      match decodeFeed (feedKey s.phase b) s.scratch.length s.len with
      | some i => .ok i
      | none => .error (.noFeedRow (feedKey s.phase b)) :=
  decode_feedKey _ _ _ _

/-- The same, phase by phase. -/
theorem decode_feedWord_eq (b : Byte) (s : State) :
    decode (feedWord b s) =
      match s.phase with
      | .waitStart => if b = Config.startMarker then .ok .feedWsStart else .ok (.feedWsSkip b)
      | .header =>
        if s.scratch.length < 2 then .ok (.feedHdrAcc b)
        else if s.scratch.length = 2 then .ok (.feedHdrDone b)
        else .error (.noFeedRow (feedKey s.phase b))
      | .payload =>
        if s.scratch.length + 1 < s.len.toNat then .ok (.feedPlAcc b)
        else if s.scratch.length + 1 = s.len.toNat then .ok (.feedPlDone b)
        else .error (.noFeedRow (feedKey s.phase b))
      | .checksum =>
        if s.scratch.length < 3 then .ok (.feedCkAcc b)
        else if s.scratch.length = 3 then .ok (.feedCkDone b)
        else .error (.noFeedRow (feedKey s.phase b))
      | .atEnd => if b = Config.endMarker then .ok .feedEndEmit else .ok (.feedEndStall b) := by
  rw [decode_feedWord, decodeFeed_feedKey]
  cases s.phase <;> simp only <;> repeat' (first | rfl | split_ifs)

/-- In a state that meets the phase invariants a byte selects a row, and the row makes `fedState` of the state (R112). -/
theorem exec_selected {s : State} (hI : s.Inv) (b : Byte) :
    ∃ i, decode (feedWord b s) = .ok i ∧ i.format = .feed ∧ exec i s = .next (fedState b s) ∧
      (i = .feedEndEmit ↔ s.phase = .atEnd ∧ b = Config.endMarker) := by
  rw [decode_feedWord, decodeFeed_feedKey]
  match hp : s.phase with
  | .waitStart =>
    by_cases hb : b = 253#8
    · exact ⟨.feedWsStart, by simp [hb], rfl, execFeedWsStart_eq_next.2 ⟨hp, by simp [fedState, hp, hb]⟩, by simp⟩
    · exact ⟨.feedWsSkip b, by simp [hb], rfl, execFeedWsSkip_eq_next.2 ⟨⟨hp, hb⟩, by simp [fedState, hp, hb]⟩, by simp⟩
  | .header =>
    have hn := (hI.header hp).1
    match hs : s.scratch with
    | [] => exact ⟨.feedHdrAcc b, by simp, rfl,
        execFeedHdrAcc_eq_next.2 ⟨⟨hp, by simp [hs]⟩, by simp [fedState, hp, hs]⟩, by simp⟩
    | [c] => exact ⟨.feedHdrAcc b, by simp, rfl,
        execFeedHdrAcc_eq_next.2 ⟨⟨hp, by simp [hs]⟩, by simp [fedState, hp, hs]⟩, by simp⟩
    | [c, lo] => exact ⟨.feedHdrDone b, by simp, rfl,
        execFeedHdrDone_eq_next.2 ⟨c, lo, hp, hs, by simp [fedState, hp, hs]⟩, by simp⟩
    | _ :: _ :: _ :: _ => simp [hs] at hn
  | .payload =>
    have hn := (hI.payload hp).2.1
    by_cases hl : s.scratch.length + 1 < s.len.toNat
    · exact ⟨.feedPlAcc b, by simp [hl], rfl,
        execFeedPlAcc_eq_next.2 ⟨⟨hp, hl⟩, by simp [fedState, hp, hl]⟩, by simp⟩
    · have he : s.scratch.length + 1 = s.len.toNat := by omega
      exact ⟨.feedPlDone b, by simp [he], rfl,
        execFeedPlDone_eq_next.2 ⟨⟨hp, he⟩, by simp [fedState, hp, he]⟩, by simp⟩
  | .checksum =>
    have hn := (hI.checksum hp).1
    match hs : s.scratch with
    | [] => exact ⟨.feedCkAcc b, by simp, rfl,
        execFeedCkAcc_eq_next.2 ⟨⟨hp, by simp [hs]⟩, by simp [fedState, hp, hs]⟩, by simp⟩
    | [_] => exact ⟨.feedCkAcc b, by simp, rfl,
        execFeedCkAcc_eq_next.2 ⟨⟨hp, by simp [hs]⟩, by simp [fedState, hp, hs]⟩, by simp⟩
    | [_, _] => exact ⟨.feedCkAcc b, by simp, rfl,
        execFeedCkAcc_eq_next.2 ⟨⟨hp, by simp [hs]⟩, by simp [fedState, hp, hs]⟩, by simp⟩
    | [c0, c1, c2] => exact ⟨.feedCkDone b, by simp, rfl,
        execFeedCkDone_eq_next.2 ⟨c0, c1, c2, hp, hs, by simp [fedState, hp, hs]⟩, by simp⟩
    | _ :: _ :: _ :: _ :: _ => simp [hs] at hn; omega
  | .atEnd =>
    by_cases hb : b = 237#8
    · exact ⟨.feedEndEmit, by simp [hb], rfl, execFeedEndEmit_eq_next.2 ⟨hp, by simp [fedState, hp, hb]⟩, by simp [hb]⟩
    · exact ⟨.feedEndStall b, by simp [hb], rfl, execFeedEndStall_eq_next.2 ⟨⟨hp, hb⟩, by simp [fedState, hp, hb]⟩,
        by simp [hb]⟩

/-- `fedState` touches nothing but the decoder, PBUF and the frame output. -/
theorem fedState_frame (b : Byte) (s : State) :
    (fedState b s).traceRaw = s.traceRaw ∧ (fedState b s).traceRec = s.traceRec ∧
      (fedState b s).triggerId = s.triggerId ∧ (fedState b s).logCapacity = s.logCapacity ∧
      (fedState b s).pending = s.pending ∧ (fedState b s).records = s.records ∧ (fedState b s).triggers = s.triggers ∧
      (fedState b s).snapshots = s.snapshots ∧ (fedState b s).inputs = s.inputs ∧ (fedState b s).draws = s.draws := by
  simp only [fedState, headerDone]
  repeat' split
  all_goals simp

/-- The frames that a byte makes the decoder emit in a state: the held frame on the end marker in End, else none. -/
def emittedBy (b : Byte) (s : State) : List Frame :=
  if s.phase = .atEnd ∧ b = Config.endMarker then [s.heldFrame] else []

theorem emittedBy_end {b : Byte} {s : State} (h : s.phase = .atEnd ∧ b = Config.endMarker) :
    emittedBy b s = [s.heldFrame] := if_pos h

theorem emittedBy_none {b : Byte} {s : State} (h : ¬ (s.phase = .atEnd ∧ b = Config.endMarker)) : emittedBy b s = [] :=
  if_neg h

/-- What `fedState` emits: the held frame, on the end marker in End (R108, R111). -/
theorem fedState_emits (b : Byte) (s : State) :
    (fedState b s).frames = s.frames ++ emittedBy b s ∧ (fedState b s).hold = (emittedBy b s).head?.or s.hold ∧
      (fedState b s).frameValid = ((emittedBy b s).head?.isSome || s.frameValid) := by
  simp only [fedState, headerDone, emittedBy]
  repeat' split
  all_goals simp_all

/-! ### Updates that keep the invariant -/

/-- The invariant speaks of these fields only. -/
theorem State.Inv.congr {s t : State} (hI : s.Inv) (hd : (t.phase, t.scratch, t.len, t.payload) = (s.phase, s.scratch, s.len, s.payload))
    (hw : (t.hold, t.frameValid, t.pbuf, t.frames) = (s.hold, s.frameValid, s.pbuf, s.frames))
    (hc : t.logCapacity = s.logCapacity) (hr : t.traceRaw.length ≤ t.logCapacity) (hd' : t.traceRec.length ≤ t.logCapacity) :
    t.Inv := by
  simp only [Prod.mk.injEq] at hd hw
  obtain ⟨hp, hs, hl, hy⟩ := hd
  obtain ⟨hh, hv, hb, hf⟩ := hw
  have hbuf : t.buffered = s.buffered := by simp only [State.buffered, hp, hs, hy, hh]
  exact
    { waitStart := by rw [hp, hs, hy]; exact hI.waitStart
      header := by rw [hp, hs, hy]; exact hI.header
      payload := by rw [hp, hs, hy, hl]; exact hI.payload
      checksum := by rw [hp, hs, hy, hl]; exact hI.checksum
      atEnd := by rw [hp, hs, hy, hl]; exact hI.atEnd
      window := by rw [hp, hh]; exact hI.window
      pulse := by rw [hv, hh]; exact hI.pulse
      pbuf := by rw [hb, hbuf]; exact hI.pbuf
      capacity := by rw [hc]; exact hI.capacity
      traceRaw := hr
      traceRec := hd'
      frames := by rw [hf]; exact hI.frames }

theorem State.Inv.setInputs {s : State} (hI : s.Inv) (is : List Input) : (s.setInputs is).Inv :=
  hI.congr rfl rfl rfl hI.traceRaw hI.traceRec

theorem State.Inv.drawn {s : State} (hI : s.Inv) : s.drawn.Inv := hI.congr rfl rfl rfl hI.traceRaw hI.traceRec

theorem State.Inv.yieldRecords {s : State} (hI : s.Inv) (rs : List Record) : (s.yieldRecords rs).Inv :=
  hI.congr rfl rfl rfl hI.traceRaw hI.traceRec

theorem State.Inv.setTraceRaw {s : State} (hI : s.Inv) {es : List RawEntry} (h : es.length ≤ s.logCapacity) :
    (s.setTraceRaw es).Inv :=
  hI.congr rfl rfl rfl h hI.traceRec

/-- The pulse may end at any time (R76). -/
theorem State.Inv.endPulse {s : State} (hI : s.Inv) : s.endPulse.Inv := by
  obtain ⟨h1, h2, h3, h4, h5, h6, _, h8, h9, h10, h11, h12⟩ := hI
  exact ⟨h1, h2, h3, h4, h5, h6, by simp, h8, h9, h10, h11, h12⟩

/-- The window may close whenever a byte is accepted (R77, R238). -/
theorem State.Inv.closeWindow {s : State} (hI : s.Inv) : s.closeWindow.Inv := by
  have hb : s.closeWindow.pbuf = Memory.ofBytes s.closeWindow.buffered := by
    cases hh : s.hold with
    | none => simpa [State.closeWindow, State.buffered, hh] using hI.pbuf
    | some f => simp [State.closeWindow, State.buffered, hh, (hI.window f hh).2]
  obtain ⟨h1, h2, h3, h4, h5, _, _, _, h9, h10, h11, h12⟩ := hI
  exact ⟨h1, h2, h3, h4, h5, by simp, by simp, hb, h9, h10, h11, h12⟩

/-- RESET keeps the invariant (R37, R110). -/
theorem State.Inv.softReset {s : State} (hI : s.Inv) : s.softReset.Inv := by
  have hb : s.softReset.pbuf = Memory.ofBytes s.softReset.buffered := by
    cases hh : s.hold with
    | none => simp [State.softReset, State.buffered, hh]
    | some f => simpa [State.softReset, State.buffered, hh, (hI.window f hh).2] using hI.pbuf
  obtain ⟨_, _, _, _, _, h6, h7, _, h9, h10, h11, h12⟩ := hI
  exact ⟨by simp, by simp, by simp, by simp, by simp, fun f hf => ⟨(h6 f (by simpa using hf)).1, by simp⟩, by simpa using h7, hb,
    h9, h10, h11, h12⟩

/-- RST keeps the invariant (R37, R230). -/
theorem State.Inv.hardReset {s : State} (hI : s.Inv) : s.hardReset.Inv := by
  obtain ⟨_, _, _, _, _, _, _, _, h9, _, _, h12⟩ := hI
  exact ⟨by simp, by simp, by simp, by simp, by simp, by simp, by simp, by simp [State.hardReset, State.buffered], h9, by simp,
    by simp, h12⟩

/-- The frame that is held in End is a frame (R108, R29). -/
theorem State.Inv.heldFrame_wf {s : State} (hI : s.Inv) (hp : s.phase = .atEnd) : s.heldFrame.wf = true := by
  simpa [Frame.wf, State.heldFrame] using (hI.atEnd hp).2

/-- A row keeps the invariant when no window is open (R37). -/
theorem State.Inv.fedState {s : State} (hI : s.Inv) (hh : s.hold = none) (b : Byte) : (fedState b s).Inv := by
  have hpulse : s.frameValid = false := by
    cases hv : s.frameValid with
    | false => rfl
    | true => exact absurd (hI.pulse hv) (by simp [hh])
  have hbuf := hI.pbuf
  have hfr := hI.frames
  have keep : ∀ t : State, (t.hold, t.frameValid, t.frames, t.logCapacity, t.traceRaw, t.traceRec) =
      (s.hold, s.frameValid, s.frames, s.logCapacity, s.traceRaw, s.traceRec) →
      (t.phase = .waitStart → t.scratch = [] ∧ t.payload = []) →
      (t.phase = .header → t.scratch.length ≤ 2 ∧ t.payload = []) →
      (t.phase = .payload → 1 ≤ t.len.toNat ∧ t.scratch.length < t.len.toNat ∧ t.payload = []) →
      (t.phase = .checksum → t.scratch.length ≤ 3 ∧ t.payload.length = t.len.toNat) →
      (t.phase = .atEnd → t.scratch = [] ∧ t.payload.length = t.len.toNat) →
      t.pbuf = Memory.ofBytes t.buffered → t.Inv := by
    intro t he h1 h2 h3 h4 h5 hb
    simp only [Prod.mk.injEq] at he
    obtain ⟨e1, e2, e3, e4, e5, e6⟩ := he
    exact ⟨h1, h2, h3, h4, h5, by simp [e1, hh], by simp [e2, hpulse], hb, e4 ▸ hI.capacity, by rw [e5, e4]; exact hI.traceRaw,
      by rw [e6, e4]; exact hI.traceRec, by rw [e3]; exact hfr⟩
  match hp : s.phase with
  | .waitStart =>
    simp only [Machine.fedState, hp]
    split
    · exact keep _ rfl (by simp) (by simp) (by simp) (by simp) (by simp)
        (by simpa [State.buffered, hp, hh] using hbuf)
    · exact hI
  | .header =>
    have hn := hI.header hp
    have hb0 : s.pbuf = Memory.ofBytes [] := by simpa [State.buffered, hp] using hbuf
    match hs : s.scratch with
    | [] =>
      simp only [Machine.fedState, hp, hs]
      exact keep _ rfl (by simp [hp]) (by simp [hn]) (by simp [hp]) (by simp [hp]) (by simp [hp])
        (by simpa [State.buffered, hp] using hb0)
    | [c] =>
      simp only [Machine.fedState, hp, hs]
      exact keep _ rfl (by simp [hp]) (by simp [hn]) (by simp [hp]) (by simp [hp]) (by simp [hp])
        (by simpa [State.buffered, hp] using hb0)
    | [c, lo] =>
      simp only [Machine.fedState, hp, hs, headerDone]
      split
      · rename_i hl
        exact keep _ rfl (by simp) (by simp) (by simp) (by simp [hl]) (by simp) (by simpa [State.buffered] using hb0)
      · rename_i hl
        have : (le16 lo b).toNat ≠ 0 := fun h => hl (BitVec.eq_of_toNat_eq (by simpa using h))
        exact keep _ rfl (by simp) (by simp) (by simp [hn]; omega) (by simp) (by simp) (by simpa [State.buffered] using hb0)
    | _ :: _ :: _ :: _ => simp [hs] at hn
  | .payload =>
    have hn := hI.payload hp
    have hb0 : s.pbuf = Memory.ofBytes s.scratch := by simpa [State.buffered, hp] using hbuf
    have hw := Memory.write_ofBytes s.scratch b
    simp only [Machine.fedState, hp]
    split
    · rename_i hl
      exact keep _ rfl (by simp [hp]) (by simp [hp]) (by simp [hn]; omega) (by simp [hp]) (by simp [hp])
        (by simp [State.buffered, hp, hb0, hw])
    · exact keep _ rfl (by simp) (by simp) (by simp) (by simp; omega) (by simp)
        (by simp [State.buffered, hb0, hw])
  | .checksum =>
    have hn := hI.checksum hp
    have hb0 : s.pbuf = Memory.ofBytes s.payload := by simpa [State.buffered, hp] using hbuf
    match hs : s.scratch with
    | [] =>
      simp only [Machine.fedState, hp, hs]
      exact keep _ rfl (by simp [hp]) (by simp [hp]) (by simp [hp]) (by simp [hn]) (by simp [hp])
        (by simpa [State.buffered, hp] using hb0)
    | [_] =>
      simp only [Machine.fedState, hp, hs]
      exact keep _ rfl (by simp [hp]) (by simp [hp]) (by simp [hp]) (by simp [hn]) (by simp [hp])
        (by simpa [State.buffered, hp] using hb0)
    | [_, _] =>
      simp only [Machine.fedState, hp, hs]
      exact keep _ rfl (by simp [hp]) (by simp [hp]) (by simp [hp]) (by simp [hn]) (by simp [hp])
        (by simpa [State.buffered, hp] using hb0)
    | [c0, c1, c2] =>
      simp only [Machine.fedState, hp, hs]
      exact keep _ rfl (by simp) (by simp) (by simp) (by simp) (by simp [hn])
        (by simpa [State.buffered] using hb0)
    | _ :: _ :: _ :: _ :: _ => simp [hs] at hn; omega
  | .atEnd =>
    have hn := hI.atEnd hp
    have hb0 : s.pbuf = Memory.ofBytes s.payload := by simpa [State.buffered, hp] using hbuf
    have hf := hI.heldFrame_wf hp
    simp only [Machine.fedState, hp]
    split
    · refine ⟨by simp [hn], by simp, by simp, by simp, by simp, ?_, by simp,
        by simpa [State.buffered, State.heldFrame] using hb0, hI.capacity,
        hI.traceRaw, hI.traceRec, ?_⟩
      · intro f h
        obtain rfl : s.heldFrame = f := by simpa using h
        exact ⟨hf, rfl⟩
      · intro f h
        rcases (by simpa using h : f ∈ s.frames ∨ f = s.heldFrame) with h | rfl
        · exact hfr f h
        · exact hf
    · exact hI

/-! ### One accepted byte, and what follows it -/

/-- The state in which the row of an accepted byte runs: the window closed, the byte pushed to the raw channel (R77, R151). -/
def beforeRow (x : Timestamp) (b : Byte) (s : State) : State :=
  s.closeWindow.setTraceRaw (pushBounded s.logCapacity s.traceRaw ⟨x, b⟩)

/-- The state after one accepted byte, its records yielded and not yet taken. -/
def acceptedState (x : Timestamp) (b : Byte) (s : State) : State :=
  (fedState b (beforeRow x b s)).yieldRecords ((emittedBy b s).flatMap interpret)

theorem beforeRow_inv {s : State} (hI : s.Inv) (x : Timestamp) (b : Byte) : (beforeRow x b s).Inv :=
  hI.closeWindow.setTraceRaw (pushBounded_length_le _ hI.traceRaw)

@[simp] theorem beforeRow_phase (x : Timestamp) (b : Byte) (s : State) : (beforeRow x b s).phase = s.phase := rfl

@[simp] theorem beforeRow_emittedBy (x : Timestamp) (b c : Byte) (s : State) :
    emittedBy c (beforeRow x b s) = emittedBy c s := rfl

theorem State.yieldRecords_nil (s : State) : s.yieldRecords [] = s := by
  simp [State.yieldRecords, State.setPending]

/-- An accepted byte always completes, and gives `acceptedState` (R112, R170). -/
theorem acceptByte_eq {s : State} (hI : s.Inv) (x : Timestamp) (b : Byte) :
    acceptByte x b s = .next (acceptedState x b s) := by
  have hc : s.closeWindow.logCapacity ≠ 0 := by have := hI.capacity; simp; omega
  have h1 : runDecoded (.pushRaw x b) s.closeWindow = .next (beforeRow x b s) := by
    rw [runDecoded_pushRaw]
    exact execLogPushRaw_eq_next.2 ⟨hc, rfl⟩
  obtain ⟨i, hd, _, he, _⟩ := exec_selected (beforeRow_inv hI x b) b
  have h2 : runDecoded (feedWord b (beforeRow x b s)) (beforeRow x b s) = .next (fedState b (beforeRow x b s)) := by
    simp [runDecoded, hd, he]
  obtain ⟨_, hh, _⟩ := fedState_emits b (beforeRow x b s)
  have hn : (beforeRow x b s).hold = none := rfl
  simp only [acceptByte, h1, h2, andThen_next, acceptedState, interpretEmitted, hh, hn, beforeRow_emittedBy]
  by_cases he : s.phase = .atEnd ∧ b = Config.endMarker
  · simpa [emittedBy_end he] using runDecoded_command (hI.heldFrame_wf he.1) _
  · simp [emittedBy_none he, State.yieldRecords_nil]

theorem acceptedState_inv {s : State} (hI : s.Inv) (x : Timestamp) (b : Byte) : (acceptedState x b s).Inv :=
  ((beforeRow_inv hI x b).fedState rfl b).yieldRecords _

/-- What an accepted byte does outside the decoder. -/
theorem acceptedState_outputs (x : Timestamp) (b : Byte) (s : State) :
    (acceptedState x b s).traceRaw = pushBounded s.logCapacity s.traceRaw ⟨x, b⟩ ∧
      (acceptedState x b s).traceRec = s.traceRec ∧
      (acceptedState x b s).triggerId = s.triggerId ∧ (acceptedState x b s).logCapacity = s.logCapacity ∧
      (acceptedState x b s).pending = s.pending ++ (emittedBy b s).flatMap interpret ∧
      (acceptedState x b s).records = s.records ∧ (acceptedState x b s).triggers = s.triggers ∧
      (acceptedState x b s).snapshots = s.snapshots ∧ (acceptedState x b s).inputs = s.inputs ∧
      (acceptedState x b s).draws = s.draws ∧
      (acceptedState x b s).frames = s.frames ++ emittedBy b s ∧
      (acceptedState x b s).hold = (emittedBy b s).head? ∧
      (acceptedState x b s).frameValid = (emittedBy b s).head?.isSome := by
  have hf := fedState_frame b (beforeRow x b s)
  have he := fedState_emits b (beforeRow x b s)
  simp only [beforeRow_emittedBy] at he
  simp only [acceptedState, State.yieldRecords_traceRaw, State.yieldRecords_traceRec, State.yieldRecords_triggerId,
    State.yieldRecords_logCapacity, State.yieldRecords_pending, State.yieldRecords_records, State.yieldRecords_triggers,
    State.yieldRecords_snapshots, State.yieldRecords_inputs, State.yieldRecords_draws, State.yieldRecords_frames,
    State.yieldRecords_hold, State.yieldRecords_frameValid, hf, he]
  simp [beforeRow]

/-- A row's effect on the decoder's fields depends on the decoder's fields only (R174, R175). -/
theorem fedState_decoder (b : Byte) {s t : State} (hp : t.phase = s.phase) (hs : t.scratch = s.scratch) (hc : t.cmd = s.cmd)
    (hl : t.len = s.len) (hy : t.payload = s.payload) (hk : t.csum = s.csum) :
    (fedState b t).phase = (fedState b s).phase ∧ (fedState b t).scratch = (fedState b s).scratch ∧
      (fedState b t).cmd = (fedState b s).cmd ∧ (fedState b t).len = (fedState b s).len ∧
      (fedState b t).payload = (fedState b s).payload ∧ (fedState b t).csum = (fedState b s).csum := by
  simp only [fedState, headerDone, hp, hs, hl]
  split
  · split <;> simp [hp, hs, hc, hl, hy, hk]
  · split <;> simp [hy, hk]
  · simp [hp, hc, hl, hy, hk]
  · split <;> simp [hp, hc, hl, hy, hk]
  · simp [hc, hl, hy]
  · simp [hp, hc, hl, hy, hk]
  · split <;> simp [hp, hs, hc, hl, hy, hk]

/-- The decoder's fields after an accepted byte are those of its row (R170). -/
theorem acceptedState_decoder (x : Timestamp) (b : Byte) (s : State) :
    (acceptedState x b s).phase = (fedState b s).phase ∧ (acceptedState x b s).scratch = (fedState b s).scratch ∧
      (acceptedState x b s).cmd = (fedState b s).cmd ∧ (acceptedState x b s).len = (fedState b s).len ∧
      (acceptedState x b s).payload = (fedState b s).payload ∧ (acceptedState x b s).csum = (fedState b s).csum :=
  fedState_decoder b (t := beforeRow x b s) rfl rfl rfl rfl rfl rfl

/-- Delivering everything pending, from a state that meets the invariant (R51, R170). -/
theorem deliverAll_eq {s : State} (hI : s.Inv) :
    ∃ es : List RecEntry, es.map RecEntry.record = s.pending ∧
      deliverAll s = .next
        { s with
          pending := []
          records := s.records ++ s.pending
          triggers := s.triggers ++ s.pending.filterMap (route s.triggerId)
          traceRec := es.foldl (pushBounded s.logCapacity) s.traceRec
          draws := s.draws + s.pending.length } :=
  deliver_pending _ s rfl (by have := hI.capacity; omega)

theorem foldl_pushBounded_length_le {α : Type} {capacity : Nat} (channel entries : List α) (h : channel.length ≤ capacity) :
    (entries.foldl (pushBounded capacity) channel).length ≤ capacity := by
  rw [foldl_pushBounded channel entries h, List.length_drop]
  omega

theorem deliverAll_inv {s t : State} (hI : s.Inv) (h : deliverAll s = .next t) : t.Inv := by
  obtain ⟨es, _, hd⟩ := deliverAll_eq hI
  rw [hd] at h
  cases h
  exact hI.congr rfl rfl rfl hI.traceRaw (foldl_pushBounded_length_le _ _ hI.traceRec)

end Sys2Proof.Machine
end

