-- ==== Sys2Proof/Laws/PerInstr.lean ====
section
/-! SUPPORT. Statements about every instruction as syntax, one lemma per constructor. -/

namespace Sys2Proof.Laws.OneFormat

/-- The word of an instruction has the format that the opcode table gives its row. -/
def Statement (i : Instr) : Prop := (encode i).format = i.format

theorem feedWsStart : Statement .feedWsStart := rfl
theorem feedWsSkip (b : Byte) : Statement (.feedWsSkip b) := rfl
theorem feedHdrAcc (b : Byte) : Statement (.feedHdrAcc b) := rfl
theorem feedHdrDone (b : Byte) : Statement (.feedHdrDone b) := rfl
theorem feedPlAcc (b : Byte) : Statement (.feedPlAcc b) := rfl
theorem feedPlDone (b : Byte) : Statement (.feedPlDone b) := rfl
theorem feedCkAcc (b : Byte) : Statement (.feedCkAcc b) := rfl
theorem feedCkDone (b : Byte) : Statement (.feedCkDone b) := rfl
theorem feedEndEmit : Statement .feedEndEmit := rfl
theorem feedEndStall (b : Byte) : Statement (.feedEndStall b) := rfl
theorem reset : Statement .reset := rfl
theorem rst : Statement .rst := rfl
theorem interpClassification (f : Frame) : Statement (.interpClassification f) := rfl
theorem interpDetection (f : Frame) : Statement (.interpDetection f) := rfl
theorem interpReserved0 (f : Frame) : Statement (.interpReserved0 f) := rfl
theorem interpUnknown (f : Frame) : Statement (.interpUnknown f) := rfl
theorem routeTrigger (r : Record) : Statement (.routeTrigger r) := rfl
theorem routeNone (r : Record) : Statement (.routeNone r) := rfl
theorem logPushRaw (t : Timestamp) (b : Byte) : Statement (.logPushRaw t b) := rfl
theorem logPushRecord (t : Timestamp) (r : Record) : Statement (.logPushRecord t r) := rfl
theorem logSnapshot (ch : Channel) : Statement (.logSnapshot ch) := rfl

end Sys2Proof.Laws.OneFormat
end

