-- ==== Sys2Proof/Laws/Transactions.lean ====
section
/-! SUPPORT. What a transaction and a clock edge answer. -/

namespace Sys2Proof.Machine

/-! ### The last entries of a channel -/

/-- Pushing entries and reading a field of each is keeping the last `capacity` of the fields (R153). -/
theorem map_foldl_pushBounded {α β : Type} (g : α → β) {capacity : Nat} (channel entries : List α)
    (h : channel.length ≤ capacity) :
    (entries.foldl (pushBounded capacity) channel).map g = lastN capacity (channel.map g ++ entries.map g) := by
  rw [foldl_pushBounded _ _ h, lastN, List.map_drop]
  simp

/-- Keeping the last `n` twice is keeping them once. -/
theorem lastN_lastN_append {α : Type} (n : Nat) (a b : List α) : lastN n (lastN n a ++ b) = lastN n (a ++ b) := by
  simp only [lastN]
  by_cases h : a.length ≤ n
  · simp [Nat.sub_eq_zero_of_le h]
  · have hl : ((List.drop (a.length - n) a) ++ b).length = n + b.length := by simp; omega
    rw [hl, show n + b.length - n = b.length by omega, ← List.drop_append_of_le_length (by omega), List.drop_drop]
    congr 1
    simp
    omega

/-- The trigger events among records, in order (R140, R141, R170). -/
theorem filterMap_route (triggerId : Byte) (rs : List Record) :
    rs.filterMap (route triggerId) = (rs.filter fun r => r.id == triggerId).map TriggerEvent.mk := by
  induction rs with
  | nil => rfl
  | cons r rs ih => by_cases h : r.id = triggerId <;> simp [route, h] at * <;> exact ih

/-! ### Resets and records -/

/-- The reset lines: `rst` wins (R74). -/
theorem runDecoded_control (softReset rst : Bool) (s : State) (h : (rst || softReset) = true) :
    runDecoded (.control softReset rst) s = .next (if rst then s.hardReset else s.softReset) := by
  cases rst <;> cases softReset <;> simp_all [runDecoded, decode, exec, execRst, execReset]

/-- What taking a record leaves unchanged (R79, R175). -/
theorem takeRecord_frame {x : Timestamp} {s t : State} (h : takeRecord x s = .next t) :
    t.phase = s.phase ∧ t.scratch = s.scratch ∧ t.cmd = s.cmd ∧ t.len = s.len ∧ t.payload = s.payload ∧ t.csum = s.csum ∧
      t.pbuf = s.pbuf ∧ t.hold = s.hold ∧ t.frameValid = s.frameValid ∧ t.frames = s.frames ∧ t.traceRaw = s.traceRaw ∧
      t.triggerId = s.triggerId ∧ t.logCapacity = s.logCapacity ∧ t.pending = s.pending.tail ∧ t.inputs = s.inputs ∧
      t.draws = s.draws := by
  cases hp : s.pending with
  | nil => simp only [takeRecord, hp] at h; cases h; simp [hp]
  | cons r rest =>
    by_cases hc : s.logCapacity = 0
    · have hr := runDecoded_record r ((s.setPending rest).emitRecord r)
      simp only [State.emitRecord_triggerId, State.setPending_triggerId] at hr
      simp only [takeRecord, hp, hr, andThen_next, runDecoded_pushRecord, execLogPushRecord] at h
      simp [hc] at h
    · rw [takeRecord_cons x hp hc] at h; cases h; simp

/-- Taking a record keeps the invariant (R37). -/
theorem takeRecord_inv {x : Timestamp} {s t : State} (hI : s.Inv) (h : takeRecord x s = .next t) : t.Inv := by
  cases hp : s.pending with
  | nil => simp only [takeRecord, hp] at h; cases h; exact hI
  | cons r rest =>
    rw [takeRecord_cons x hp (by have := hI.capacity; omega)] at h
    cases h
    exact hI.congr rfl rfl rfl hI.traceRaw (pushBounded_length_le _ hI.traceRec)

/-! ### The FEED transaction -/

/-- The whole FEED transaction, from a state that meets the invariant with nothing pending (R170). -/
theorem feedTransaction_eq {s : State} (hI : s.Inv) (b : Byte) (hp : s.pending = []) :
    ∃ es : List RecEntry, es.map RecEntry.record = (emittedBy b s).flatMap interpret ∧
      feedTransaction b s = .next
        { acceptedState (Config.timestamp s.draws) b s.drawn with
          pending := []
          records := s.records ++ (emittedBy b s).flatMap interpret
          triggers := s.triggers ++ ((emittedBy b s).flatMap interpret).filterMap (route s.triggerId)
          traceRec := es.foldl (pushBounded s.logCapacity) s.traceRec
          draws := s.draws + 1 + ((emittedBy b s).flatMap interpret).length } := by
  obtain ⟨es, h1, h2⟩ := deliverAll_eq (acceptedState_inv hI.drawn (Config.timestamp s.draws) b)
  obtain ⟨_, o2, o3, o4, o5, o6, o7, _, _, o10, _⟩ := acceptedState_outputs (Config.timestamp s.draws) b s.drawn
  have hem : emittedBy b s.drawn = emittedBy b s := rfl
  have hpend : (acceptedState (Config.timestamp s.draws) b s.drawn).pending = (emittedBy b s).flatMap interpret := by
    rw [o5, hem]; simp [hp]
  refine ⟨es, by rw [h1, hpend], ?_⟩
  simp only [feedTransaction, deliverAll_nil hp, andThen_next, acceptByte_eq hI.drawn, h2, hpend, o2, o3, o4, o6, o7, o10]
  simp

/-! ### A clock edge -/

/-- A byte is accepted only with both reset lines low and no record pending (R74, R78). -/
theorem accepts_imp {p : PortIn} {s : State} (h : accepts p s = true) :
    p.rst = false ∧ p.softReset = false ∧ s.busy = false := by
  simp [accepts, inReady] at h
  exact ⟨h.2.1.1, h.2.1.2, h.2.2⟩

/-- An edge takes a record or not, and then acts on its inputs; what stands between the two (R76, R79). -/
theorem clockEdge_split {p : PortIn} {s t : State} (h : clockEdge p s = .next t) :
    ∃ u, edgeInput p (accepts p s) u = .next t ∧
      (if s.busy && p.recReady then takeRecord p.ts s.drawn.endPulse else .next s.drawn.endPulse) = .next u ∧
      u.phase = s.phase ∧ u.scratch = s.scratch ∧ u.cmd = s.cmd ∧ u.len = s.len ∧ u.payload = s.payload ∧
      u.csum = s.csum ∧ u.pbuf = s.pbuf ∧ u.hold = s.hold ∧ u.frameValid = false ∧ u.frames = s.frames ∧
      u.traceRaw = s.traceRaw ∧ u.triggerId = s.triggerId ∧ u.logCapacity = s.logCapacity ∧
      u.pending = if s.busy && p.recReady then s.pending.tail else s.pending := by
  simp only [clockEdge] at h
  obtain ⟨u, h1, h⟩ := andThen_eq_next.1 h
  refine ⟨u, h, h1, ?_⟩
  cases hb : (s.busy && p.recReady)
  · rw [hb] at h1; simp at h1; cases h1; simp
  · rw [hb] at h1; simp at h1
    obtain ⟨a1, a2, a3, a4, a5, a6, a7, a8, a9, a10, a11, a12, a13, a14, _⟩ := takeRecord_frame h1
    exact ⟨a1, a2, a3, a4, a5, a6, a7, a8, a9, a10, a11, a12, a13, a14⟩

/-- What the inputs of an edge do: `rst`, else `soft_reset`, else an accepted byte, else nothing (R74, R75). -/
theorem edgeInput_cases {p : PortIn} {a : Bool} {u t : State} (h : edgeInput p a u = .next t) :
    (p.rst = true ∧ t = u.hardReset) ∨
      (p.rst = false ∧ p.softReset = true ∧ t = u.softReset) ∨
      (p.rst = false ∧ p.softReset = false ∧ a = true ∧ acceptByte p.ts p.inData u = .next t) ∨
      (p.rst = false ∧ p.softReset = false ∧ a = false ∧ t = u) := by
  simp only [edgeInput] at h
  cases h1 : p.rst <;> cases h2 : p.softReset <;> cases a <;> simp [h1, h2, runDecoded_control] at h <;>
    simp [h, eq_comm]

/-- The inputs of an edge complete and keep the invariant (R37). -/
theorem edgeInput_next {s : State} (p : PortIn) (a : Bool) (hI : s.Inv) :
    ∃ t, edgeInput p a s = .next t ∧ t.Inv ∧ t.inputs = s.inputs := by
  simp only [edgeInput]
  by_cases h : (p.rst || p.softReset) = true
  · rw [if_pos h, runDecoded_control _ _ _ h]
    cases p.rst
    · exact ⟨_, rfl, hI.softReset, rfl⟩
    · exact ⟨_, rfl, hI.hardReset, rfl⟩
  · rw [if_neg h]
    cases a
    · exact ⟨s, rfl, hI, rfl⟩
    · exact ⟨_, acceptByte_eq hI _ _, acceptedState_inv hI _ _,
        (acceptedState_outputs p.ts p.inData s).2.2.2.2.2.2.2.2.1⟩

/-- A clock edge completes from every state that meets the invariant, and keeps it (R37). -/
theorem clockEdge_next {s : State} (hI : s.Inv) (p : PortIn) : ∃ t, clockEdge p s = .next t ∧ t.Inv := by
  have hI' : s.drawn.endPulse.Inv := hI.drawn.endPulse
  obtain ⟨u, hu, huI⟩ : ∃ u, (if s.busy && p.recReady then takeRecord p.ts s.drawn.endPulse else .next s.drawn.endPulse)
      = .next u ∧ u.Inv := by
    cases hb : (s.busy && p.recReady)
    · exact ⟨_, rfl, hI'⟩
    · cases hp : s.pending with
      | nil => simp [State.busy, hp] at hb
      | cons r rest =>
        have ht := takeRecord_cons (s := s.drawn.endPulse) p.ts hp (by have := hI'.capacity; omega)
        exact ⟨_, ht, takeRecord_inv hI' ht⟩
  obtain ⟨t, ht, htI, _⟩ := edgeInput_next p (p.inValid && inReady p s) huI
  exact ⟨t, by rw [clockEdge, hu, andThen_next, ht], htI⟩

/-- What an edge does to the records of a busy block: it takes one when the consumer is ready, `rst` drops them all, and
otherwise they stay; no byte is accepted (R78, R79, R230). -/
theorem clockEdge_pending_of_busy {p : PortIn} {s t : State} (hb : s.busy = true) (h : clockEdge p s = .next t) :
    accepts p s = false ∧
      t.pending = if p.rst then [] else if p.recReady then s.pending.tail else s.pending := by
  have ha : accepts p s = false := by simp [accepts, inReady, hb]
  refine ⟨ha, ?_⟩
  obtain ⟨u, hu, _, _, _, _, _, _, _, _, _, _, _, _, _, _, hp⟩ := clockEdge_split h
  rw [hb, Bool.true_and] at hp
  rcases edgeInput_cases hu with ⟨h1, rfl⟩ | ⟨h1, _, rfl⟩ | ⟨_, _, h2, _⟩ | ⟨h1, _, _, rfl⟩
  · simp [h1]
  · simp [h1, hp]
  · simp [ha] at h2
  · simp [h1, hp]

/-! ### The duty of the record consumer (R237) -/

/-- Every stream of edges completes, from a state that meets the invariant. -/
theorem edgeRun_next {s : State} (hI : s.Inv) (e : Nat → PortIn) (n : Nat) : ∃ t, edgeRun e n s = .next t ∧ t.Inv := by
  induction n with
  | zero => exact ⟨s, rfl, hI⟩
  | succ n ih =>
    obtain ⟨t, ht, htI⟩ := ih
    obtain ⟨u, hu, huI⟩ := clockEdge_next htI (e n)
    exact ⟨u, by simp [edgeRun, ht, hu], huI⟩

/-- A block that shows a record and meets no `rec_ready` and no `rst` up to an edge still shows it there. -/
theorem edgeRun_stalled {s t : State} {e : Nat → PortIn} {n : Nat} (hI : s.Inv) (ht : edgeRun e n s = .next t)
    (hb : t.busy = true) (k : Nat) (hk : ∀ m, n ≤ m → m < n + k → (e m).recReady = false ∧ (e m).rst = false) :
    ∃ u, edgeRun e (n + k) s = .next u ∧ u.pending = t.pending := by
  induction k with
  | zero => exact ⟨t, ht, rfl⟩
  | succ k ih =>
    obtain ⟨u, hu, hp⟩ := ih fun m h1 h2 => hk m h1 (by omega)
    have hub : u.busy = true := by simpa [State.busy, hp] using hb
    obtain ⟨v, hv, _⟩ := edgeRun_next hI e (n + k + 1)
    have hc : clockEdge (e (n + k)) u = .next v := by simpa [edgeRun, hu] using hv
    obtain ⟨h1, h2⟩ := hk (n + k) (by omega) (by omega)
    exact ⟨v, hv, by simpa [h1, h2, hp] using (clockEdge_pending_of_busy hub hc).2⟩

/-- Without the duty the ports may hang: if no edge has `rec_ready` or `rst`, a shown record is shown forever and no byte is
ever accepted again (R237, I15). -/
theorem stalled_forever {s : State} {e : Nat → PortIn} (hI : s.Inv) (hb : s.busy = true)
    (he : ∀ m, (e m).recReady = false ∧ (e m).rst = false) (n : Nat) :
    ∃ t, edgeRun e n s = .next t ∧ t.pending = s.pending ∧ accepts (e n) t = false := by
  obtain ⟨t, ht, hp⟩ := edgeRun_stalled (n := 0) hI rfl hb n fun m _ _ => he m
  rw [Nat.zero_add] at ht
  have htb : t.busy = true := by simpa [State.busy, hp] using hb
  exact ⟨t, ht, hp, by simp [accepts, inReady, htb]⟩

/-- With the duty the block is never held forever: from every edge on there is one at which no record is shown (R237). -/
theorem duty_ends_busy {s : State} {e : Nat → PortIn} (hI : s.Inv) (hd : ConsumerDuty e s) (n : Nat) :
    ∃ m t, n ≤ m ∧ edgeRun e m s = .next t ∧ t.busy = false := by
  obtain ⟨t, ht, -⟩ := edgeRun_next hI e n
  induction hl : t.pending.length using Nat.strong_induction_on generalizing n t with
  | _ l ih =>
    cases hb : t.busy
    · exact ⟨n, t, le_rfl, ht, hb⟩
    · have hex : ∃ k, (e (n + k)).recReady = true ∨ (e (n + k)).rst = true := by
        obtain ⟨m, hm, hr⟩ := hd n t ht hb
        exact ⟨m - n, .inl (by rwa [Nat.add_sub_cancel' hm])⟩
      obtain ⟨u, hu, hp⟩ := edgeRun_stalled hI ht hb (Nat.find hex) fun m h1 h2 => by
        have := Nat.find_min hex (m := m - n) (by omega)
        simpa [Nat.add_sub_cancel' h1] using this
      have hub : u.busy = true := by simpa [State.busy, hp] using hb
      obtain ⟨v, hv, -⟩ := edgeRun_next hI e (n + Nat.find hex + 1)
      have hc : clockEdge (e (n + Nat.find hex)) u = .next v := by simpa [edgeRun, hu] using hv
      have hlt : v.pending.length < l := by
        rw [(clockEdge_pending_of_busy hub hc).2, hp]
        have h0 : 0 < t.pending.length := by
          cases h : t.pending with
          | nil => simp [State.busy, h] at hb
          | cons r rest => simp
        rcases Nat.find_spec hex with h | h <;> simp only [h] <;> split_ifs <;> simp_all
      obtain ⟨m, w, h1, h2, h3⟩ := ih _ hlt (n + Nat.find hex + 1) v hv rfl
      exact ⟨m, w, by omega, h2, h3⟩

end Sys2Proof.Machine
end

