-- ==== Sys2Proof/Tests/Slice0.lean ====
section
/-! SUPPORT. Tests: ill-formed terms, words written out from the spec's tables, one-step vectors of 95_test_vectors.md (the
id of the vector stands above each), and for each statement a state and operands that meet its hypotheses. -/

namespace Sys2Proof.Tests

open Sys2Proof.Machine

/-! ### Helpers -/

/-- A small state: a phase with its fields, PBUF holding what that phase holds there. -/
def at_ (p : Phase) (scratch : List Byte) (cmd : Byte) (len : Half) (payload : List Byte) (csum : Word) : State :=
  { State.reset with
    phase := p, scratch := scratch, cmd := cmd, len := len, payload := payload, csum := csum
    pbuf := Memory.ofBytes (if p = .payload then scratch else payload) }

/-- The next state of an outcome, if it is one. -/
def next? : Result → Option State
  | .next s => some s
  | .fault _ => none
  | .refused _ => none

/-- Some part of the next state. -/
def after {α : Type} (o : Result) (part : State → α) : Option α := (next? o).map part

/-- An edge with every line low, and a free timestamp. -/
def quiet : PortIn :=
  { rst := false, softReset := false, inValid := false, inData := 0, recReady := false, plAddr := 0
    ts := Config.timestamp 0, logSel := false, logIdx := 0 }

/-- C{0,2,0x50}, which triggers by default. -/
def hit : Record := .classification 0x00 0x02 0x50

/-- C{0,3,0x40}, which does not. -/
def miss : Record := .classification 0x00 0x03 0x40

/-- The frame of WE-1. -/
def we1 : Frame := { command := 0x01, length := 5, payload := [0x00, 0x02, 0x50, 0x03, 0x40], checksum := 0 }

/-- The frame of WE-2. -/
def we2 : Frame := { command := 0x02, length := 7, payload := [0x00, 0x01, 0x0A, 0x0B, 0x05, 0x06, 0x64], checksum := 0 }

/-- A frame with no payload. -/
def empty (c : Byte) : Frame := { command := c, length := 0, payload := [], checksum := 0 }

/-- A frame with the longest payload. -/
def longest (c : Byte) : Frame := { command := c, length := 65535, payload := List.replicate 65535 0, checksum := 0 }

/-- End with the held frame of DV-D21. -/
def held : State := at_ .atEnd [] 0x01 1 [0x02] 0

/-- A frame shown in its window, with two records still to be taken. -/
def shown : State :=
  { State.reset with hold := some we1, frameValid := true, pbuf := Memory.ofBytes we1.payload, pending := [hit, miss] }

/-! ### WellFormed refuses -/

theorem test_wf_wsSkip_startMarker : (Instr.feedWsSkip 0xFD).wf = false := by decide
theorem test_wf_endStall_endMarker : (Instr.feedEndStall 0xED).wf = false := by decide
theorem test_wf_frame_length : Frame.wf { we1 with length := 4 } = false := by decide
theorem test_wf_classification_command : (Instr.interpClassification we2).wf = false := by decide
theorem test_wf_classification_length : (Instr.interpClassification { we1 with length := 6 }).wf = false := by decide
theorem test_wf_detection_command : (Instr.interpDetection we1).wf = false := by decide
theorem test_wf_detection_length : (Instr.interpDetection { we2 with payload := [] }).wf = false := by decide
theorem test_wf_reserved0_command : (Instr.interpReserved0 we1).wf = false := by decide
theorem test_wf_reserved0_length : (Instr.interpReserved0 { empty 0 with length := 1 }).wf = false := by decide
theorem test_wf_unknown_zero : (Instr.interpUnknown (empty 0)).wf = false := by decide
theorem test_wf_unknown_one : (Instr.interpUnknown we1).wf = false := by decide
theorem test_wf_unknown_two : (Instr.interpUnknown we2).wf = false := by decide
theorem test_wf_unknown_length : (Instr.interpUnknown { empty 7 with length := 1 }).wf = false := by decide
theorem test_wf_every_row : [Instr.feedWsStart, .feedWsSkip 0, .feedHdrAcc 0, .feedHdrDone 0, .feedPlAcc 0, .feedPlDone 0,
    .feedCkAcc 0, .feedCkDone 0, .feedEndEmit, .feedEndStall 0, .reset, .rst, .interpClassification we1, .interpDetection we2,
    .interpReserved0 (empty 0), .interpUnknown (empty 3), .routeTrigger hit, .routeNone miss,
    .logPushRaw (Config.timestamp 0) 0, .logPushRecord (Config.timestamp 0) hit, .logSnapshot .raw].all Instr.wf = true := by
  decide

/-! ### Decoding: one word or more for every constructor, bit by bit (R70: phase code in bits 10:8, byte in bits 7:0) -/

theorem test_decode_wsStart : decode (.feed 0b000_11111101 0 0) = .ok .feedWsStart := by decide
theorem test_decode_wsSkip : decode (.feed 0b000_11101101 0 0) = .ok (.feedWsSkip 0xED) := by decide
theorem test_decode_hdrAcc : decode (.feed 0b001_11111101 0 0) = .ok (.feedHdrAcc 0xFD) := by decide
theorem test_decode_hdrDone : decode (.feed 0b001_00000101 2 0) = .ok (.feedHdrDone 0x05) := by decide
theorem test_decode_hdr_noRow : decode (.feed 0b001_00000101 3 0) = .error (.noFeedRow 0x105) := by decide
theorem test_decode_plAcc : decode (.feed 0b010_00000010 1 5) = .ok (.feedPlAcc 0x02) := by decide
theorem test_decode_plDone : decode (.feed 0b010_11101101 0 1) = .ok (.feedPlDone 0xED) := by decide
theorem test_decode_pl_noRow : decode (.feed 0b010_11101101 0 0) = .error (.noFeedRow 0x2ED) := by decide
theorem test_decode_ckAcc : decode (.feed 0b011_11101101 2 0) = .ok (.feedCkAcc 0xED) := by decide
theorem test_decode_ckDone : decode (.feed 0b011_00010010 3 0) = .ok (.feedCkDone 0x12) := by decide
theorem test_decode_endEmit : decode (.feed 0b100_11101101 0 0) = .ok .feedEndEmit := by decide
theorem test_decode_endStall : decode (.feed 0b100_11111101 0 0) = .ok (.feedEndStall 0xFD) := by decide
theorem test_decode_badPhase : decode (.feed 0b101_11111101 0 0) = .error (.phaseCode 5) := by decide
theorem test_decode_reset : decode (.control true false) = .ok .reset := by decide
theorem test_decode_rst : decode (.control true true) = .ok .rst := by decide
theorem test_decode_noLine : decode (.control false false) = .error .noResetLine := by decide
theorem test_decode_classification : decode (.command we1) = .ok (.interpClassification we1) := by decide
theorem test_decode_detection : decode (.command we2) = .ok (.interpDetection we2) := by decide
theorem test_decode_reserved0 : decode (.command (empty 0b00000000)) = .ok (.interpReserved0 (empty 0)) := by decide
/-- One command byte under each of the seven rows of INTERP_UNKNOWN. -/
theorem test_decode_unknown :
    [0b00000011, 0b00000111, 0b00001000, 0b00011111, 0b00100000, 0b01111111, 0b10000000].all
      (fun c => decode (.command (empty c)) == .ok (.interpUnknown (empty c))) = true := by decide
theorem test_decode_notAFrame : decode (.command { we1 with length := 4 }) = .error .notAFrame := by decide
theorem test_decode_route : decode (.record hit 2) = .ok (.routeTrigger hit) := by decide
theorem test_decode_routeNone : decode (.record miss 2) = .ok (.routeNone miss) := by decide
theorem test_decode_pushRaw : decode (.pushRaw (Config.timestamp 0) 0xFD) = .ok (.logPushRaw (Config.timestamp 0) 0xFD) := rfl
theorem test_decode_pushRecord :
    decode (.pushRecord (Config.timestamp 0) hit) = .ok (.logPushRecord (Config.timestamp 0) hit) := rfl
theorem test_decode_snapshot_raw : decode (.snapshot false) = .ok (.logSnapshot .raw) := by decide
theorem test_decode_snapshot_decoded : decode (.snapshot true) = .ok (.logSnapshot .decoded) := by decide

/-- Numbers of the opcode table: a FEED key in two bytes, a command byte in one (log entries 15 and 16). -/
theorem test_tableWord_feed : decodeTableWord 16 0x4ED = some .feedEndEmit := by decide
theorem test_tableWord_command : decodeTableWord 8 0x02 = some (.interpDetection (empty 2)) := by decide
theorem test_tableWord_tooWide : decodeTableWord 16 0x800 = none := by decide
theorem test_withFetchWord_feed :
    after (step (State.reset.withFetchWord 16 0x1FD)) (fun t => (t.phase, t.scratch)) = some (.header, [0xFD]) := by decide
theorem test_withFetchWord_command :
    after (step (State.reset.withFetchWord 8 0x01)) (fun t => t.pending) = some [] := by decide

/-- DV-S2: the nine bytes of a frame with an empty payload. -/
theorem test_parseWire_empty : parseWire [0xFD, 0x01, 0x00, 0x00, 0xAA, 0xBB, 0xCC, 0xDD, 0xED, 0x11] =
    .ok ({ command := 1, length := 0, payload := [], checksum := 0xDDCCBBAA }, [0x11]) := by decide
/-- DV-S3: marker values inside a frame. -/
theorem test_wire_markers : ({ command := 0xED, length := 2, payload := [0xFD, 0xED], checksum := 0xFDEDFDED } : Frame).wire =
    [0xFD, 0xED, 0x02, 0x00, 0xFD, 0xED, 0xED, 0xFD, 0xED, 0xFD, 0xED] := by decide
theorem test_parseWire_noStart : parseWire [0xED, 1, 0, 0, 0, 0, 0, 0, 0xED] = .error .noStartMarker := by decide
theorem test_parseWire_noEnd : parseWire [0xFD, 1, 0, 0, 0, 0, 0, 0, 0x55] = .error .noEndMarker := by decide
theorem test_parseWire_short : parseWire [0xFD, 1, 2, 0, 7, 0, 0, 0, 0] = .error .truncated := by decide
/-- The `frame` line of P1. -/
theorem test_line_frame : (Line.frame 0x01 0x04030201 [0x05, 0x02, 0x63, 0x09, 0x10, 0x02]).encoding =
    [0xFD, 0x01, 0x06, 0x00, 0x05, 0x02, 0x63, 0x09, 0x10, 0x02, 0x01, 0x02, 0x03, 0x04, 0xED] := by decide

/-! ### One step of each row -/

/-- DV-D1. -/
theorem test_wsStart : after (exec .feedWsStart State.reset) (fun t => (t.phase, t.scratch)) = some (.header, []) := by decide
/-- DV-D3. -/
theorem test_wsSkip : after (exec (.feedWsSkip 0xED) State.reset) (fun t => (t.phase, t.scratch)) = some (.waitStart, []) := by
  decide
/-- DV-D6. -/
theorem test_hdrAcc : after (exec (.feedHdrAcc 0x05) (at_ .header [0x01] 0 0 [] 0)) (fun t => (t.phase, t.scratch)) =
    some (.header, [0x01, 0x05]) := by decide
/-- DV-D10. -/
theorem test_hdrDone : after (exec (.feedHdrDone 0x01) (at_ .header [0x01, 0x00] 0 0 [] 0))
    (fun t => (t.phase, t.scratch, t.cmd, t.len)) = some (.payload, [], 0x01, 256) := by decide
/-- DV-D8. -/
theorem test_hdrDone_zero : after (exec (.feedHdrDone 0x00) (at_ .header [0x01, 0x00] 0 7 [] 0))
    (fun t => (t.phase, t.scratch, t.cmd, t.len)) = some (.checksum, [], 0x01, 0) := by decide
/-- DV-D12. -/
theorem test_plAcc : after (exec (.feedPlAcc 0x02) (at_ .payload [0x00] 0x01 5 [] 0))
    (fun t => (t.phase, t.scratch, t.pbuf)) = some (.payload, [0x00, 0x02], [(0, 0x00), (1, 0x02)]) := by decide
/-- DV-D15. -/
theorem test_plDone : after (exec (.feedPlDone 0x40) (at_ .payload [0x00, 0x02, 0x50, 0x03] 0x01 5 [] 0))
    (fun t => (t.phase, t.scratch, t.payload, t.pbuf.read 4)) =
      some (.checksum, [], [0x00, 0x02, 0x50, 0x03, 0x40], some 0x40) := by decide
/-- DV-D17. -/
theorem test_ckAcc : after (exec (.feedCkAcc 0xFD) (at_ .checksum [0xAA, 0xED] 0x01 0 [] 0))
    (fun t => (t.phase, t.scratch)) = some (.checksum, [0xAA, 0xED, 0xFD]) := by decide
/-- DV-D18. -/
theorem test_ckDone : after (exec (.feedCkDone 0x12) (at_ .checksum [0x78, 0x56, 0x34] 0x01 0 [] 0))
    (fun t => (t.phase, t.scratch, t.csum)) = some (.atEnd, [], 0x12345678) := by decide
/-- DV-D21. -/
theorem test_endEmit : after (exec .feedEndEmit held) (fun t => (t.phase, t.payload, t.frames)) =
    some (.waitStart, [], [{ command := 0x01, length := 1, payload := [0x02], checksum := 0 }]) := by decide
/-- DV-D22. -/
theorem test_endStall : after (exec (.feedEndStall 0xFD) held) (fun t => (t.phase, t.payload, t.frames)) =
    some (.atEnd, [0x02], []) := by decide
/-- DV-D25. -/
theorem test_reset : after (exec .reset (at_ .payload [0x00, 0x02] 0x01 5 [] 0))
    (fun t => (t.phase, t.scratch, t.payload)) = some (.waitStart, [], []) := by decide
/-- DV-D26. -/
theorem test_reset_atEnd : after (exec .reset held) (fun t => (t.phase, t.payload, t.frames)) = some (.waitStart, [], []) := by
  decide
/-- DV-L6, DV-L7: the trace under RESET and under RST. -/
theorem test_reset_trace : after (exec .reset { held with traceRaw := List.replicate 5 ⟨Config.timestamp 0, 0⟩ })
    (fun t => t.traceRaw.length) = some 5 := by decide
theorem test_rst : after (exec .rst { shown with traceRaw := List.replicate 5 ⟨Config.timestamp 0, 0⟩ })
    (fun t => (t.phase, t.traceRaw.length, t.pending, t.hold)) = some (.waitStart, 0, [], none) := by decide
/-- WE-1. -/
theorem test_classification : after (exec (.interpClassification we1) State.reset) (fun t => t.pending) = some [hit, miss] := by
  decide
/-- DV-I5. -/
theorem test_classification_tail : after
    (exec (.interpClassification { command := 1, length := 4, payload := [0x07, 0x02, 0x09, 0x05], checksum := 0 }) State.reset)
    (fun t => t.pending) = some [.classification 0x07 0x02 0x09] := by decide
/-- WE-2. -/
theorem test_detection : after (exec (.interpDetection we2) State.reset) (fun t => t.pending) =
    some [.detection 0 1 10 11 5 6 100] := by decide
/-- DV-I8. -/
theorem test_detection_short : after
    (exec (.interpDetection { command := 2, length := 6, payload := [0, 1, 2, 3, 4, 5], checksum := 0 }) State.reset)
    (fun t => t.pending) = some [] := by decide
/-- DV-I13. -/
theorem test_reserved0 : after (exec (.interpReserved0 { we1 with command := 0 }) State.reset) (fun t => t.pending) = some [] := by
  decide
/-- The example of R124. -/
theorem test_unknown : after
    (exec (.interpUnknown { command := 7, length := 3, payload := [2, 2, 2], checksum := 0 }) State.reset)
    (fun t => (t.pending, t.triggers)) = some ([], []) := by decide
/-- DV-R2. -/
theorem test_routeTrigger : after (exec (.routeTrigger (.detection 0 2 0x0A 0x0B 5 6 0x64)) State.reset) (fun t => t.triggers) =
    some [⟨.detection 0 2 0x0A 0x0B 5 6 0x64⟩] := by decide
/-- DV-R4. -/
theorem test_routeNone : after (exec (.routeNone (.classification 2 5 2)) State.reset) (fun t => t.triggers) = some [] := by
  decide
/-- DV-L1: the fourth push. -/
theorem test_logPushRaw : after
    (exec (.logPushRaw (Config.timestamp 3) 0xD)
      { State.reset with logCapacity := 3, traceRaw := [0xA, 0xB, 0xC].map (RawEntry.mk (Config.timestamp 0)) })
    (fun t => t.traceRaw.map RawEntry.value) = some [0xB, 0xC, 0xD] := by decide
/-- The example of R152. -/
theorem test_logPushRecord : after (exec (.logPushRecord (Config.timestamp 0) hit) State.reset)
    (fun t => t.traceRec.map RecEntry.record) = some [hit] := by decide
/-- DV-L2. -/
theorem test_logSnapshot_empty : after (exec (.logSnapshot .raw) State.reset) (fun t => t.snapshots) = some [.raw []] := by
  decide
/-- The end of DV-L4. -/
theorem test_logSnapshot : after
    (exec (.logSnapshot .decoded) { State.reset with traceRec := [hit, miss].map (RecEntry.mk (Config.timestamp 0)) })
    (fun t => t.snapshots.map fun
      | .raw _ => []
      | .decoded es => es.map RecEntry.record) = some [[miss, hit]] := by decide

/-! ### The ports -/

/-- R79, R80, R78: the first record of WE-1 is shown, it triggers, and the input is held. -/
theorem test_ports_record :
    let o := portOut { quiet with inValid := true } shown
    (o.recValid, o.trigValid, o.inReady, o.record.id, o.record.x, o.record.conf) = (true, true, false, 2, 0, 0x50) := by decide
/-- R77: the payload read port in the window. -/
theorem test_ports_payload : (portOut { quiet with plAddr := 2 } shown).plData = 0x50 := by decide
/-- R79: an edge that takes the record. -/
theorem test_edge_take : after (clockEdge { quiet with recReady := true } shown)
    (fun t => (t.pending, t.records, t.triggers, t.frameValid)) = some ([miss], [hit], [⟨hit⟩], false) := by decide
/-- R76, R108: an edge that accepts the end marker of WE-5. -/
theorem test_edge_emit : after (clockEdge { quiet with inValid := true, inData := 0xED } held)
    (fun t => (t.phase, t.frameValid, t.pending)) = some (.waitStart, true, []) := by decide
/-- R73: the widths of `log_idx` and `log_count` at the default capacity, and at the least one. -/
theorem test_log_widths : (logIdxWidth 100, logCountWidth 100, logIdxWidth 1, logCountWidth 1) = (7, 7, 1, 1) := by decide

/-- R38: the third checksum byte is still to come, and the two that arrived stand in lanes 0 and 1 of CSUM. -/
theorem test_registers_checksum :
    let r := (at_ .checksum [0x78, 0x56] 0x01 1 [0x02] 0).hwRegs
    (r.phase, r.cnt, r.csum.extractLsb' 0 8, r.csum.extractLsb' 8 8) = (3, 2, 0x78, 0x56) := by
  have h0 := le32_wordByte0 0x78 0x56 (Config.idleChecksum 2 0) (Config.idleChecksum 3 0)
  have h1 := le32_wordByte1 0x78 0x56 (Config.idleChecksum 2 0) (Config.idleChecksum 3 0)
  exact Prod.ext rfl (Prod.ext rfl (Prod.ext h0 h1))
/-- R38: HDR0 and HDR1 while in Header. -/
theorem test_registers_header :
    let r := (at_ .header [0x01, 0x05] 0 0 [] 0).hwRegs
    (r.phase, r.cnt, r.hdr0, r.hdr1) = (1, 2, 0x01, 0x05) := by decide
/-! ### States and operands that meet the hypotheses of the statements -/

/-- Scanning, between two frames. -/
def scanning : State := at_ .waitStart [] 0x01 1 [] 0

/-- The third header byte is awaited. -/
def inHeader : State := at_ .header [0x01, 0x00] 0x01 1 [] 0

/-- One of five payload bytes is there. -/
def inPayload : State := at_ .payload [0x00] 0x01 5 [] 0

/-- The fourth checksum byte is awaited. -/
def inChecksum : State := at_ .checksum [0x78, 0x56, 0x34] 0x01 1 [0x02] 0

theorem inv_scanning : scanning.Inv := by
  constructor <;> simp [scanning, at_, State.reset, State.buffered]
theorem inv_inHeader : inHeader.Inv := by
  constructor <;> simp [inHeader, at_, State.reset, State.buffered]
theorem inv_inPayload : inPayload.Inv := by
  constructor <;> simp [inPayload, at_, State.reset, State.buffered]
theorem inv_inChecksum : inChecksum.Inv := by
  constructor <;> simp [inChecksum, at_, State.reset, State.buffered]
theorem inv_held : held.Inv := by
  constructor <;> simp [held, at_, State.reset, State.buffered]
theorem inv_shown : shown.Inv := by
  constructor <;> simp [shown, State.reset, State.buffered, we1, Frame.wf]

/-- A state with an edge presented. -/
def withEdge (p : PortIn) (s : State) : State := s.setInputs [.edge p]

/-- A state with one operation presented. -/
def withOp (o : Operation) (s : State) : State := s.setInputs [.op o]

theorem witness_StartMarkerBeginsAFrame : scanning.phase = .waitStart := rfl
theorem witness_OtherBytesAreSkippedWhileScanning : scanning.phase = .waitStart ∧ (0xED : Byte) ≠ 0xFD := by decide
theorem witness_HeaderByteIsCollected_first :
    (at_ .header [] 0 0 [] 0).phase = .header ∧ (at_ .header [] 0 0 [] 0).scratch.length < 2 := by decide
theorem witness_HeaderByteIsCollected_second :
    (at_ .header [0x01] 0 0 [] 0).phase = .header ∧ (at_ .header [0x01] 0 0 [] 0).scratch.length < 2 := by decide
/-- Both outcomes of the third byte: 0x00 gives length 0 after a low byte 0x00, 0x01 gives 256. -/
theorem witness_HeaderCompletes : inHeader.phase = .header ∧ inHeader.scratch = [0x01, 0x00] ∧
    le16 0x00 0x00 = 0 ∧ le16 0x00 0x01 ≠ 0 := by decide
theorem witness_PayloadByteIsCollected : inPayload.phase = .payload ∧ inPayload.scratch.length + 1 < inPayload.len.toNat := by
  decide
theorem witness_PayloadCompletes_one :
    let s := at_ .payload [] 0x01 1 [] 0
    s.phase = .payload ∧ s.scratch.length + 1 = s.len.toNat := by decide
theorem witness_PayloadCompletes_longest :
    let s := at_ .payload (List.replicate 65534 0) 0x01 65535 [] 0
    s.phase = .payload ∧ s.scratch.length + 1 = s.len.toNat := ⟨rfl, by simp only [at_, List.length_replicate]; rfl⟩
theorem witness_ChecksumByteIsCollected_first :
    (at_ .checksum [] 1 0 [] 0).phase = .checksum ∧ (at_ .checksum [] 1 0 [] 0).scratch.length < 3 := by decide
theorem witness_ChecksumByteIsCollected_third :
    (at_ .checksum [0xAA, 0xED] 1 0 [] 0).phase = .checksum ∧ (at_ .checksum [0xAA, 0xED] 1 0 [] 0).scratch.length < 3 := by
  decide
theorem witness_ChecksumCompletes : inChecksum.phase = .checksum ∧ inChecksum.scratch = [0x78, 0x56, 0x34] := by decide
theorem witness_EndMarkerEmitsTheFrame : held.phase = .atEnd := rfl
theorem witness_OtherBytesStallInEnd : held.phase = .atEnd ∧ (0xFD : Byte) ≠ 0xED := by decide
/-- The clause about PBUF. -/
theorem witness_SoftResetAbandonsThePartialFrame : shown.hold.isSome = true := rfl
/-- The clause about `in_ready`. -/
theorem witness_HardResetGivesTheResetState : ({ quiet with rst := true } : PortIn).rst = true := rfl

theorem witness_ClassificationYieldsPairs : we1.wf = true ∧ we1.command = 0x01 ∧ 0 < (we1.length.toNat - 1) / 2 := by decide
theorem witness_ClassificationYieldsPairs_empty : (empty 1).wf = true ∧ (empty 1).command = 0x01 := by decide
/-- A truncated tail: one unpaired byte after the subtype. -/
theorem witness_ClassificationYieldsPairs_tail :
    let f : Frame := { command := 1, length := 2, payload := [7, 2], checksum := 0 }
    f.wf = true ∧ f.command = 0x01 ∧ 2 ≤ f.length.toNat ∧ (f.length.toNat - 1) % 2 = 1 := by decide
theorem witness_DetectionYieldsTuples : we2.wf = true ∧ we2.command = 0x02 ∧ 0 < (we2.length.toNat - 1) / 6 := by decide
theorem witness_DetectionYieldsTuples_empty : (empty 2).wf = true ∧ (empty 2).command = 0x02 := by decide
/-- A truncated tail: five bytes after the subtype. -/
theorem witness_DetectionYieldsTuples_tail :
    let f : Frame := { command := 2, length := 6, payload := [0, 1, 2, 3, 4, 5], checksum := 0 }
    f.wf = true ∧ f.command = 0x02 ∧ 1 ≤ f.length.toNat ∧ (f.length.toNat - 1) % 6 ≠ 0 := by decide
theorem witness_OtherCommandsYieldNothing_reserved : (empty 0).wf = true ∧ (empty 0).command = 0x00 := by decide
theorem witness_OtherCommandsYieldNothing_least : (empty 3).wf = true ∧ 3 ≤ (empty 3).command.toNat := by decide
theorem witness_OtherCommandsYieldNothing_greatest : (empty 0xFF).wf = true ∧ 3 ≤ (empty 0xFF).command.toNat := by decide
theorem witness_EveryFrameIsInterpreted : we1.wf = true ∧ Frame.wf { we1 with length := 4 } = false := by decide
theorem longest_wf (c : Byte) : (longest c).wf = true := by
  simp only [longest, Frame.wf, List.length_replicate]; rfl
theorem witness_RecordCounts_classification :
    (longest 1).wf = true ∧ (longest 1).command = 0x01 ∧ (longest 1).length.toNat = 65535 := ⟨longest_wf 1, rfl, rfl⟩
theorem witness_RecordCounts_detection :
    (longest 2).wf = true ∧ (longest 2).command = 0x02 ∧ (longest 2).length.toNat = 65535 := ⟨longest_wf 2, rfl, rfl⟩

theorem witness_RecordsAreRoutedById_classification :
    (∃ st c, hit = .classification st 2 c) ∧ (2 : Byte) = State.reset.triggerId := ⟨⟨0, 0x50, rfl⟩, rfl⟩
theorem witness_RecordsAreRoutedById_detection :
    (∃ st x y w h c, Record.detection 0 2 1 1 1 1 1 = .detection st 2 x y w h c) ∧ (2 : Byte) = State.reset.triggerId :=
  ⟨⟨0, 1, 1, 1, 1, 1, rfl⟩, rfl⟩
theorem witness_RecordsAreRoutedById_none :
    (∃ st c, miss = .classification st 3 c) ∧ (3 : Byte) ≠ State.reset.triggerId := ⟨⟨0, 0x40, rfl⟩, by decide⟩

/-- The least capacity, and a channel that is full. -/
theorem witness_PushesAppendAndEvict :
    let s := { State.reset with logCapacity := 1, traceRaw := [⟨Config.timestamp 0, 0⟩] }
    1 ≤ s.logCapacity ∧ s.traceRaw.length + 1 > s.logCapacity := by decide
theorem witness_EvictionIsStrictFifo :
    1 ≤ State.reset.logCapacity ∧ State.reset.traceRaw = [] ∧ State.reset.traceRec = [] := ⟨by decide, rfl, rfl⟩

theorem witness_DecodeEncodeRoundTrip : (Instr.feedEndStall 0xFD).wf = true ∧ (Instr.interpUnknown (empty 7)).wf = true := by
  decide
theorem witness_FrameSizes : (empty 1).wf = true ∧ (longest 1).wf = true := ⟨by decide, longest_wf 1⟩
theorem witness_FramePseudoOperationExpands :
    ([] : List Byte).length ≤ 65535 ∧ (List.replicate 65535 (0 : Byte)).length ≤ 65535 :=
  ⟨by decide, Nat.le_of_eq List.length_replicate⟩

theorem witness_ExactlyOneFeedRowApplies : inPayload.Inv := inv_inPayload
/-- The inner clause: a row of the same byte that completes. -/
theorem witness_ExactlyOneFeedRowApplies_row :
    (Instr.feedPlAcc 0xFD).wf = true ∧ (Instr.feedPlAcc 0xFD).fedByte = some 0xFD ∧
      ∃ u, exec (.feedPlAcc 0xFD) inPayload = .next u := ⟨by decide, rfl, _, rfl⟩
theorem witness_RowsCompleteExactlyWhereSelected_feed :
    (Instr.feedWsSkip 0xED).wf = true ∧ (Instr.feedWsSkip 0xED).fedByte = some 0xED ∧
      decode (feedWord 0xED held) ≠ .ok (.feedWsSkip 0xED) := by decide
theorem witness_RowsCompleteExactlyWhereSelected_command :
    we1.wf = true ∧ decode (.command we1) ≠ .ok (.interpDetection we1) := by decide
/-- Both kinds of refusal, and the capacity that the log pushes refuse. -/
theorem witness_NoInstructionFaults :
    exec .feedWsStart held = .refused (.rowNotApplicable "FEED_WS_START") ∧
      ({ State.reset with logCapacity := 0 } : State).logCapacity = 0 := ⟨rfl, rfl⟩
theorem witness_PhaseCodes : 0x500 ≤ (0x500 : BitVec 11).toNat ∧ 0x500 ≤ (0x7FF : BitVec 11).toNat ∧
    5 ≤ (5 : BitVec 3).toNat ∧ 5 ≤ (7 : BitVec 3).toNat := by decide

theorem witness_StepRunsTheSelectedRow :
    (withOp .reset held).inputs = .op .reset :: [] ∧ (∀ b, Operation.reset ≠ .feed b) ∧
      decode (selectWord .reset (withOp .reset held)) = .ok .reset := ⟨rfl, by simp, by decide⟩
/-- A byte that emits nothing. -/
theorem witness_FeedStepRunsTheSelectedRows : ∃ s1 s2,
    (withOp (.feed 0xFD) scanning).inputs = .op (.feed 0xFD) :: [] ∧ (withOp (.feed 0xFD) scanning).pending = [] ∧
    exec (.logPushRaw (Config.timestamp 0) 0xFD)
      { withOp (.feed 0xFD) scanning with inputs := [], draws := 1, hold := none, frameValid := false, pbuf := [] } =
        .next s1 ∧
    decode (feedWord 0xFD s1) = .ok .feedWsStart ∧ exec .feedWsStart s1 = .next s2 := ⟨_, _, rfl, rfl, rfl, rfl, rfl⟩
/-- The end marker, with the row its frame selects. -/
theorem witness_FeedStepRunsTheSelectedRows_emit : ∃ s1 s2 s3,
    (withOp (.feed 0xED) held).inputs = .op (.feed 0xED) :: [] ∧ (withOp (.feed 0xED) held).pending = [] ∧
    exec (.logPushRaw (Config.timestamp 0) 0xED)
      { withOp (.feed 0xED) held with inputs := [], draws := 1, hold := none, frameValid := false } = .next s1 ∧
    decode (feedWord 0xED s1) = .ok .feedEndEmit ∧ exec .feedEndEmit s1 = .next s2 ∧
    decode (.command s1.heldFrame) = .ok (.interpClassification s1.heldFrame) ∧
    exec (.interpClassification s1.heldFrame) s2 = .next s3 := ⟨_, _, _, rfl, rfl, rfl, rfl, rfl, rfl, rfl⟩
theorem inv_withOp {s : State} (h : s.Inv) (o : Operation) : (withOp o s).Inv := h.setInputs _
theorem inv_withEdge {s : State} (h : s.Inv) (p : PortIn) : (withEdge p s).Inv := h.setInputs _
theorem witness_FeedTransaction : (withOp (.feed 0xED) held).Inv ∧ (withOp (.feed 0xED) held).pending = [] ∧
    (withOp (.feed 0xED) held).inputs = .op (.feed 0xED) :: [] := ⟨inv_withOp inv_held _, rfl, rfl⟩
theorem witness_ResetTransactions : (withOp .reset held).inputs = .op .reset :: [] ∧
    (withOp .rst shown).inputs = .op .rst :: [] := ⟨rfl, rfl⟩
theorem witness_IdleKeepsTheState : held.inputs = [] := rfl

theorem witness_EveryStepKeepsTheInvariant : ∃ t, (withOp (.feed 0xED) held).Inv ∧ step (withOp (.feed 0xED) held) = .next t :=
  ⟨_, inv_withOp inv_held _, rfl⟩
theorem witness_EveryStepKeepsTheInvariant_edge :
    ∃ t, (withEdge quiet shown).Inv ∧ step (withEdge quiet shown) = .next t := ⟨_, inv_withEdge inv_shown _, rfl⟩
theorem witness_ExternalRunsNeverStop : (withEdge quiet shown).Inv ∧
    ∀ i ∈ (withEdge quiet shown).inputs, i.external = true := ⟨inv_withEdge inv_shown _, by simp [withEdge, Input.external]⟩
theorem witness_ConfigurationIsFixed : ∃ t, step (withOp .rst held) = .next t := ⟨_, rfl⟩
theorem witness_PayloadBufferHoldsThePayload : inPayload.Inv ∧ inPayload.phase = .payload ∧ 0 < inPayload.scratch.length :=
  ⟨inv_inPayload, rfl, by decide⟩
theorem witness_PayloadBufferHoldsThePayload_atEnd : held.Inv ∧ held.phase = .atEnd ∧ 0 < held.len.toNat :=
  ⟨inv_held, rfl, by decide⟩
theorem witness_PayloadBufferHoldsThePayload_window : shown.Inv ∧ shown.hold = some we1 ∧ 4 < we1.length.toNat :=
  ⟨inv_shown, rfl, by decide⟩
theorem witness_RegistersHoldTheState_header : inHeader.Inv ∧ inHeader.phase = .header ∧
    inHeader.scratch[0]? = some 0x01 ∧ inHeader.scratch[1]? = some 0x00 := ⟨inv_inHeader, rfl, rfl, rfl⟩
theorem witness_RegistersHoldTheState_payload : inPayload.Inv ∧ inPayload.phase = .payload ∧ 0 < inPayload.scratch.length :=
  ⟨inv_inPayload, rfl, by decide⟩
theorem witness_RegistersHoldTheState_checksum :
    inChecksum.Inv ∧ inChecksum.phase = .checksum ∧ 2 < inChecksum.scratch.length ∧ 0 < inChecksum.len.toNat :=
  ⟨inv_inChecksum, rfl, by decide, by decide⟩
theorem witness_RegistersHoldTheState_atEnd : held.Inv ∧ held.phase = .atEnd ∧ 0 < held.len.toNat := ⟨inv_held, rfl, by decide⟩

theorem witness_EndMarkerEmitsTheFrame_frame : held.phase = .atEnd ∧ held.Inv := ⟨rfl, inv_held⟩
theorem witness_DecodingStartsAfreshAfterAReset : inPayload.Inv ∧ held.Inv ∧
    (∃ t, exec .reset inPayload = .next t) ∧ ∃ t, exec .rst held = .next t := ⟨inv_inPayload, inv_held, ⟨_, rfl⟩, _, rfl⟩
theorem witness_FeedRowsFrame : ∃ t, (Instr.feedPlAcc 0x02).format = .feed ∧ exec (.feedPlAcc 0x02) inPayload = .next t :=
  ⟨_, rfl, rfl⟩
theorem witness_OnlyBytesAndResetsChangeTheDecoder : ∃ t, (Instr.interpClassification we1).format ≠ .feed ∧
    (Instr.interpClassification we1).format ≠ .control ∧ exec (.interpClassification we1) held = .next t :=
  ⟨_, by decide, by decide, rfl⟩
/-- The clause about an edge at which a record is taken. -/
theorem witness_OnlyBytesAndResetsChangeTheDecoder_edge : ∃ t, quiet.rst = false ∧ quiet.softReset = false ∧
    accepts { quiet with recReady := true } shown = false ∧ clockEdge { quiet with recReady := true } shown = .next t :=
  ⟨_, rfl, rfl, rfl, rfl⟩
theorem witness_OnlyTheEndMarkerEmits_byte : decode (feedWord 0xED held) = .ok .feedEndEmit := by decide
theorem witness_OnlyTheEndMarkerEmits : (∃ t, exec .feedEndEmit held = .next t) ∧ ∃ t, exec .reset held = .next t :=
  ⟨⟨_, rfl⟩, _, rfl⟩

/-- Two states that differ in their checksum, at the byte that emits the frame. -/
theorem witness_ChecksumInfluencesNothing : ∃ s1,
    (withOp (.feed 0xED) held).butChecksum = (withOp (.feed 0xED) { held with csum := 7 }).butChecksum ∧
      step (withOp (.feed 0xED) held) = .next s1 := ⟨_, rfl, rfl⟩
/-- The clauses about the emitted frame and about the ports. -/
theorem witness_ChecksumInfluencesNothing_ports :
    held.phase = .atEnd ∧ held.butChecksum = { held with csum := 7 }.butChecksum := ⟨rfl, rfl⟩
theorem witness_TraceInfluencesNothing : ∃ s1,
    (withOp (.feed 0xED) held).butTrace =
        (withOp (.feed 0xED) { held with traceRaw := [⟨Config.timestamp 0, 1⟩] }).butTrace ∧
      step (withOp (.feed 0xED) held) = .next s1 := ⟨_, rfl, rfl⟩
theorem witness_TriggerIdChangesOnlyTriggers : ∃ s1,
    (withEdge { quiet with recReady := true } shown).butTriggers =
        (withEdge { quiet with recReady := true } { shown with triggerId := 3 }).butTriggers ∧
      step (withEdge { quiet with recReady := true } shown) = .next s1 := ⟨_, rfl, rfl⟩

theorem witness_ChunksDoNotMatter : scanning.inputs = [] := rfl
theorem witness_NoiseIsDiscarded : scanning.Inv ∧ scanning.phase = .waitStart ∧ scanning.pending = [] ∧
    ∀ b ∈ [(0x00 : Byte), 0xED, 0x7F], b ≠ 0xFD := ⟨inv_scanning, rfl, rfl, by decide⟩
theorem witness_LateEndMarkerEmitsTheHeldFrame : held.Inv ∧ held.phase = .atEnd ∧ held.pending = [] ∧
    ∀ b ∈ [(0x55 : Byte), 0xFD, 0x01], b ≠ 0xED := ⟨inv_held, rfl, rfl, by decide⟩
theorem witness_FedFramesAreEmitted : scanning.Inv ∧ scanning.phase = .waitStart ∧ scanning.pending = [] ∧ we1.wf = true ∧
    13 ≤ 8 + we1.length.toNat := ⟨inv_scanning, rfl, rfl, by decide, by decide⟩

theorem witness_EdgesRealiseTransactions : held.Inv ∧ held.pending = [] ∧
    noRstWhileBusy [{ quiet with inValid := true, inData := 0xED }, { quiet with recReady := true }, { quiet with rst := true }]
      held = true := ⟨inv_held, rfl, by decide⟩
theorem witness_FrameValidPulses : ∃ t,
    clockEdge { quiet with inValid := true, inData := 0xED } held = .next t ∧ t.frameValid = true ∧
      accepts { quiet with inValid := true, inData := 0xED } held = true := ⟨_, rfl, rfl, rfl⟩
theorem witness_FrameWindow : shown.Inv ∧ shown.hold = some we1 ∧ (4 : BitVec 16).toNat < we1.length.toNat :=
  ⟨inv_shown, rfl, by decide⟩
theorem witness_FrameWindow_kept : ∃ t, clockEdge quiet shown = .next t ∧ quiet.rst = false ∧ accepts quiet shown = false :=
  ⟨_, rfl, rfl, rfl⟩
theorem witness_FrameWindow_closed : ∃ t,
    clockEdge { quiet with inValid := true } { shown with pending := [] } = .next t ∧
      accepts { quiet with inValid := true } { shown with pending := [] } = true := ⟨_, rfl, rfl⟩
theorem inv_shown_idle : ({ shown with pending := [] } : State).Inv :=
  inv_shown.congr rfl rfl rfl inv_shown.traceRaw inv_shown.traceRec
theorem witness_InputIsHeldWhileRecordsAreDelivered : ∃ t, clockEdge { quiet with recReady := true } shown = .next t :=
  ⟨_, rfl⟩
theorem witness_RecordHandshake_idle : held.pending = [] := rfl
theorem witness_RecordHandshake : shown.pending = hit :: [miss] ∧ 1 ≤ shown.logCapacity ∧
    hit = .classification 0x00 0x02 0x50 ∧ quiet.rst = false := ⟨rfl, by decide, rfl, rfl⟩
theorem witness_RecordHandshake_detection :
    let s := { shown with pending := [Record.detection 0 1 10 11 5 6 100] }
    s.pending = .detection 0 1 10 11 5 6 100 :: [] ∧ 1 ≤ s.logCapacity := ⟨rfl, by decide⟩
/-- R237: a consumer that is always ready does its duty. -/
theorem test_consumerDuty_ready : ConsumerDuty (fun _ => { quiet with recReady := true }) shown :=
  fun n _ _ _ => ⟨n, le_rfl, rfl⟩
/-- R237, I15: with a consumer that is never ready no byte is accepted at any edge. -/
theorem test_consumer_never_ready (n : Nat) : ∃ t, edgeRun (fun _ => { quiet with inValid := true }) n shown = .next t ∧
    accepts { quiet with inValid := true } t = false :=
  have ⟨t, h, _, ha⟩ := stalled_forever (e := fun _ => { quiet with inValid := true }) inv_shown rfl (fun _ => ⟨rfl, rfl⟩) n
  ⟨t, h, ha⟩

theorem witness_EdgePriorities : 1 ≤ shown.logCapacity ∧
    ({ quiet with rst := true, softReset := true, inValid := true } : PortIn).rst = true ∧
    ({ quiet with softReset := true, inValid := true } : PortIn).softReset = true ∧
    accepts quiet shown = false ∧ (shown.busy && quiet.recReady) = false := by decide
/-- The newest and the oldest entry of a channel with two. -/
theorem witness_TraceReadPort : ∃ s : State, s.Inv ∧ s.traceRaw.length = 2 ∧ s.traceRec.length = 2 :=
  ⟨{ scanning with
      traceRaw := [0xA, 0xB].map (RawEntry.mk (Config.timestamp 0))
      traceRec := [hit, miss].map (RecEntry.mk (Config.timestamp 0)) },
    inv_scanning.congr rfl rfl rfl (by decide) (by decide), rfl, rfl⟩

end Sys2Proof.Tests
end

/-! # The state: its invariant, its registers, its configuration (R31 to R41)

What an instruction does is said once, as a condition and an effect (`exec_eq_next`). -/

namespace Sys2Proof.Machine

/-! ### What an instruction does -/

/-- Where an instruction completes: its row's key and condition (R70, R121, R140, R141), and for a log push a capacity
(I7). -/
def applies (s : State) : Instr → Prop
  | .feedWsStart => s.phase = .waitStart
  | .feedWsSkip b => s.phase = .waitStart ∧ b ≠ Config.startMarker
  | .feedHdrAcc _ => s.phase = .header ∧ s.scratch.length < 2
  | .feedHdrDone _ => s.phase = .header ∧ s.scratch.length = 2
  | .feedPlAcc _ => s.phase = .payload ∧ s.scratch.length + 1 < s.len.toNat
  | .feedPlDone _ => s.phase = .payload ∧ s.scratch.length + 1 = s.len.toNat
  | .feedCkAcc _ => s.phase = .checksum ∧ s.scratch.length < 3
  | .feedCkDone _ => s.phase = .checksum ∧ s.scratch.length = 3
  | .feedEndEmit => s.phase = .atEnd
  | .feedEndStall b => s.phase = .atEnd ∧ b ≠ Config.endMarker
  | .reset => True
  | .rst => True
  | .interpClassification f => f.command = Config.cmdClassification
  | .interpDetection f => f.command = Config.cmdDetection
  | .interpReserved0 f => f.command = Config.cmdReserved0
  | .interpUnknown f =>
    f.command ≠ Config.cmdReserved0 ∧ f.command ≠ Config.cmdClassification ∧ f.command ≠ Config.cmdDetection
  | .routeTrigger r => r.id = s.triggerId
  | .routeNone r => r.id ≠ s.triggerId
  | .logPushRaw _ _ => s.logCapacity ≠ 0
  | .logPushRecord _ _ => s.logCapacity ≠ 0
  | .logSnapshot _ => True

/-- What an instruction makes of a state in which it completes. -/
def effect (s : State) : Instr → State
  | .feedWsStart => ((s.setScratch []).setPayload []).setPhase .header
  | .feedWsSkip _ => s
  | .feedHdrAcc b => s.setScratch (s.scratch ++ [b])
  | .feedHdrDone b => headerDone (s.scratch.getD 0 0) (le16 (s.scratch.getD 1 0) b) s
  | .feedPlAcc b => (s.setPbuf (s.pbuf.write s.scratch.length b)).setScratch (s.scratch ++ [b])
  | .feedPlDone b =>
    (((s.setPbuf (s.pbuf.write s.scratch.length b)).setPayload (s.scratch ++ [b])).setScratch []).setPhase .checksum
  | .feedCkAcc b => s.setScratch (s.scratch ++ [b])
  | .feedCkDone b =>
    ((s.setCsum (le32 (s.scratch.getD 0 0) (s.scratch.getD 1 0) (s.scratch.getD 2 0) b)).setScratch []).setPhase .atEnd
  | .feedEndEmit => ((s.setPayload []).setPhase .waitStart).emitFrame s.heldFrame
  | .feedEndStall _ => s
  | .reset => s.softReset
  | .rst => s.hardReset
  | .interpClassification f => s.yieldRecords (classify f.payload)
  | .interpDetection f => s.yieldRecords (detect f.payload)
  | .interpReserved0 _ => s
  | .interpUnknown _ => s
  | .routeTrigger r => s.emitTrigger r
  | .routeNone _ => s
  | .logPushRaw x b => s.setTraceRaw (pushBounded s.logCapacity s.traceRaw ⟨x, b⟩)
  | .logPushRecord x r => s.setTraceRec (pushBounded s.logCapacity s.traceRec ⟨x, r⟩)
  | .logSnapshot ch => s.emitSnapshot (s.snapshot ch)

/-- R103 by the number of header bytes collected. -/
theorem execFeedHdrDone_eq_next_length {b : Byte} {s t : State} : execFeedHdrDone b s = .next t ↔
    (s.phase = .header ∧ s.scratch.length = 2) ∧
      t = headerDone (s.scratch.getD 0 0) (le16 (s.scratch.getD 1 0) b) s := by
  rw [execFeedHdrDone_eq_next]
  constructor
  · rintro ⟨c, lo, hp, hs, rfl⟩
    simp [hp, hs]
  · rintro ⟨⟨hp, hl⟩, rfl⟩
    obtain ⟨c, lo, hs⟩ := List.length_eq_two.1 hl
    exact ⟨c, lo, hp, hs, by simp [hs]⟩

/-- R107 by the number of checksum bytes collected. -/
theorem execFeedCkDone_eq_next_length {b : Byte} {s t : State} : execFeedCkDone b s = .next t ↔
    (s.phase = .checksum ∧ s.scratch.length = 3) ∧
      t = ((s.setCsum (le32 (s.scratch.getD 0 0) (s.scratch.getD 1 0) (s.scratch.getD 2 0) b)).setScratch []).setPhase
        .atEnd := by
  rw [execFeedCkDone_eq_next]
  constructor
  · rintro ⟨c0, c1, c2, hp, hs, rfl⟩
    simp [hp, hs]
  · rintro ⟨⟨hp, hl⟩, rfl⟩
    obtain ⟨c0, c1, c2, hs⟩ := List.length_eq_three.1 hl
    exact ⟨c0, c1, c2, hp, hs, by simp [hs]⟩

/-- An instruction answers a next state exactly where it applies, and then its effect. -/
theorem exec_eq_next {i : Instr} {s t : State} : exec i s = .next t ↔ applies s i ∧ t = effect s i := by
  cases i with
  | feedWsStart => exact execFeedWsStart_eq_next
  | feedWsSkip b => exact execFeedWsSkip_eq_next
  | feedHdrAcc b => exact execFeedHdrAcc_eq_next
  | feedHdrDone b => exact execFeedHdrDone_eq_next_length
  | feedPlAcc b => exact execFeedPlAcc_eq_next
  | feedPlDone b => exact execFeedPlDone_eq_next
  | feedCkAcc b => exact execFeedCkAcc_eq_next
  | feedCkDone b => exact execFeedCkDone_eq_next_length
  | feedEndEmit => exact execFeedEndEmit_eq_next
  | feedEndStall b => exact execFeedEndStall_eq_next
  | reset => exact execReset_eq_next.trans (iff_of_eq (true_and _)).symm
  | rst => exact execRst_eq_next.trans (iff_of_eq (true_and _)).symm
  | interpClassification f => exact execInterpClassification_eq_next
  | interpDetection f => exact execInterpDetection_eq_next
  | interpReserved0 f => exact execInterpReserved0_eq_next
  | interpUnknown f => exact execInterpUnknown_eq_next
  | routeTrigger r => exact execRouteTrigger_eq_next
  | routeNone r => exact execRouteNone_eq_next
  | logPushRaw x b => exact execLogPushRaw_eq_next
  | logPushRecord x r => exact execLogPushRecord_eq_next
  | logSnapshot ch => exact execLogSnapshot_eq_next.trans (iff_of_eq (true_and _)).symm

/-- A word runs to a next state when it selects an instruction that applies. -/
theorem runDecoded_eq_next {w : OpWord} {s t : State} :
    runDecoded w s = .next t ↔ ∃ i, decode w = .ok i ∧ applies s i ∧ t = effect s i := by
  unfold runDecoded
  cases decode w <;> simp [exec_eq_next]

theorem runDecoded_snapshot (ch : Channel) (s : State) :
    runDecoded (.snapshot ch.sel) s = execLogSnapshot ch s := by
  cases ch <;> rfl

/-! ### What a step does -/

/-- The state in which the row of a transaction other than FEED runs: a reset ends the pulse first (R76, log entry 28). -/
def rowState (o : Operation) (s : State) : State :=
  match o with
  | .reset | .rst => s.endPulse
  | _ => s

/-- Every transaction but FEED runs one selected row (R171, R172). -/
theorem transact_eq_runDecoded {o : Operation} (ho : ∀ b, o ≠ .feed b) (s : State) :
    transact o s = runDecoded (selectWord o (rowState o s)) (rowState o s) := by
  cases o
  case feed b => exact absurd rfl (ho b)
  all_goals rfl

theorem feed_or_not (o : Operation) : (∃ b, o = .feed b) ∨ ∀ b, o ≠ .feed b := by
  cases o <;> simp

/-- A step is idle, a transaction or a clock edge, on the state with what was presented consumed. -/
theorem step_cases {s t : State} (h : step s = .next t) :
    t = s ∨ (∃ o rest, s.inputs = .op o :: rest ∧ transact o (s.setInputs rest) = .next t) ∨
      ∃ p rest, s.inputs = .edge p :: rest ∧ clockEdge p (s.setInputs rest) = .next t := by
  unfold step at h
  split at h
  case h_1 => cases h; exact .inl rfl
  case h_2 o rest hs => exact .inr (.inl ⟨o, rest, hs, h⟩)
  case h_3 p rest hs => exact .inr (.inr ⟨p, rest, hs, h⟩)

/-! ### The invariant (R37) -/

/-- Settles O38: every field of the reset state is written out, and only WaitStart's clauses have something to say. -/
theorem invariantHoldsAtReset : Obligations.InvariantHoldsAtReset where
  waitStart _ := ⟨rfl, rfl⟩
  header := nofun
  payload := nofun
  checksum := nofun
  atEnd := nofun
  window := nofun
  pulse := nofun
  pbuf := rfl
  capacity := by decide
  traceRaw := Nat.zero_le _
  traceRec := Nat.zero_le _
  frames := nofun

theorem acceptByte_inv {x : Timestamp} {b : Byte} {s t : State} (hI : s.Inv) (h : acceptByte x b s = .next t) : t.Inv := by
  rw [acceptByte_eq hI] at h
  cases h
  exact acceptedState_inv hI x b

/-- A FEED transaction delivers, accepts its byte and delivers again; each part keeps the invariant (R170). -/
theorem feedTransaction_inv {b : Byte} {s t : State} (hI : s.Inv) (h : feedTransaction b s = .next t) : t.Inv := by
  obtain ⟨s1, h1, h⟩ := andThen_eq_next.1 h
  obtain ⟨s2, h2, h3⟩ := andThen_eq_next.1 h
  exact deliverAll_inv (acceptByte_inv (deliverAll_inv hI h1).drawn h2) h3

/-- An interpreted frame only yields records; a value that is no frame is refused. -/
theorem runDecoded_command_inv {f : Frame} {s t : State} (hI : s.Inv) (h : runDecoded (.command f) s = .next t) :
    t.Inv := by
  cases hf : f.wf with
  | true =>
    rw [runDecoded_command hf] at h
    cases h
    exact hI.yieldRecords _
  | false => simp [runDecoded_notAFrame hf] at h

theorem transact_inv {o : Operation} {s t : State} (hI : s.Inv) (h : transact o s = .next t) : t.Inv := by
  cases o with
  | feed b => exact feedTransaction_inv hI h
  | reset =>
    obtain rfl := execReset_eq_next.1 h
    exact hI.endPulse.softReset
  | rst =>
    obtain rfl := execRst_eq_next.1 h
    exact hI.endPulse.hardReset
  | interpret f => exact runDecoded_command_inv hI h
  | route r =>
    cases (runDecoded_record r s).symm.trans h
    exact hI.congr rfl rfl rfl hI.traceRaw hI.traceRec
  | logPushRaw x b =>
    obtain ⟨-, rfl⟩ := execLogPushRaw_eq_next.1 h
    exact hI.setTraceRaw (pushBounded_length_le _ hI.traceRaw)
  | logPushRecord x r =>
    obtain ⟨-, rfl⟩ := execLogPushRecord_eq_next.1 h
    exact hI.congr rfl rfl rfl hI.traceRaw (pushBounded_length_le _ hI.traceRec)
  | logSnapshot ch =>
    obtain rfl := execLogSnapshot_eq_next.1 ((runDecoded_snapshot ch s).symm.trans h)
    exact hI.congr rfl rfl rfl hI.traceRaw hI.traceRec

theorem clockEdge_inv {p : PortIn} {s t : State} (hI : s.Inv) (h : clockEdge p s = .next t) : t.Inv := by
  obtain ⟨u, hu, huI⟩ := clockEdge_next hI p
  cases hu.symm.trans h
  exact huI

/-- Settles O39: an idle step keeps the state, and a transaction and a clock edge each keep the invariant. -/
theorem everyStepKeepsTheInvariant : Obligations.EveryStepKeepsTheInvariant := by
  intro s t hI h
  obtain rfl | ⟨o, rest, -, ht⟩ | ⟨p, rest, -, ht⟩ := step_cases h
  · exact hI
  · exact transact_inv (hI.setInputs rest) ht
  · exact clockEdge_inv (hI.setInputs rest) ht

/-! ### The configuration (R32) -/

/-- TRIGGER_ID and LOG_CAPACITY, the two parameters (R32). -/
def config (s : State) : Byte × Nat := (s.triggerId, s.logCapacity)

theorem headerDone_config (c : Byte) (l : Half) (s : State) : config (headerDone c l s) = config s := by
  unfold headerDone
  split <;> rfl

theorem effect_config (s : State) (i : Instr) : config (effect s i) = config s := by
  cases i
  case feedHdrDone b => exact headerDone_config _ _ s
  all_goals rfl

theorem runDecoded_config {w : OpWord} {s t : State} (h : runDecoded w s = .next t) : config t = config s := by
  obtain ⟨i, -, -, rfl⟩ := runDecoded_eq_next.1 h
  exact effect_config s i

theorem interpretEmitted_config {s t : State} (h : interpretEmitted s = .next t) : config t = config s := by
  unfold interpretEmitted at h
  split at h
  · cases h; rfl
  · exact runDecoded_config h

theorem acceptByte_config {x : Timestamp} {b : Byte} {s t : State} (h : acceptByte x b s = .next t) :
    config t = config s := by
  obtain ⟨s1, h1, h⟩ := andThen_eq_next.1 h
  obtain ⟨s2, h2, h3⟩ := andThen_eq_next.1 h
  calc config t = config s2 := interpretEmitted_config h3
    _ = config s1 := runDecoded_config h2
    _ = config s.closeWindow := runDecoded_config h1

theorem takeRecord_config {x : Timestamp} {s t : State} (h : takeRecord x s = .next t) : config t = config s := by
  obtain ⟨-, -, -, -, -, -, -, -, -, -, -, htrig, hcap, -⟩ := takeRecord_frame h
  exact Prod.ext htrig hcap

theorem deliver_config {n : Nat} {s t : State} (h : deliver n s = .next t) : config t = config s := by
  induction n generalizing s with
  | zero => cases h; rfl
  | succ n ih =>
    obtain ⟨s1, h1, h2⟩ := andThen_eq_next.1 h
    exact (ih h2).trans (takeRecord_config (s := s.drawn) h1)

theorem feedTransaction_config {b : Byte} {s t : State} (h : feedTransaction b s = .next t) : config t = config s := by
  obtain ⟨s1, h1, h⟩ := andThen_eq_next.1 h
  obtain ⟨s2, h2, h3⟩ := andThen_eq_next.1 h
  calc config t = config s2 := deliver_config h3
    _ = config s1 := acceptByte_config (s := s1.drawn) h2
    _ = config s := deliver_config h1

theorem transact_config {o : Operation} {s t : State} (h : transact o s = .next t) : config t = config s := by
  obtain ⟨b, rfl⟩ | ho := feed_or_not o
  · exact feedTransaction_config h
  · rw [transact_eq_runDecoded ho] at h
    calc config t = config (rowState o s) := runDecoded_config h
      _ = config s := by unfold rowState; split <;> rfl

theorem edgeInput_config {p : PortIn} {a : Bool} {s t : State} (h : edgeInput p a s = .next t) :
    config t = config s := by
  obtain ⟨-, rfl⟩ | ⟨-, -, rfl⟩ | ⟨-, -, -, ha⟩ | ⟨-, -, -, rfl⟩ := edgeInput_cases h
  · rfl
  · rfl
  · exact acceptByte_config ha
  · rfl

theorem clockEdge_config {p : PortIn} {s t : State} (h : clockEdge p s = .next t) : config t = config s := by
  obtain ⟨u, hu, -, -, -, -, -, -, -, -, -, -, -, -, htrig, hcap, -⟩ := clockEdge_split h
  exact (edgeInput_config hu).trans (Prod.ext htrig hcap)

/-- Settles O41: the defaults stand in the reset state, and neither a transaction nor a clock edge writes a parameter. -/
theorem configurationIsFixed : Obligations.ConfigurationIsFixed := by
  refine ⟨rfl, rfl, fun s t h => Prod.mk.inj ?_⟩
  change config t = config s
  obtain rfl | ⟨o, rest, -, ht⟩ | ⟨p, rest, -, ht⟩ := step_cases h
  · rfl
  · exact transact_config (s := s.setInputs rest) ht
  · exact clockEdge_config (s := s.setInputs rest) ht

/-! ### The registers (R38) -/

/-- A lane of CSUM is a byte of it. -/
theorem hwRegs_csum_byte (s : State) {i : Nat} (hi : i < 4) : s.hwRegs.csum.extractLsb' (8 * i) 8 = s.csumLane i := by
  match i, hi with
  | 0, _ => exact le32_wordByte0 _ _ _ _
  | 1, _ => exact le32_wordByte1 _ _ _ _
  | 2, _ => exact le32_wordByte2 _ _ _ _
  | 3, _ => exact le32_wordByte3 _ _ _ _

/-- Where the lanes show `csum`, CSUM is `csum`. -/
theorem hwRegs_csum_atEnd {s : State} (hp : s.phase = .atEnd) : s.hwRegs.csum = s.csum := by
  simp only [State.hwRegs, State.csumLane, hp]
  exact wordByte_le32 s.csum

theorem hwRegs_csum_arrived {s : State} (hI : s.Inv) (hp : s.phase = .checksum) {i : Nat} {b : Byte}
    (h : s.scratch[i]? = some b) : s.hwRegs.csum.extractLsb' (8 * i) 8 = b := by
  have hi := (List.getElem?_eq_some_iff.1 h).1
  have hlen := (hI.checksum hp).1
  rw [hwRegs_csum_byte s (by omega)]
  simp [State.csumLane, hp, h]

theorem headerReg_arrived {s : State} (hp : s.phase = .header) {i : Nat} {b : Byte} (h : s.scratch[i]? = some b) :
    s.headerReg i = b := by
  simp [State.headerReg, hp, h]

/-- Scratch is always short enough for the 16 bits of CNT (R37, R112). -/
theorem scratch_length_lt {s : State} (hI : s.Inv) : s.scratch.length < 2 ^ 16 := by
  match hp : s.phase with
  | .waitStart => simp [(hI.waitStart hp).1]
  | .header => have := (hI.header hp).1; omega
  | .payload => exact (hI.payload hp).2.1.trans s.len.isLt
  | .checksum => have := (hI.checksum hp).1; omega
  | .atEnd => simp [(hI.atEnd hp).1]

theorem cnt_toNat {s : State} (hI : s.Inv) : s.cnt.toNat =
    if s.phase = .header ∨ s.phase = .payload ∨ s.phase = .checksum then s.scratch.length else 0 := by
  have hlen : (BitVec.ofNat 16 s.scratch.length).toNat = s.scratch.length :=
    Nat.mod_eq_of_lt (scratch_length_lt hI)
  cases hp : s.phase <;> simp [State.cnt, hp, hlen, -BitVec.toNat_ofNat]

/-- PBUF holds exactly the buffered bytes, byte `i` at index `i` (R40). -/
theorem hwRegs_pbuf_read {s : State} (hI : s.Inv) (i : Nat) : s.hwRegs.pbuf.read i = s.buffered[i]? := by
  rw [show s.hwRegs.pbuf = _ from hI.pbuf, Memory.read_ofBytes]

/-- Settles O43, register by register. -/
theorem registersHoldTheState : Obligations.RegistersHoldTheState := by
  intro s hI
  refine ⟨rfl, rfl, rfl, cnt_toNat hI, fun hp => ⟨fun _ => headerReg_arrived hp, fun _ => headerReg_arrived hp⟩,
    fun hp i _ => ?_, fun hp i _ => ?_, fun hp _ _ => hwRegs_csum_arrived hI hp, hwRegs_csum_atEnd⟩
  · simpa [State.buffered, hp] using hwRegs_pbuf_read hI i
  · obtain hp | hp := hp <;> simpa [State.buffered, hp] using hwRegs_pbuf_read hI i

end Sys2Proof.Machine

/-! # Noninterference (R31, R150, R174)

`E` leaves out a part of the state. When every row, run from two states that `E` does not tell apart, gives states that it
does not tell apart either, the same holds of every step: `Unobserved.step`. -/

namespace Sys2Proof.Machine

/-! ### Outcomes that agree but for a part -/

/-- Every next state that `o` answers is one that `o'` answers too, but for what `E` leaves out. -/
def Follows (E : State → State) (o o' : Result) : Prop :=
  ∀ s1, o = .next s1 → ∃ t1, o' = .next t1 ∧ E s1 = E t1

theorem Follows.next {E : State → State} {s t : State} (h : E s = E t) : Follows E (.next s) (.next t) := by
  rintro _ ⟨⟩
  exact ⟨t, rfl, h⟩

theorem Follows.andThen {E : State → State} {o o' : Result} {k k' : State → Result} (ho : Follows E o o')
    (hk : ∀ s t, E s = E t → Follows E (k s) (k' t)) : Follows E (andThen o k) (andThen o' k') := by
  intro s2 h
  obtain ⟨s1, h1, h2⟩ := andThen_eq_next.1 h
  obtain ⟨t1, ht1, hE⟩ := ho s1 h1
  obtain ⟨t2, ht2, hE2⟩ := hk s1 t1 hE s2 h2
  exact ⟨t2, andThen_eq_next.2 ⟨t1, ht1, ht2⟩, hE2⟩

/-! ### From rows to steps -/

/-- What `E` leaves out is not observed: it is neither what is presented, nor pending, nor the draw counter; the updates
that the pipeline makes between two rows keep states alike; and so does every row that a presented operation selects, and
the interpretation of the frame just emitted. -/
structure Unobserved (E : State → State) : Prop where
  inputs : ∀ {s t}, E s = E t → s.inputs = t.inputs
  pending : ∀ {s t}, E s = E t → s.pending = t.pending
  draws : ∀ {s t}, E s = E t → s.draws = t.draws
  setInputs : ∀ {s t}, E s = E t → ∀ is, E (s.setInputs is) = E (t.setInputs is)
  drawn : ∀ {s t}, E s = E t → E s.drawn = E t.drawn
  endPulse : ∀ {s t}, E s = E t → E s.endPulse = E t.endPulse
  closeWindow : ∀ {s t}, E s = E t → E s.closeWindow = E t.closeWindow
  received : ∀ {s t}, E s = E t → ∀ r rest,
    E ((s.setPending rest).emitRecord r) = E ((t.setPending rest).emitRecord r)
  row : ∀ {s t}, E s = E t → ∀ o, Follows E (runDecoded (selectWord o s) s) (runDecoded (selectWord o t) t)
  interpretEmitted : ∀ {s t}, E s = E t → Follows E (interpretEmitted s) (interpretEmitted t)

namespace Unobserved

variable {E : State → State} (hE : Unobserved E) {s t : State} (h : E s = E t)
include hE h

theorem busy : s.busy = t.busy := by
  simp only [State.busy, hE.pending h]

theorem acceptByte (x : Timestamp) (b : Byte) : Follows E (acceptByte x b s) (acceptByte x b t) :=
  (hE.row (hE.closeWindow h) (.logPushRaw x b)).andThen fun _ _ h1 =>
    (hE.row h1 (.feed b)).andThen fun _ _ h2 => hE.interpretEmitted h2

theorem takeRecord (x : Timestamp) : Follows E (takeRecord x s) (takeRecord x t) := by
  unfold Machine.takeRecord
  rw [← hE.pending h]
  split
  · exact .next h
  case h_2 r rest _ =>
    exact (hE.row (hE.received h r rest) (.route r)).andThen fun _ _ h1 => hE.row h1 (.logPushRecord x r)

theorem deliver (n : Nat) : Follows E (deliver n s) (deliver n t) := by
  induction n generalizing s t with
  | zero => exact .next h
  | succ n ih =>
    unfold Machine.deliver
    rw [← hE.draws h]
    exact (hE.takeRecord (hE.drawn h) _).andThen fun _ _ h1 => ih h1

theorem deliverAll : Follows E (deliverAll s) (deliverAll t) := by
  unfold Machine.deliverAll
  rw [← hE.pending h]
  exact hE.deliver h _

theorem feedTransaction (b : Byte) : Follows E (feedTransaction b s) (feedTransaction b t) := by
  refine (hE.deliverAll h).andThen fun s1 t1 h1 => ?_
  rw [← hE.draws h1]
  exact (hE.acceptByte (hE.drawn h1) _ b).andThen fun _ _ h2 => hE.deliverAll h2

theorem transact (o : Operation) : Follows E (transact o s) (transact o t) := by
  obtain ⟨b, rfl⟩ | ho := feed_or_not o
  · exact hE.feedTransaction h b
  · rw [transact_eq_runDecoded ho, transact_eq_runDecoded ho]
    refine hE.row ?_ o
    unfold rowState
    split
    · exact hE.endPulse h
    · exact hE.endPulse h
    · exact h

/-- Of the two reset lines `rst` wins, so that either selects a row as a presented operation does (R74). -/
theorem edgeInput (p : PortIn) (a : Bool) : Follows E (edgeInput p a s) (edgeInput p a t) := by
  unfold Machine.edgeInput
  split
  case isTrue hr =>
    rw [runDecoded_control _ _ _ hr, runDecoded_control _ _ _ hr]
    split
    · exact hE.row h .rst
    · exact hE.row h .reset
  case isFalse =>
    split
    · exact hE.acceptByte h _ _
    · exact .next h

theorem clockEdge (p : PortIn) : Follows E (clockEdge p s) (clockEdge p t) := by
  have h0 : E s.drawn.endPulse = E t.drawn.endPulse := hE.endPulse (hE.drawn h)
  unfold Machine.clockEdge inReady
  rw [← hE.busy h]
  refine Follows.andThen ?_ fun _ _ h1 => hE.edgeInput h1 p _
  split
  · exact hE.takeRecord h0 _
  · exact .next h0

theorem step : Follows E (step s) (step t) := by
  unfold Machine.step
  rw [← hE.inputs h]
  split
  · exact .next h
  · exact hE.transact (hE.setInputs h _) _
  · exact hE.clockEdge (hE.setInputs h _) _

end Unobserved

/-! ### The trace -/

theorem headerDone_butTrace (c : Byte) (l : Half) (s : State) :
    (headerDone c l s).butTrace = (headerDone c l s.butTrace).butTrace := by
  unfold headerDone
  split <;> rfl

/-- What an instruction does to the rest of the state does not depend on the trace. -/
theorem effect_butTrace (s : State) (i : Instr) : (effect s i).butTrace = (effect s.butTrace i).butTrace := by
  cases i
  case feedHdrDone b => exact headerDone_butTrace _ _ s
  all_goals rfl

/-- Nor does where it applies. -/
theorem applies_butTrace (s : State) (i : Instr) : applies s.butTrace i ↔ applies s i := by
  cases i <;> rfl

theorem selectWord_butTrace (o : Operation) (s : State) : selectWord o s.butTrace = selectWord o s := by
  cases o <;> rfl

theorem runDecoded_follows_butTrace (w : OpWord) {s t : State} (h : s.butTrace = t.butTrace) :
    Follows State.butTrace (runDecoded w s) (runDecoded w t) := by
  intro s1 h1
  obtain ⟨i, hd, ha, rfl⟩ := runDecoded_eq_next.1 h1
  refine ⟨effect t i, runDecoded_eq_next.2 ⟨i, hd, ?_, rfl⟩, ?_⟩
  · rwa [← applies_butTrace, ← h, applies_butTrace]
  · rw [effect_butTrace, h, ← effect_butTrace]

theorem interpretEmitted_follows_butTrace {s t : State} (h : s.butTrace = t.butTrace) :
    Follows State.butTrace (interpretEmitted s) (interpretEmitted t) := by
  have hh : s.hold = t.hold := (congrArg State.hold h :)
  unfold interpretEmitted
  rw [← hh]
  split
  · exact .next h
  · exact runDecoded_follows_butTrace _ h

theorem unobserved_butTrace : Unobserved State.butTrace where
  inputs h := (congrArg State.inputs h :)
  pending h := (congrArg State.pending h :)
  draws h := (congrArg State.draws h :)
  setInputs h is := congrArg (State.setInputs is) h
  drawn h := congrArg State.drawn h
  endPulse h := congrArg State.endPulse h
  closeWindow h := congrArg State.closeWindow h
  received h r rest := congrArg (fun u => (u.setPending rest).emitRecord r) h
  row {s t} h o := by
    rw [← selectWord_butTrace o s, h, selectWord_butTrace]
    exact runDecoded_follows_butTrace _ h
  interpretEmitted := interpretEmitted_follows_butTrace

/-- Settles O48: no row reads the trace, so no step does. -/
theorem traceInfluencesNothing : Obligations.TraceInfluencesNothing :=
  fun _ _ s1 h h1 => unobserved_butTrace.step h s1 h1

end Sys2Proof.Machine

/-! # The payload buffer and the byte stream (R40, R41, R53)

No row reads what is presented, so no transaction does (`IgnoresInputs`), and a stream of bytes is its transactions one
after another (`feedBytes_cons`, `feedBytes_append`). -/

namespace Sys2Proof.Machine

/-! ### The payload buffer (R40) -/

/-- PBUF never holds more bytes than a length field can name, so it has room for all of them (R37, R40). -/
theorem buffered_length_le {s : State} (hI : s.Inv) : s.buffered.length ≤ Config.payloadCapacity := by
  have length_le (l : Half) : l.toNat ≤ Config.payloadCapacity := Nat.le_of_lt_succ l.isLt
  unfold State.buffered
  split
  case h_1 =>
    split
    case h_1 f hh =>
      have hf : f.payload.length = f.length.toNat := by simpa [Frame.wf] using (hI.window f hh).1
      exact hf ▸ length_le f.length
    case h_2 => exact Nat.zero_le _
  case h_2 => exact Nat.zero_le _
  case h_3 => exact Nat.le_of_lt_succ (scratch_length_lt hI)
  case h_4 hp => exact (hI.checksum hp).2 ▸ length_le s.len
  case h_5 hp => exact (hI.atEnd hp).2 ▸ length_le s.len

/-- Settles O42: PBUF is the memory of the buffered bytes, whose canonical form and reads are known, and each clause names
what is buffered in its phase. -/
theorem payloadBufferHoldsThePayload : Obligations.PayloadBufferHoldsThePayload := by
  intro s hI
  have read (i : Nat) : s.pbuf.read i = s.buffered[i]? := by rw [hI.pbuf, Memory.read_ofBytes]
  refine ⟨hI.pbuf ▸ Memory.wf_ofBytes (buffered_length_le hI), fun hp i _ => ?_, fun hp i _ => ?_, fun f hh i _ => ?_⟩
  · simpa only [State.buffered, hp] using read i
  · obtain hp | hp := hp <;> simpa only [State.buffered, hp] using read i
  · simpa only [State.buffered, (hI.window f hh).2, hh] using read i

/-! ### What is presented does not influence a transaction -/

/-- `f` neither reads nor changes what the environment presents: with other inputs it stops in the same way, or answers the
same next state but for those inputs. -/
def IgnoresInputs (f : State → Result) : Prop :=
  ∀ (s : State) (is : List Input), f (s.setInputs is) = andThen (f s) fun t => .next (t.setInputs is)

theorem andThen_assoc (o : Result) (k l : State → Result) :
    andThen (andThen o k) l = andThen o fun s => andThen (k s) l := by
  cases o <;> rfl

namespace IgnoresInputs

variable {f g : State → Result}

theorem next {e : State → State} (he : ∀ s is, e (s.setInputs is) = (e s).setInputs is) :
    IgnoresInputs fun s => .next (e s) :=
  fun s is => congrArg Host.Outcome.next (he s is)

theorem fault (r : Fault) : IgnoresInputs fun _ => .fault r := fun _ _ => rfl

theorem refused (r : Refusal) : IgnoresInputs fun _ => .refused r := fun _ _ => rfl

theorem ite {c : State → Prop} [DecidablePred c] (hc : ∀ s is, c (s.setInputs is) ↔ c s)
    (hf : IgnoresInputs f) (hg : IgnoresInputs g) : IgnoresInputs fun s => if c s then f s else g s := by
  intro s is
  by_cases h : c s
  · simpa only [hc, if_pos h] using hf s is
  · simpa only [hc, if_neg h] using hg s is

theorem andThen (hf : IgnoresInputs f) (hg : IgnoresInputs g) : IgnoresInputs fun s => andThen (f s) g := by
  intro s is
  simp only [hf s is, andThen_assoc]
  exact congrArg _ (funext fun t => hg t is)

/-- An update before the operation makes no difference when it leaves the inputs alone. -/
theorem comp (hf : IgnoresInputs f) {e : State → State} (he : ∀ s is, e (s.setInputs is) = (e s).setInputs is) :
    IgnoresInputs fun s => f (e s) := by
  intro s is
  simp only [he, hf (e s) is]

/-- An operation may take an argument from the state, as long as it is not taken from the inputs. -/
theorem read {α : Type} {v : State → α} {k : α → State → Result} (hv : ∀ s is, v (s.setInputs is) = v s)
    (hk : ∀ a, IgnoresInputs (k a)) : IgnoresInputs fun s => k (v s) s := by
  intro s is
  simp only [hv, hk (v s) s is]

/-- A row whose meaning is a guarded update. -/
theorem guard {c : State → Prop} [DecidablePred c] {e : State → State} (m : Refusal)
    (hc : ∀ s is, c (s.setInputs is) ↔ c s) (he : ∀ s is, e (s.setInputs is) = (e s).setInputs is) :
    IgnoresInputs fun s => if c s then .next (e s) else .refused m :=
  .ite hc (.next he) (.refused m)

end IgnoresInputs

theorem headerDone_setInputs (c : Byte) (l : Half) (s : State) (is : List Input) :
    headerDone c l (s.setInputs is) = (headerDone c l s).setInputs is := by
  unfold headerDone
  split <;> rfl

/-- The two payload rows: under a guard, a byte is stored after the bytes so far and then the decoder is updated (R104,
R105). -/
theorem payloadRow_ignoresInputs {c : State → Prop} [DecidablePred c] {e : State → State} (b : Byte) (m : Refusal)
    (hc : ∀ s is, c (s.setInputs is) ↔ c s) (he : ∀ s is, e (s.setInputs is) = (e s).setInputs is) :
    IgnoresInputs fun s =>
      if c s then andThen (memWrite s.scratch.length b s) fun s1 => .next (e s1) else .refused m := by
  have hstore : IgnoresInputs fun s => memWrite s.scratch.length b s :=
    .ite (fun _ _ => .rfl) (.next fun _ _ => rfl) (.fault _)
  exact .ite hc (hstore.andThen (.next he)) (.refused m)

theorem execFeedHdrDone_ignoresInputs (b : Byte) : IgnoresInputs (execFeedHdrDone b) := by
  intro s is
  unfold execFeedHdrDone
  rw [State.setInputs_phase, State.setInputs_scratch]
  split
  · exact congrArg Host.Outcome.next (headerDone_setInputs _ _ s is)
  · rfl

theorem execFeedCkDone_ignoresInputs (b : Byte) : IgnoresInputs (execFeedCkDone b) := by
  intro s is
  unfold execFeedCkDone
  rw [State.setInputs_phase, State.setInputs_scratch]
  split <;> rfl

/-- No row of the opcode table reads or changes what is presented. -/
theorem exec_ignoresInputs (i : Instr) : IgnoresInputs (exec i) := by
  cases i
  case feedHdrDone b => exact execFeedHdrDone_ignoresInputs b
  case feedCkDone b => exact execFeedCkDone_ignoresInputs b
  case feedPlAcc b | feedPlDone b => exact payloadRow_ignoresInputs b _ (fun _ _ => .rfl) fun _ _ => rfl
  case logPushRaw | logPushRecord => exact .ite (fun _ _ => .rfl) (.refused _) (.next fun _ _ => rfl)
  case reset | rst | logSnapshot => exact .next fun _ _ => rfl
  all_goals exact .guard _ (fun _ _ => .rfl) fun _ _ => rfl

theorem runDecoded_ignoresInputs (w : OpWord) : IgnoresInputs (runDecoded w) := by
  intro s is
  unfold runDecoded
  split
  case h_1 i _ => exact exec_ignoresInputs i s is
  case h_2 => rfl

/-- The same when the word is read from the state, as long as it is not read from the inputs. -/
theorem runDecoded_read {w : State → OpWord} (hw : ∀ s is, w (s.setInputs is) = w s) :
    IgnoresInputs fun s => runDecoded (w s) s :=
  .read hw runDecoded_ignoresInputs

theorem interpretEmitted_ignoresInputs : IgnoresInputs interpretEmitted := by
  intro s is
  unfold interpretEmitted
  rw [State.setInputs_hold]
  split
  · rfl
  · exact runDecoded_ignoresInputs _ s is

theorem acceptByte_ignoresInputs (x : Timestamp) (b : Byte) : IgnoresInputs (acceptByte x b) :=
  .andThen ((runDecoded_ignoresInputs (.pushRaw x b)).comp fun _ _ => rfl)
    (.andThen (runDecoded_read fun _ _ => rfl) interpretEmitted_ignoresInputs)

theorem takeRecord_ignoresInputs (x : Timestamp) : IgnoresInputs (takeRecord x) := by
  intro s is
  unfold takeRecord
  rw [State.setInputs_pending]
  split
  case h_1 => rfl
  case h_2 r rest _ =>
    have hroute : IgnoresInputs fun u => runDecoded (.record r u.triggerId) u := runDecoded_read fun _ _ => rfl
    have hreceived := hroute.comp (e := fun u => (u.setPending rest).emitRecord r) fun _ _ => rfl
    exact hreceived.andThen (runDecoded_ignoresInputs (.pushRecord x r)) s is

theorem deliver_ignoresInputs (n : Nat) : IgnoresInputs (deliver n) := by
  induction n with
  | zero => exact .next fun _ _ => rfl
  | succ n ih =>
    have htake (x : Timestamp) : IgnoresInputs fun s => takeRecord x s.drawn :=
      (takeRecord_ignoresInputs x).comp (e := State.drawn) fun _ _ => rfl
    exact (IgnoresInputs.read (fun _ _ => rfl) htake).andThen ih

theorem deliverAll_ignoresInputs : IgnoresInputs deliverAll :=
  .read (fun _ _ => rfl) deliver_ignoresInputs

/-- A FEED transaction neither reads nor changes what is presented after it (R170). -/
theorem feedTransaction_ignoresInputs (b : Byte) : IgnoresInputs (feedTransaction b) := by
  have haccept (x : Timestamp) : IgnoresInputs fun s => acceptByte x b s.drawn :=
    (acceptByte_ignoresInputs x b).comp fun _ _ => rfl
  exact deliverAll_ignoresInputs.andThen
    ((IgnoresInputs.read (fun _ _ => rfl) haccept).andThen deliverAll_ignoresInputs)

/-! ### Streams of bytes (R53) -/

@[simp] theorem feedBytes_nil (s : State) : feedBytes [] s = .next (s.setInputs []) := rfl

theorem run_succ (k : Nat) (s : State) : run (k + 1) s = andThen (step s) (run k) := by
  change _ = andThen (core.step s) (run k)
  cases h : core.step s <;> simp only [run, Host.Core.run, h] <;> rfl

/-- The first step handles the first byte, which does not depend on the bytes after it, and the rest of the stream is fed
from where that leads. -/
theorem feedBytes_cons (b : Byte) (bs : List Byte) (s : State) :
    feedBytes (b :: bs) s = andThen (feedTransaction b s) (feedBytes bs) := by
  calc feedBytes (b :: bs) s
    _ = andThen (step (s.presentOps ((b :: bs).map .feed))) (run bs.length) := run_succ _ _
    _ = andThen (feedTransaction b (s.setInputs ((bs.map .feed).map .op))) (run bs.length) := rfl
    _ = andThen (andThen (feedTransaction b s) fun t => .next (t.presentOps (bs.map .feed))) (run bs.length) := by
      rw [feedTransaction_ignoresInputs]; rfl
    _ = andThen (feedTransaction b s) (feedBytes bs) := andThen_assoc _ _ _

theorem feedBytes_append (as bs : List Byte) (s : State) :
    feedBytes (as ++ bs) s = andThen (feedBytes as s) (feedBytes bs) := by
  induction as generalizing s with
  | nil => rfl
  | cons a as ih => rw [List.cons_append, feedBytes_cons, feedBytes_cons, andThen_assoc, funext ih]

/-- A stream that completes has been consumed. -/
theorem feedBytes_inputs {bs : List Byte} {s t : State} (h : feedBytes bs s = .next t) : t.inputs = [] := by
  induction bs generalizing s with
  | nil => cases h; rfl
  | cons b bs ih =>
    rw [feedBytes_cons] at h
    obtain ⟨u, _, hu⟩ := andThen_eq_next.1 h
    exact ih hu

/-- Settles O50, by induction on the chunks: the first chunk and the rest are fed one after the other. -/
theorem chunksDoNotMatter : Obligations.ChunksDoNotMatter := by
  intro chunks
  induction chunks with
  | nil => intro s hs; simp [feedChunks, State.setInputs, ← hs]
  | cons c cs ih =>
    intro s _
    rw [feedChunks, List.flatten_cons, feedBytes_append]
    cases hc : feedBytes c s with
    | next t => exact ih t (feedBytes_inputs hc)
    | fault _ => rfl
    | refused _ => rfl

end Sys2Proof.Machine

/-! # Decoding and encoding (R60 to R75)

Where the decoder selects a row is where the row applies (`decode_feedWord_iff_applies`), and a word of `encode` is one of
the words that select it. -/

namespace Sys2Proof.Machine

/-! ### The round trip -/

/-- Settles O24, row by row: `encode` picks a count and a length that meet a FEED row's condition, a frame's command selects
its row, and a ROUTE row has a TRIGGER_ID that its record's id does or does not equal. -/
theorem decodeEncodeRoundTrip : Obligations.DecodeEncodeRoundTrip := by
  intro i hi
  cases i
  case feedWsStart | feedHdrAcc | feedHdrDone | feedPlAcc | feedPlDone | feedCkAcc | feedCkDone | feedEndEmit =>
    simp [encode, decode_feedKey, decodeFeed_feedKey]
  case feedWsSkip b | feedEndStall b =>
    simp [Instr.wf] at hi
    simp [encode, decode_feedKey, decodeFeed_feedKey, hi]
  case interpClassification f | interpDetection f | interpReserved0 f | interpUnknown f =>
    simp [Instr.wf] at hi
    simp [encode, decode, decodeCommand_eq, hi]
  case routeTrigger r | routeNone r => simp [encode, decode]
  case logSnapshot ch => cases ch <;> rfl
  case reset | rst | logPushRaw | logPushRecord => rfl

/-! ### The wire frame -/

/-- The payload is followed by the four bytes of the checksum and END_MARKER (R60). -/
def trailer (f : Frame) (tail : List Byte) : List Byte :=
  wordByte f.checksum 0 :: wordByte f.checksum 1 :: wordByte f.checksum 2 :: wordByte f.checksum 3 ::
    Config.endMarker :: tail

theorem wire_append (f : Frame) (tail : List Byte) :
    f.wire ++ tail =
      Config.startMarker :: f.command :: halfByte f.length 0 :: halfByte f.length 1 :: (f.payload ++ trailer f tail) := by
  simp [Frame.wire, trailer]

/-- A frame is read back from its layout, whatever follows it (R60, R62, R63). -/
theorem parseWire_wire {f : Frame} (hf : f.wf = true) (tail : List Byte) : parseWire (f.wire ++ tail) = .ok (f, tail) := by
  have hlen : f.payload.length = f.length.toNat := by simpa [Frame.wf] using hf
  have hdrop : (f.payload ++ trailer f tail).drop f.length.toNat = trailer f tail := List.drop_left' hlen
  have htake : (f.payload ++ trailer f tail).take f.length.toNat = f.payload := List.take_left' hlen
  simp only [wire_append, parseWire, halfByte_le16, hdrop, htake, ne_eq, not_true_eq_false, if_false]
  simp [trailer, wordByte_le32]

/-- Only a layout of a frame is read as that frame (R60, R62). -/
theorem wire_of_parseWire {bs tail : List Byte} {f : Frame} (h : parseWire bs = .ok (f, tail)) :
    f.wf = true ∧ bs = f.wire ++ tail := by
  unfold parseWire at h
  split at h
  case h_2 => cases h
  case h_1 start command lo hi rest =>
    split_ifs at h with hstart
    dsimp only at h
    split at h
    case h_2 => cases h
    case h_1 c0 c1 c2 c3 stop _ hdrop =>
      split_ifs at h with hstop
      cases h
      have hlen := congrArg List.length hdrop
      have hsplit : rest = rest.take (le16 lo hi).toNat ++ c0 :: c1 :: c2 :: c3 :: stop :: tail :=
        hdrop ▸ (List.take_append_drop _ _).symm
      refine ⟨?_, ?_⟩
      · simp at hlen
        simp [Frame.wf]
        omega
      · rw [wire_append, trailer, le16_halfByte0, le16_halfByte1, le32_wordByte0, le32_wordByte1, le32_wordByte2,
          le32_wordByte3, ← not_not.1 hstart, ← not_not.1 hstop, ← hsplit]

/-- Settles O25: what a layout is read as, and what is read only from a layout. -/
theorem wireLayoutIsParsedExactly : Obligations.WireLayoutIsParsedExactly := fun _ tail _ =>
  ⟨wire_of_parseWire, fun ⟨hf, hbs⟩ => hbs ▸ parseWire_wire hf tail⟩

/-- Settles O26: a frame's payload is as long as its 16-bit length says. -/
theorem frameSizes : Obligations.FrameSizes := by
  intro f hf
  have hlen : f.payload.length = f.length.toNat := by simpa [Frame.wf] using hf
  have hmax := f.length.isLt
  rw [wire_length, hlen]
  omega

/-- The two bytes of a length field, as remainder and quotient (R43, R60). -/
theorem halfByte_ofNat {n : Nat} (hn : n ≤ 65535) :
    halfByte (BitVec.ofNat 16 n) 0 = BitVec.ofNat 8 (n % 256) ∧
      halfByte (BitVec.ofNat 16 n) 1 = BitVec.ofNat 8 (n / 256) := by
  constructor
  · refine BitVec.eq_of_toNat_eq ?_
    simp [halfByte]
  · refine BitVec.eq_of_toNat_eq ?_
    simp [halfByte, Nat.shiftRight_eq_div_pow]
    omega

/-- The encoding of the pseudo-operation is the layout of the frame it names (R71, R72). -/
theorem encoding_frame (c : Byte) (k : Word) (p : List Byte) :
    (Line.frame c k p).encoding = (Frame.mk c (BitVec.ofNat 16 p.length) p k).wire := by
  simp [Line.encoding, Line.events, List.filterMap_map]

/-- Settles O27: the layout of the frame, with the bytes of its length and checksum written out. -/
theorem framePseudoOperationExpands : Obligations.FramePseudoOperationExpands := by
  intro c k p hp
  obtain ⟨h0, h1⟩ := halfByte_ofNat hp
  constructor
  · simp only [encoding_frame, Frame.wire, h0, h1]
    rfl
  · rw [encoding_frame]
    rfl

/-! ### Where a row is selected -/

/-- The row that a byte selects applies (R70). -/
theorem applies_of_decode_feedWord {i : Instr} {b : Byte} {s : State} (h : decode (feedWord b s) = .ok i) :
    applies s i := by
  rw [decode_feedWord_eq] at h
  split at h
  case h_1 hp | h_5 hp =>
    split_ifs at h with hb <;> cases h
    · exact hp
    · exact ⟨hp, hb⟩
  case h_2 hp | h_3 hp | h_4 hp =>
    split_ifs at h with h1 h2 <;> cases h
    · exact ⟨hp, h1⟩
    · exact ⟨hp, h2⟩

/-- A FEED row that applies is the row that its byte selects (R70). -/
theorem decode_feedWord_of_applies {i : Instr} {b : Byte} {s : State} (hwf : i.wf = true) (hb : i.fedByte = some b)
    (h : applies s i) : decode (feedWord b s) = .ok i := by
  cases i <;> simp only [Instr.fedByte, Option.some.injEq, reduceCtorEq] at hb <;> subst hb
  case feedWsStart | feedEndEmit =>
    have hp : s.phase = _ := h
    simp [decode_feedWord_eq, hp]
  case feedWsSkip | feedEndStall =>
    obtain ⟨hp, h⟩ : s.phase = _ ∧ _ := h
    rw [decode_feedWord_eq, hp]
    exact if_neg h
  case feedHdrAcc | feedHdrDone | feedPlAcc | feedPlDone | feedCkAcc | feedCkDone =>
    obtain ⟨hp, h⟩ : s.phase = _ ∧ _ := h
    simp [decode_feedWord_eq, hp, h]

/-- A row of the interpreter is selected exactly where it applies (R121). -/
theorem decode_command_iff_applies {f : Frame} {i : Instr} (s : State) (hf : f.wf = true)
    (hi : i = .interpClassification f ∨ i = .interpDetection f ∨ i = .interpReserved0 f ∨ i = .interpUnknown f) :
    decode (.command f) = .ok i ↔ applies s i := by
  simp only [decode, hf, if_true, decodeCommand_eq, Except.ok.injEq]
  obtain rfl | rfl | rfl | rfl := hi
  all_goals
    simp only [applies]
    split_ifs <;> simp_all

/-- A FEED, INTERP or ROUTE row that does not apply is refused by name (log entry 12). -/
theorem exec_refused_of_not_applies {i : Instr} {s : State} (hf : i.format ≠ .control) (hl : i.format ≠ .log)
    (h : ¬ applies s i) : ∃ m, exec i s = .refused (.rowNotApplicable m) := by
  cases i
  case reset | rst => exact absurd rfl hf
  case logPushRaw | logPushRecord | logSnapshot => exact absurd rfl hl
  case feedHdrDone b =>
    refine ⟨"FEED_HDR_DONE", ?_⟩
    change execFeedHdrDone b s = _
    unfold execFeedHdrDone
    split
    case h_1 hp hs => exact absurd ⟨hp, congrArg List.length hs⟩ h
    case h_2 => rfl
  case feedCkDone b =>
    refine ⟨"FEED_CK_DONE", ?_⟩
    change execFeedCkDone b s = _
    unfold execFeedCkDone
    split
    case h_1 hp hs => exact absurd ⟨hp, congrArg List.length hs⟩ h
    case h_2 => rfl
  all_goals exact ⟨_, if_neg h⟩

/-- Settles O30: a row completes where it applies, and that is where the decoder selects it. -/
theorem rowsCompleteExactlyWhereSelected : Obligations.RowsCompleteExactlyWhereSelected := by
  have completes (i : Instr) (s : State) : (∃ t, exec i s = .next t) ↔ applies s i := by simp [exec_eq_next]
  refine ⟨fun i s b hwf hb => ?_, fun f i s hf hi => ?_, fun r s => ?_⟩
  · have selected : decode (feedWord b s) = .ok i ↔ applies s i :=
      ⟨applies_of_decode_feedWord, decode_feedWord_of_applies hwf hb⟩
    refine ⟨(completes i s).trans selected.symm, fun h => ?_⟩
    refine exec_refused_of_not_applies ?_ ?_ (mt selected.2 h) <;> rintro hi <;> cases i <;> cases hi <;> cases hb
  · have selected := decode_command_iff_applies s hf hi
    refine ⟨(completes i s).trans selected.symm, fun h => exec_refused_of_not_applies ?_ ?_ (mt selected.2 h)⟩ <;>
      obtain rfl | rfl | rfl | rfl := hi <;> nofun
  · simp only [completes, applies, decode]
    by_cases h : r.id = s.triggerId <;> simp [h]

/-! ### Phase codes -/

theorem ofCode_unused {c : BitVec 3} (h : 5 ≤ c.toNat) : Phase.ofCode c = none := by
  revert c
  decide

theorem keyCode_toNat (key : BitVec 11) : (keyCode key).toNat = key.toNat / 256 := by
  have := key.isLt
  simp [keyCode, Nat.shiftRight_eq_div_pow]
  omega

theorem code_toNat_le (p : Phase) : p.code.toNat ≤ 4 := by
  cases p <;> decide

/-- A key whose phase code is unused is rejected by that code (R68, I13). -/
theorem decode_unusedCode {key : BitVec 11} (n : Nat) (l : Half) (h : 0x500 ≤ key.toNat) :
    decode (.feed key n l) = .error (.phaseCode (keyCode key)) := by
  have hcode : Phase.ofCode (keyCode key) = none := ofCode_unused (by rw [keyCode_toNat]; omega)
  simp [decode, decodeFeed_badCode key n l hcode, hcode]

/-- Settles O32: the port shows the code of a phase, and the codes from 5 on name none. -/
theorem phaseCodes : Obligations.PhaseCodes := by
  refine ⟨fun p s => ?_, fun p s => code_toNat_le s.phase, fun key n l => decode_unusedCode n l, fun c hc => ?_,
    fun p => ?_⟩
  · change s.phase.code = _
    cases s.phase <;> rfl
  · simp [Phase.ofReg, ofCode_unused hc]
  · simp [Phase.ofReg]

/-! ### Words of the tables, and the step that runs their rows -/

/-- Settles O28, word by word. -/
theorem wordsOfTheTablesDecode : Obligations.WordsOfTheTablesDecode := by
  refine ⟨?_, ?_, ?_, ?_, ?_, ?_, ?_, ?_, ?_, ?_, ?_, ?_⟩ <;> decide

/-- What a presented operation reads besides its operands does not change when it is consumed (R69). -/
theorem selectWord_rowState (o : Operation) (s : State) (is : List Input) :
    selectWord o (rowState o (s.setInputs is)) = selectWord o s := by
  cases o <;> rfl

/-- Settles O33: a transaction other than FEED runs the one row that its word selects. -/
theorem stepRunsTheSelectedRow : Obligations.StepRunsTheSelectedRow := by
  intro s o rest i hs ho hd
  have hstep : step s = transact o (s.setInputs rest) := by simp [step, hs]
  rw [hstep, transact_eq_runDecoded ho, selectWord_rowState, runDecoded, hd]
  cases o <;> rfl

end Sys2Proof.Machine

/-! # Clock edges (R73 to R82)

An edge first takes a record or not (`takeStage`) and then acts on its inputs (`edgeInput`). What it does to the frame
outputs and to the record cursor is said once, in every state (`clockEdge_outputs`). -/

namespace Sys2Proof.Machine

/-! ### An accepted byte, in every state -/

/-- The row that a byte selects makes `fedState` of the state, in every state in which it selects one (R70). -/
theorem effect_of_decode_feedWord {i : Instr} {b : Byte} {s : State} (h : decode (feedWord b s) = .ok i) :
    effect s i = fedState b s := by
  rw [decode_feedWord_eq] at h
  split at h
  case h_1 hp =>
    split_ifs at h with hb <;> cases h <;> simp only [effect, fedState, hp]
    · rw [if_pos hb]
    · rw [if_neg hb]
  case h_2 hp =>
    split_ifs at h with h1 h2 <;> cases h
    · match hs : s.scratch, h1 with
      | [], _ | [_], _ => simp [effect, fedState, hp, hs]
    · obtain ⟨c, lo, hs⟩ := List.length_eq_two.1 h2
      simp [effect, fedState, hp, hs]
  case h_3 hp =>
    split_ifs at h with h1 h2 <;> cases h <;> simp only [effect, fedState, hp]
    · rw [if_pos h1]
    · rw [if_neg h1]
  case h_4 hp =>
    split_ifs at h with h1 h2 <;> cases h
    · match hs : s.scratch, h1 with
      | [], _ | [_], _ | [_, _], _ => simp [effect, fedState, hp, hs]
    · obtain ⟨c0, c1, c2, hs⟩ := List.length_eq_three.1 h2
      simp [effect, fedState, hp, hs]
  case h_5 hp =>
    split_ifs at h with hb <;> cases h <;> simp only [effect, fedState, hp]
    · rw [if_pos hb]
    · rw [if_neg hb]

theorem runDecoded_command_eq_next {f : Frame} {s t : State} (h : runDecoded (.command f) s = .next t) :
    t = s.yieldRecords (interpret f) := by
  cases hf : f.wf with
  | true => exact Host.Outcome.next.inj (h.symm.trans (runDecoded_command hf s))
  | false => simp [runDecoded_notAFrame hf] at h

/-- An accepted byte that completes gives `acceptedState`, whether or not the state meets the invariant (R170). -/
theorem acceptByte_eq_next {x : Timestamp} {b : Byte} {s t : State} (h : acceptByte x b s = .next t) :
    t = acceptedState x b s := by
  obtain ⟨s1, h1, h⟩ := andThen_eq_next.1 h
  obtain ⟨s2, h2, h3⟩ := andThen_eq_next.1 h
  obtain ⟨-, rfl⟩ : _ ∧ s1 = beforeRow x b s := execLogPushRaw_eq_next.1 h1
  obtain ⟨i, hd, -, rfl⟩ := runDecoded_eq_next.1 h2
  rw [effect_of_decode_feedWord hd] at h3
  obtain ⟨-, hhold, -⟩ := fedState_emits b (beforeRow x b s)
  simp only [interpretEmitted, hhold, beforeRow_emittedBy] at h3
  unfold acceptedState
  by_cases he : s.phase = .atEnd ∧ b = Config.endMarker
  · rw [emittedBy_end he] at h3 ⊢
    simpa using runDecoded_command_eq_next h3
  · rw [emittedBy_none he] at h3 ⊢
    cases h3
    exact (State.yieldRecords_nil _).symm

/-! ### The two stages of an edge -/

/-- The first stage: the pulse ends, and a presented record is taken if the consumer is ready (R76, R79). -/
def takeStage (p : PortIn) (s : State) : Result :=
  if s.busy && p.recReady then takeRecord p.ts s.drawn.endPulse else .next s.drawn.endPulse

theorem clockEdge_eq (p : PortIn) (s : State) :
    clockEdge p s = andThen (takeStage p s) (edgeInput p (accepts p s)) := rfl

/-- The records that the first stage leaves to be taken. -/
def untaken (p : PortIn) (s : State) : List Record :=
  if s.busy && p.recReady then s.pending.tail else s.pending

/-- What the first stage keeps. -/
structure Taken (p : PortIn) (s u : State) : Prop where
  phase : u.phase = s.phase
  heldFrame : u.heldFrame = s.heldFrame
  pbuf : u.pbuf = s.pbuf
  hold : u.hold = s.hold
  frameValid : u.frameValid = false
  frames : u.frames = s.frames
  traceRaw : u.traceRaw = s.traceRaw
  pending : u.pending = untaken p s

theorem takeStage_taken {p : PortIn} {s u : State} (h : takeStage p s = .next u) : Taken p s u := by
  unfold takeStage at h
  split at h
  case isTrue ht =>
    obtain ⟨hphase, -, hcmd, hlen, hpayload, hcsum, hpbuf, hhold, hvalid, hframes, hraw, -, -, hpending, -⟩ :=
      takeRecord_frame h
    refine ⟨hphase, ?_, hpbuf, hhold, hvalid, hframes, hraw, hpending.trans (if_pos ht).symm⟩
    simp [State.heldFrame, hcmd, hlen, hpayload, hcsum]
  case isFalse ht =>
    cases h
    exact ⟨rfl, rfl, rfl, rfl, rfl, rfl, rfl, (if_neg ht).symm⟩

theorem takeStage_completes (p : PortIn) {s : State} (hc : 1 ≤ s.logCapacity) : ∃ u, takeStage p s = .next u := by
  unfold takeStage
  split
  case isTrue ht =>
    cases hp : s.pending with
    | nil => simp [State.busy, hp] at ht
    | cons r rest => exact ⟨_, takeRecord_cons p.ts hp (Nat.one_le_iff_ne_zero.1 hc)⟩
  case isFalse => exact ⟨_, rfl⟩

/-- A reset line acts, whatever else is presented (R74). -/
theorem edgeInput_reset {p : PortIn} (a : Bool) (u : State) (h : (p.rst || p.softReset) = true) :
    edgeInput p a u = .next (if p.rst then u.hardReset else u.softReset) := by
  rw [edgeInput, if_pos h, runDecoded_control _ _ _ h]

/-- An edge that completes: its first stage, then `rst`, else `soft_reset`, else an accepted byte, else nothing. -/
theorem clockEdge_cases {p : PortIn} {s t : State} (h : clockEdge p s = .next t) :
    ∃ u, takeStage p s = .next u ∧
      ((p.rst = true ∧ t = u.hardReset) ∨
        (p.rst = false ∧ p.softReset = true ∧ t = u.softReset) ∨
        (accepts p s = true ∧ t = acceptedState p.ts p.inData u) ∨
        (p.rst = false ∧ p.softReset = false ∧ accepts p s = false ∧ t = u)) := by
  rw [clockEdge_eq] at h
  obtain ⟨u, hu, ht⟩ := andThen_eq_next.1 h
  refine ⟨u, hu, ?_⟩
  obtain hr | hs | ⟨-, -, ha, hb⟩ | hn := edgeInput_cases ht
  · exact .inl hr
  · exact .inr (.inl hs)
  · exact .inr (.inr (.inl ⟨ha, acceptByte_eq_next hb⟩))
  · exact .inr (.inr (.inr hn))

theorem accepts_of_rst {p : PortIn} (s : State) (h : p.rst = true) : accepts p s = false := by
  simp [accepts, inReady, h]

theorem accepts_of_softReset {p : PortIn} (s : State) (h : p.softReset = true) : accepts p s = false := by
  simp [accepts, inReady, h]

theorem accepts_of_busy (p : PortIn) {s : State} (h : s.busy = true) : accepts p s = false := by
  simp [accepts, inReady, h]

/-! ### The frame outputs and the record cursor -/

/-- The frames that an edge emits: those of its accepted byte. -/
def emittedAt (p : PortIn) (s : State) : List Frame :=
  if accepts p s then emittedBy p.inData s else []

/-- The edge accepts the byte that completes a frame. -/
def Completes (p : PortIn) (s : State) : Prop :=
  accepts p s = true ∧ s.phase = .atEnd ∧ p.inData = 0xED

theorem emittedAt_of_completes {p : PortIn} {s : State} (h : Completes p s) : emittedAt p s = [s.heldFrame] := by
  obtain ⟨ha, he⟩ := h
  rw [emittedAt, if_pos ha, emittedBy_end he]

theorem emittedAt_of_not_completes {p : PortIn} {s : State} (h : ¬ Completes p s) : emittedAt p s = [] := by
  unfold emittedAt
  split
  · exact emittedBy_none fun he => h ⟨‹_›, he⟩
  · rfl

/-- What an edge does to the pulse, the window and the record cursor, in every state (R76 to R79). -/
theorem clockEdge_outputs {p : PortIn} {s t : State} (h : clockEdge p s = .next t) :
    t.frameValid = (emittedAt p s).head?.isSome ∧
      t.hold = (if p.rst then none else if accepts p s then (emittedAt p s).head? else s.hold) ∧
      t.pending = (if p.rst then [] else untaken p s ++ (emittedAt p s).flatMap interpret) := by
  obtain ⟨u, hu, hcases⟩ := clockEdge_cases h
  have hT := takeStage_taken hu
  obtain ⟨hr, rfl⟩ | ⟨hr, hs, rfl⟩ | ⟨ha, rfl⟩ | ⟨hr, -, ha, rfl⟩ := hcases
  · simp [emittedAt, accepts_of_rst s hr, hr]
  · simp [emittedAt, accepts_of_softReset s hs, hr, hT.frameValid, hT.hold, hT.pending]
  · obtain ⟨hr, -, -⟩ := accepts_imp ha
    have hem : emittedBy p.inData u = emittedBy p.inData s := by simp only [emittedBy, hT.phase, hT.heldFrame]
    obtain ⟨-, -, -, -, hpending, -, -, -, -, -, -, hhold, hvalid⟩ := acceptedState_outputs p.ts p.inData u
    simp [emittedAt, ha, hr, hpending, hhold, hvalid, hem, hT.pending]
  · simp [emittedAt, ha, hr, hT.frameValid, hT.hold, hT.pending]

/-- Settles O55: an edge shows a frame exactly when it emits one, and that is the held frame. -/
theorem frameValidPulses : Obligations.FrameValidPulses := by
  intro s t p h
  obtain ⟨hvalid, hhold, -⟩ := clockEdge_outputs h
  change (∀ q, t.frameValid = true ↔ Completes p s) ∧ _
  by_cases hc : Completes p s
  · obtain ⟨hr, -, -⟩ := accepts_imp hc.1
    rw [emittedAt_of_completes hc] at hvalid hhold
    simp [hvalid, hc, portOut, hhold, hr, hc.1, State.heldFrame]
  · rw [emittedAt_of_not_completes hc] at hvalid
    simp [hvalid, hc]

/-- The payload of a shown frame is read at the ports (R40, R77). -/
theorem plData_of_hold {s : State} {f : Frame} (hI : s.Inv) (hh : s.hold = some f) {a : BitVec 16}
    (ha : a.toNat < f.length.toNat) : f.payload[a.toNat]? = some (plData a s) := by
  obtain ⟨-, -, -, hread⟩ := payloadBufferHoldsThePayload s hI
  have hf : f.payload.length = f.length.toNat := by simpa [Frame.wf] using (hI.window f hh).1
  simp [plData, hh, ha, hread f hh a.toNat ha, hf]

/-- An edge that accepts no byte and does not assert `rst` keeps PBUF while the window is open (R35, R77). -/
theorem clockEdge_pbuf {p : PortIn} {s t : State} (h : clockEdge p s = .next t) (hr : p.rst = false)
    (ha : accepts p s = false) (hh : s.hold.isSome) : t.pbuf = s.pbuf := by
  obtain ⟨u, hu, hcases⟩ := clockEdge_cases h
  have hT := takeStage_taken hu
  obtain ⟨hr', -⟩ | ⟨-, -, rfl⟩ | ⟨ha', -⟩ | ⟨-, -, -, rfl⟩ := hcases
  · simp [hr] at hr'
  · simp [hT.hold, hT.pbuf, hh]
  · simp [ha] at ha'
  · exact hT.pbuf

/-- Settles O56: an edge closes the window only by `rst` or by accepting a byte, and a byte accepted in WaitStart, where the
window is open, emits no frame. -/
theorem frameWindow : Obligations.FrameWindow := by
  intro s f hI hh
  refine ⟨fun q => ?_, fun p t h hr ha => ?_, fun p t h ha => ?_⟩
  · exact ⟨by simp [portOut, hh], by simp [portOut, hh], by simp [portOut, hh], plData_of_hold hI hh⟩
  · obtain ⟨-, hhold, -⟩ := clockEdge_outputs h
    refine ⟨by simp [hhold, hr, ha, hh], fun a => ?_⟩
    rw [clockEdge_pbuf h hr ha (by simp [hh])]
  · obtain ⟨-, hhold, -⟩ := clockEdge_outputs h
    have hc : ¬ Completes p s := by simp [Completes, (hI.window f hh).2]
    obtain ⟨hr, -, -⟩ := accepts_imp ha
    simp [hhold, hr, ha, emittedAt_of_not_completes hc]

theorem busy_iff {s : State} : s.busy = true ↔ s.pending ≠ [] := by
  simp [State.busy]

/-- A record is left when one was pending and the last one was not taken. -/
theorem untaken_ne_nil (p : PortIn) (s : State) :
    untaken p s ≠ [] ↔ s.busy = true ∧ ¬ (p.recReady = true ∧ s.pending.length = 1) := by
  unfold untaken State.busy
  match s.pending with
  | [] => simp
  | [r] => cases p.recReady <;> simp
  | r :: r' :: rest => cases p.recReady <;> simp

/-- Settles O57: after an edge without `rst`, what is pending are the records left and those of the frame just emitted. -/
theorem inputIsHeldWhileRecordsAreDelivered : Obligations.InputIsHeldWhileRecordsAreDelivered := by
  refine ⟨fun p s => rfl, fun s t p h => ?_⟩
  obtain ⟨-, -, hpending⟩ := clockEdge_outputs h
  have hyield : (emittedAt p s).flatMap interpret ≠ [] ↔ Completes p s ∧ interpret s.heldFrame ≠ [] := by
    by_cases hc : Completes p s
    · simp [emittedAt_of_completes hc, hc]
    · simp [emittedAt_of_not_completes hc, hc]
  rw [busy_iff, hpending]
  cases hr : p.rst
  · rw [if_neg Bool.false_ne_true, ne_eq, List.append_eq_nil_iff, not_and_or, ← ne_eq, ← ne_eq, untaken_ne_nil, hyield,
      Completes, and_assoc, and_assoc, eq_self, true_and]
  · simp

/-! ### The record handshake and the priorities -/

/-- A presented record is taken by a ready consumer (R79, R170). -/
theorem takeStage_cons {p : PortIn} {s : State} {r : Record} {rest : List Record} (hp : s.pending = r :: rest)
    (hc : 1 ≤ s.logCapacity) (hr : p.recReady = true) :
    takeStage p s = .next
      { s.drawn.endPulse with
        pending := rest
        records := s.records ++ [r]
        triggers := s.triggers ++ (route s.triggerId r).toList
        traceRec := pushBounded s.logCapacity s.traceRec ⟨p.ts, r⟩ } := by
  rw [takeStage, if_pos (by simp [State.busy, hp, hr])]
  exact takeRecord_cons (s := s.drawn.endPulse) p.ts hp (Nat.one_le_iff_ne_zero.1 hc)

theorem takeStage_of_not_taking {p : PortIn} {s : State} (h : (s.busy && p.recReady) = false) :
    takeStage p s = .next s.drawn.endPulse := by
  simp [takeStage, h]

/-- Without `rst` and without an accepted byte, an edge ends with its first stage or with `soft_reset` (R74, R75). -/
theorem clockEdge_of_not_accepts {p : PortIn} {s u : State} (hu : takeStage p s = .next u) (hr : p.rst = false)
    (ha : accepts p s = false) : clockEdge p s = .next (if p.softReset then u.softReset else u) := by
  rw [clockEdge_eq, hu, andThen_next, ha]
  cases hs : p.softReset
  · simp [edgeInput, hr, hs]
  · simp [edgeInput_reset, hr, hs]

theorem toList_route (triggerId : Byte) (r : Record) :
    (route triggerId r).toList = if r.id = triggerId then [⟨r⟩] else [] := by
  unfold route
  split <;> rfl

/-- Settles O58: the lanes are read off the next record, and since a busy block accepts no byte, what an edge does to the
records is its first stage. -/
theorem recordHandshake : Obligations.RecordHandshake := by
  intro s p
  refine ⟨fun hp => by simp [portOut, State.busy, hp], fun r rest hp hc => ?_⟩
  have hb : s.busy = true := by simp [State.busy, hp]
  refine ⟨hb, by simp [portOut, hb, hp], ?_, ?_, fun hr => ?_⟩
  · rintro st i c rfl
    simp [portOut, hp, recLanes, recordKind, recordSubtype, recordGeometry, recordConfidence, Record.id]
  · rintro st i x y w h c rfl
    simp [portOut, hp, recLanes, recordKind, recordSubtype, recordGeometry, recordConfidence, Record.id]
  · cases hrec : p.recReady
    · have hu := takeStage_of_not_taking (p := p) (s := s) (by simp [hrec])
      refine ⟨_, clockEdge_of_not_accepts hu hr (accepts_of_busy p hb), ?_⟩
      cases p.softReset <;> simp
    · have hu := takeStage_cons hp hc hrec
      refine ⟨_, clockEdge_of_not_accepts hu hr (accepts_of_busy p hb), ?_⟩
      cases p.softReset <;> simp [toList_route]

/-- Settles O59: of the second stage's cases `rst` comes first, then `soft_reset`, and neither accepts a byte. -/
theorem edgePriorities : Obligations.EdgePriorities := by
  intro s p hc
  obtain ⟨u, hu⟩ := takeStage_completes p hc
  have hT := takeStage_taken hu
  refine ⟨fun hr => ?_, fun hr hs => ?_, fun hr hs ha hb => ?_⟩
  · refine ⟨u.hardReset, ?_, accepts_of_rst s hr, rfl, rfl, rfl, rfl, rfl, rfl, rfl, hT.frames⟩
    rw [clockEdge_eq, hu, andThen_next, edgeInput_reset _ _ (by simp [hr]), if_pos hr]
  · have ha := accepts_of_softReset s hs
    refine ⟨u.softReset, ?_, ha, rfl, rfl, rfl, hT.traceRaw, hT.frames, hT.hold⟩
    rw [clockEdge_of_not_accepts hu hr ha, if_pos hs]
  · rw [clockEdge_of_not_accepts (takeStage_of_not_taking hb) hr ha, hs]
    rfl

/-! ### The trace read port -/

/-- The search up to `n` finds a width, since `n ≤ 2 ^ n`. -/
theorem le_two_pow_ceilLog2 (n : Nat) : n ≤ 2 ^ ceilLog2 n := by
  unfold ceilLog2
  cases h : (List.range (n + 1)).find? fun w => n ≤ 2 ^ w with
  | some w => simpa using List.find?_some h
  | none =>
    have hn := List.find?_eq_none.1 h n (by simp)
    exact absurd n.lt_two_pow_self.le (by simpa using hn)

theorem logCount_le {s : State} (hI : s.Inv) (logSel : Bool) : logCount logSel s ≤ s.logCapacity := by
  cases logSel
  · exact hI.traceRaw
  · exact hI.traceRec

/-- Settles O60: the selected channel is within its capacity, and the ports show the entry of its reversed list. -/
theorem traceReadPort : Obligations.TraceReadPort := by
  intro s p hI
  refine ⟨?_, fun hsel => ?_, fun hsel => ?_⟩
  · exact (Nat.lt_succ_of_le (logCount_le hI p.logSel)).trans_le (le_two_pow_ceilLog2 _)
  · refine ⟨by simp [portOut, logCount, Channel.ofSel, hsel], fun e hi he => ?_⟩
    have hentry : rawEntryAt p.logIdx s = some e := (List.getElem?_reverse hi).trans he
    simp [portOut, logTs, logByte, Channel.ofSel, hsel, hentry]
  · refine ⟨by simp [portOut, logCount, Channel.ofSel, hsel], fun e hi he => ?_⟩
    have hentry : recEntryAt p.logIdx s = some e := (List.getElem?_reverse hi).trans he
    simp +contextual [portOut, logTs, logRec, logLanes, Channel.ofSel, hsel, hentry]

end Sys2Proof.Machine

/-! # The clocked ports realise the transactions (R83)

`State.view` is what the two levels agree on: what an observer sees once the pending records are taken, the parameters, and
how far a frame has come, without the fields that the decoder writes before it reads them (R36). Taking a record keeps it,
and what a byte or a reset makes of it depends on it alone; the rest is an induction over the edges. -/

namespace Sys2Proof.Machine

/-! ### A run is its inputs handled one after another -/

/-- What a step does with the next input. -/
def handle : Input → State → Result
  | .op o => transact o
  | .edge p => clockEdge p

/-- Inputs one after another, each handled as a step handles it. -/
def handleAll : List Input → State → Result
  | [], s => .next s
  | i :: is, s => andThen (handle i s) (handleAll is)

theorem handleAll_append (is js : List Input) (s : State) :
    handleAll (is ++ js) s = andThen (handleAll is s) (handleAll js) := by
  induction is generalizing s with
  | nil => rfl
  | cons i is ih => rw [List.cons_append, handleAll, handleAll, andThen_assoc, funext ih]

theorem selectWord_setInputs (o : Operation) (s : State) (is : List Input) :
    selectWord o (s.setInputs is) = selectWord o s := by
  cases o <;> rfl

theorem rowState_setInputs (o : Operation) (s : State) (is : List Input) :
    rowState o (s.setInputs is) = (rowState o s).setInputs is := by
  cases o <;> rfl

theorem transact_ignoresInputs (o : Operation) : IgnoresInputs (transact o) := by
  obtain ⟨b, rfl⟩ | ho := feed_or_not o
  · exact feedTransaction_ignoresInputs b
  · have h := (runDecoded_read (selectWord_setInputs o)).comp (rowState_setInputs o)
    exact (funext (transact_eq_runDecoded ho)).symm ▸ h

theorem clockEdge_ignoresInputs (p : PortIn) : IgnoresInputs (clockEdge p) := by
  have htake : IgnoresInputs (takeStage p) :=
    .ite (c := fun s => (s.busy && p.recReady) = true) (fun _ _ => .rfl)
      ((takeRecord_ignoresInputs p.ts).comp (e := fun s => s.drawn.endPulse) fun _ _ => rfl) (.next fun _ _ => rfl)
  have hinput (a : Bool) : IgnoresInputs (edgeInput p a) :=
    .ite (c := fun _ => (p.rst || p.softReset) = true) (fun _ _ => .rfl) (runDecoded_ignoresInputs _)
      (.ite (c := fun _ => a = true) (fun _ _ => .rfl) (acceptByte_ignoresInputs _ _) (.next fun _ _ => rfl))
  exact .read (v := accepts p) (k := fun a s => andThen (takeStage p s) (edgeInput p a)) (fun _ _ => rfl)
    fun a => htake.andThen (hinput a)

theorem handle_ignoresInputs (i : Input) : IgnoresInputs (handle i) := by
  cases i with
  | op o => exact transact_ignoresInputs o
  | edge p => exact clockEdge_ignoresInputs p

/-- A run over what is presented handles each input in turn, and consumes them all. -/
theorem run_setInputs (is : List Input) (s : State) :
    run is.length (s.setInputs is) = andThen (handleAll is s) fun t => .next (t.setInputs []) := by
  induction is generalizing s with
  | nil => rfl
  | cons i is ih =>
    have hstep : step (s.setInputs (i :: is)) = handle i (s.setInputs is) := by cases i <;> rfl
    rw [List.length_cons, run_succ, hstep, handle_ignoresInputs, andThen_assoc, handleAll, andThen_assoc]
    exact congrArg _ (funext ih)

/-! ### How far a frame has come -/

/-- What the decoder knows of the frame it is receiving (R24 to R28): in each phase the fields that have been written for
this frame, and no other. -/
inductive Progress where
  | waitStart
  | header (scratch : List Byte)
  | payload (cmd : Byte) (len : Half) (scratch : List Byte)
  | checksum (cmd : Byte) (len : Half) (payload scratch : List Byte)
  | atEnd (f : Frame)

/-- How far the frame has come in a state. -/
def State.progress (s : State) : Progress :=
  match s.phase with
  | .waitStart => .waitStart
  | .header => .header s.scratch
  | .payload => .payload s.cmd s.len s.scratch
  | .checksum => .checksum s.cmd s.len s.payload s.scratch
  | .atEnd => .atEnd s.heldFrame

/-- The phase it is in. -/
def Progress.phase : Progress → Phase
  | .waitStart => .waitStart
  | .header _ => .header
  | .payload _ _ _ => .payload
  | .checksum _ _ _ _ => .checksum
  | .atEnd _ => .atEnd

/-- What a byte makes of it (R100 to R109). -/
def Progress.feed (b : Byte) : Progress → Progress
  | .waitStart => if b = Config.startMarker then .header [] else .waitStart
  | .header [c, lo] => if le16 lo b = 0 then .checksum c (le16 lo b) [] [] else .payload c (le16 lo b) []
  | .header bs => .header (bs ++ [b])
  | .payload c l bs =>
    if bs.length + 1 < l.toNat then .payload c l (bs ++ [b]) else .checksum c l (bs ++ [b]) []
  | .checksum c l p [c0, c1, c2] => .atEnd ⟨c, l, p, le32 c0 c1 c2 b⟩
  | .checksum c l p bs => .checksum c l p (bs ++ [b])
  | .atEnd f => if b = Config.endMarker then .waitStart else .atEnd f

/-- The frames that a byte completes (R111). -/
def Progress.emits (b : Byte) : Progress → List Frame
  | .atEnd f => if b = Config.endMarker then [f] else []
  | _ => []

theorem progress_phase (s : State) : s.progress.phase = s.phase := by
  unfold State.progress
  cases s.phase <;> rfl

theorem emittedBy_eq_emits (b : Byte) (s : State) : emittedBy b s = s.progress.emits b := by
  unfold emittedBy State.progress Progress.emits
  cases s.phase <;> simp

/-- The decoder's rows follow `Progress.feed`, so they read none of the fields that it leaves out (R36). -/
theorem fedState_progress (b : Byte) (s : State) : (fedState b s).progress = s.progress.feed b := by
  unfold fedState
  split
  case h_1 hp | h_7 hp =>
    simp only [State.progress, Progress.feed, hp]
    split_ifs
    · rfl
    · simp [hp]
  case h_2 hp hs =>
    simp only [State.progress, Progress.feed, headerDone, hp, hs]
    split_ifs <;> rfl
  case h_4 hp =>
    simp only [State.progress, Progress.feed, hp]
    split_ifs
    · simp [hp]
    · rfl
  case h_3 hp hs | h_6 hp hs => simp [State.progress, Progress.feed, hp]
  case h_5 hp hs => simp [State.progress, Progress.feed, hp, hs, State.heldFrame]

/-! ### What the two levels agree on -/

/-- What an observer sees once the pending records have been taken. -/
def State.settled (s : State) : Observed :=
  { s.observe with
    records := s.records ++ s.pending
    triggers := s.triggers ++ s.pending.filterMap (route s.triggerId)
    recRecords := lastN s.logCapacity (s.traceRec.map RecEntry.record ++ s.pending) }

/-- The progress of the frame, what an observer sees, and the parameters. -/
def State.view (s : State) : Progress × Observed × Byte × Nat :=
  (s.progress, s.settled, config s)

theorem view_eq_iff {s t : State} :
    s.view = t.view ↔ s.progress = t.progress ∧ s.settled = t.settled ∧ config s = config t := by
  simp [State.view]

theorem lastN_of_length_le {α : Type} {n : Nat} {l : List α} (h : l.length ≤ n) : lastN n l = l := by
  rw [lastN, Nat.sub_eq_zero_of_le h, List.drop_zero]

/-- With nothing pending, that is what an observer sees now. -/
theorem settled_eq_observe {s : State} (hI : s.Inv) (hp : s.pending = []) : s.settled = s.observe := by
  have hrec : lastN s.logCapacity (s.traceRec.map RecEntry.record) = s.traceRec.map RecEntry.record :=
    lastN_of_length_le (by simpa using hI.traceRec)
  simp [State.settled, State.observe, hp, hrec]

/-- Taking a record moves it from the pending records to the delivered ones, and changes nothing else (R79). -/
theorem takeRecord_view {x : Timestamp} {s t : State} (hI : s.Inv) (h : takeRecord x s = .next t) : t.view = s.view := by
  cases hp : s.pending with
  | nil => simp only [takeRecord, hp] at h; cases h; rfl
  | cons r rest =>
    rw [takeRecord_cons x hp (by have := hI.capacity; omega)] at h
    cases h
    have hrec := map_foldl_pushBounded RecEntry.record s.traceRec [⟨x, r⟩] hI.traceRec
    simp only [List.foldl_cons, List.foldl_nil] at hrec
    refine view_eq_iff.2 ⟨rfl, ?_, rfl⟩
    cases hr : route s.triggerId r <;> simp [State.settled, State.observe, hp, hr, hrec, lastN_lastN_append]

theorem takeStage_view {p : PortIn} {s u : State} (hI : s.Inv) (h : takeStage p s = .next u) :
    u.view = s.view ∧ u.Inv := by
  have hI' : s.drawn.endPulse.Inv := hI.drawn.endPulse
  unfold takeStage at h
  split at h
  · exact ⟨takeRecord_view (s := s.drawn.endPulse) hI' h, takeRecord_inv hI' h⟩
  · cases h
    exact ⟨rfl, hI'⟩

theorem deliverAll_view {s t : State} (hI : s.Inv) (h : deliverAll s = .next t) : t.pending = [] ∧ t.view = s.view := by
  obtain ⟨es, hes, hd⟩ := deliverAll_eq hI
  rw [hd] at h
  cases h
  have hrec := map_foldl_pushBounded RecEntry.record s.traceRec es hI.traceRec
  have htwice := lastN_lastN_append s.logCapacity (s.traceRec.map RecEntry.record ++ s.pending) []
  rw [List.append_nil, List.append_nil] at htwice
  refine ⟨rfl, view_eq_iff.2 ⟨rfl, ?_, rfl⟩⟩
  simp [State.settled, State.observe, hrec, hes, htwice]

/-! ### What a byte and a reset make of it -/

/-- What an observer sees after an accepted byte follows from what it saw before and from the progress of the frame. -/
theorem acceptedState_settled (x : Timestamp) (b : Byte) (s : State) :
    (acceptedState x b s).settled =
      { phase := (s.progress.feed b).phase
        frames := s.settled.frames ++ s.progress.emits b
        records := s.settled.records ++ (s.progress.emits b).flatMap interpret
        triggers := s.settled.triggers ++ ((s.progress.emits b).flatMap interpret).filterMap (route s.triggerId)
        rawValues := pushBounded s.logCapacity s.settled.rawValues b
        recRecords := lastN s.logCapacity (s.settled.recRecords ++ (s.progress.emits b).flatMap interpret) } := by
  obtain ⟨hraw, hrec, htrig, hcap, hpending, hrecords, htriggers, -, -, -, hframes, -, -⟩ := acceptedState_outputs x b s
  have hphase : (acceptedState x b s).phase = (s.progress.feed b).phase := by
    rw [← fedState_progress, progress_phase, (acceptedState_decoder x b s).1]
  simp [State.settled, State.observe, hraw, hrec, htrig, hcap, hpending, hrecords, htriggers, hframes, hphase,
    ← emittedBy_eq_emits, map_pushBounded, lastN_lastN_append]

theorem acceptedState_progress (x : Timestamp) (b : Byte) (s : State) :
    (acceptedState x b s).progress = s.progress.feed b :=
  fedState_progress b (beforeRow x b s)

theorem acceptedState_config (x : Timestamp) (b : Byte) (s : State) : config (acceptedState x b s) = config s := by
  obtain ⟨-, -, htrig, hcap, -⟩ := acceptedState_outputs x b s
  exact Prod.ext htrig hcap

/-- Two states that agree accept a byte alike, whatever their timestamps. -/
theorem acceptedState_view (x y : Timestamp) (b : Byte) {s t : State} (h : s.view = t.view) :
    (acceptedState x b s).view = (acceptedState y b t).view := by
  obtain ⟨hprog, hset, hconf⟩ := view_eq_iff.1 h
  obtain ⟨htrig, hcap⟩ := Prod.mk.inj hconf
  refine view_eq_iff.2 ⟨?_, ?_, ?_⟩
  · rw [acceptedState_progress, acceptedState_progress, hprog]
  · rw [acceptedState_settled, acceptedState_settled, hprog, hset, htrig, hcap]
  · rw [acceptedState_config, acceptedState_config, hconf]

theorem softReset_view {s t : State} (h : s.view = t.view) : s.softReset.view = t.softReset.view := by
  obtain ⟨-, hset, hconf⟩ := view_eq_iff.1 h
  exact view_eq_iff.2 ⟨rfl, congrArg (fun o => { o with phase := .waitStart }) hset, hconf⟩

/-- RST drops the pending records, so it needs that none are (log entry 25). -/
theorem hardReset_view {s t : State} (hs : s.pending = []) (ht : t.pending = []) (h : s.view = t.view) :
    s.hardReset.view = t.hardReset.view := by
  obtain ⟨-, hset, hconf⟩ := view_eq_iff.1 h
  obtain ⟨-, hcap⟩ := Prod.mk.inj hconf
  simp only [State.settled, State.observe, hs, ht, Observed.mk.injEq] at hset
  obtain ⟨-, hframes, hrecords, htriggers, -, -⟩ := hset
  refine view_eq_iff.2 ⟨rfl, ?_, hconf⟩
  simp_all [State.settled, State.observe]

/-- A FEED transaction is an accepted byte with its records delivered (R170). -/
theorem feedTransaction_view {b : Byte} {s t : State} (x : Timestamp) (hI : s.Inv) (h : feedTransaction b s = .next t) :
    t.pending = [] ∧ t.view = (acceptedState x b s).view := by
  obtain ⟨s1, h1, h⟩ := andThen_eq_next.1 h
  obtain ⟨s2, h2, h3⟩ := andThen_eq_next.1 h
  have hI1 := deliverAll_inv hI h1
  obtain ⟨-, hv1⟩ := deliverAll_view hI h1
  obtain ⟨hp, hv3⟩ := deliverAll_view (acceptByte_inv hI1.drawn h2) h3
  refine ⟨hp, ?_⟩
  rw [hv3, acceptByte_eq_next h2]
  exact acceptedState_view _ x b hv1

/-! ### The simulation -/

/-- A state of the transaction level that stands for a state of the ports: it has delivered the records that the ports still
present, and agrees with them otherwise. -/
structure Realises (w s : State) : Prop where
  inv : w.Inv
  inv_ports : s.Inv
  delivered : w.pending = []
  view : w.view = s.view

/-- One edge and the transactions it performs (R74, R75, R83). -/
theorem clockEdge_realises {p : PortIn} {s t w : State} (hR : Realises w s) (hr : (p.rst && s.busy) = false)
    (h : clockEdge p s = .next t) :
    ∃ w', handleAll ((edgeOps p s).map .op) w = .next w' ∧ Realises w' t := by
  obtain ⟨hI, hIs, hpw, hv⟩ := hR
  have hIt := clockEdge_inv hIs h
  obtain ⟨u, hu, hcases⟩ := clockEdge_cases h
  obtain ⟨huv, hIu⟩ := takeStage_view hIs hu
  have hvu : w.view = u.view := hv.trans huv.symm
  obtain ⟨hrst, rfl⟩ | ⟨hrst, hsoft, rfl⟩ | ⟨ha, rfl⟩ | ⟨hrst, hsoft, ha, rfl⟩ := hcases
  · have hb : s.busy = false := by simpa [hrst] using hr
    have hpu : u.pending = [] := by
      rw [(takeStage_taken hu).pending, untaken, hb]
      simpa [State.busy] using hb
    refine ⟨w.endPulse.hardReset, by simp [edgeOps, hrst]; rfl, hI.endPulse.hardReset, hIt, rfl, ?_⟩
    exact hardReset_view hpw hpu hvu
  · refine ⟨w.endPulse.softReset, by simp [edgeOps, hrst, hsoft]; rfl, hI.endPulse.softReset, hIt, hpw, ?_⟩
    exact softReset_view (s := w.endPulse) hvu
  · obtain ⟨hrst, hsoft, -⟩ := accepts_imp ha
    have hops : edgeOps p s = [.feed p.inData] := by
      simp only [edgeOps, hrst, hsoft, Bool.false_eq_true, if_false]
      exact if_pos ha
    obtain ⟨_, -, hw⟩ := feedTransaction_eq hI p.inData hpw
    obtain ⟨hpw', hvw'⟩ := feedTransaction_view p.ts hI hw
    refine ⟨_, ?_, feedTransaction_inv hI hw, hIt, hpw', hvw'.trans (acceptedState_view _ _ _ hvu)⟩
    rw [hops]
    exact congrArg (andThen · _) hw
  · have hops : edgeOps p s = [] := by
      simp only [edgeOps, hrst, hsoft, Bool.false_eq_true, if_false]
      exact if_neg (by simpa [accepts] using ha)
    exact ⟨w, by rw [hops]; rfl, hI, hIt, hpw, hvu⟩

/-- Every sequence of edges and the transactions it performs, by induction on the edges. -/
theorem edges_realise (ps : List PortIn) {s w : State} (hR : Realises w s) (hn : noRstWhileBusy ps s = true) :
    ∃ t w', handleAll (ps.map .edge) s = .next t ∧ handleAll ((acceptedOps ps s).map .op) w = .next w' ∧
      Realises w' t := by
  induction ps generalizing s w with
  | nil => exact ⟨s, w, rfl, rfl, hR⟩
  | cons p ps ih =>
    obtain ⟨s1, h1, -⟩ := clockEdge_next hR.inv_ports p
    simp only [noRstWhileBusy, h1, Bool.and_eq_true, Bool.not_eq_true'] at hn
    obtain ⟨w1, hw1, hR1⟩ := clockEdge_realises hR hn.1 h1
    obtain ⟨t, w', ht, hw', hR'⟩ := ih hR1 hn.2
    refine ⟨t, w', ?_, ?_, hR'⟩
    · simp [handleAll, handle, h1, ht]
    · simp [acceptedOps, h1, handleAll_append, hw1, hw']

/-- Settles O54: the simulation, from a state that stands for itself, and what is seen once the rest is delivered. -/
theorem edgesRealiseTransactions : Obligations.EdgesRealiseTransactions := by
  intro ps s hI hp hn
  obtain ⟨t, w, ht, hw, hR⟩ := edges_realise ps ⟨hI, hI, hp, rfl⟩ hn
  have hIt : (t.setInputs []).Inv := hR.inv_ports.setInputs []
  obtain ⟨_, -, hv⟩ := deliverAll_eq hIt
  obtain ⟨hpv, hview⟩ := deliverAll_view hIt hv
  have hrun := run_setInputs (ps.map .edge) s
  have hrun' := run_setInputs ((acceptedOps ps s).map .op) s
  rw [List.length_map, ht] at hrun
  rw [List.length_map, hw] at hrun'
  refine ⟨_, _, _, hrun, hv, hrun', ?_⟩
  obtain ⟨-, hsettled, -⟩ := view_eq_iff.1 (hview.trans hR.view.symm)
  rw [← settled_eq_observe (deliverAll_inv hIt hv) hpv, hsettled]
  exact settled_eq_observe hR.inv hR.delivered

end Sys2Proof.Machine

/-! # Runs over inputs from outside the block (R112, R200) -/

namespace Sys2Proof.Machine

/-- An operation that ignores the inputs leaves them as they are. -/
theorem IgnoresInputs.inputs_eq {f : State → Result} (hf : IgnoresInputs f) {s t : State} (h : f s = .next t) :
    t.inputs = s.inputs := by
  have hs : f s = Machine.andThen (f s) fun t => .next (t.setInputs s.inputs) := hf s s.inputs
  rw [h, andThen_next] at hs
  exact (congrArg State.inputs (Host.Outcome.next.inj hs) :)

theorem deliverAll_completes {s : State} (hI : s.Inv) : ∃ t, deliverAll s = .next t ∧ t.Inv := by
  obtain ⟨_, -, h⟩ := deliverAll_eq hI
  exact ⟨_, h, deliverAll_inv hI h⟩

/-- A FEED transaction completes from every state that meets the invariant, whatever is still pending (R112, R170). -/
theorem feedTransaction_completes {s : State} (hI : s.Inv) (b : Byte) : ∃ t, feedTransaction b s = .next t := by
  obtain ⟨s1, h1, hI1⟩ := deliverAll_completes hI
  obtain ⟨t, h2, -⟩ := deliverAll_completes (acceptedState_inv hI1.drawn (Config.timestamp s1.draws) b)
  exact ⟨t, by rw [feedTransaction, h1, andThen_next, acceptByte_eq hI1.drawn, andThen_next, h2]⟩

/-- What comes from outside the block is handled to completion. -/
theorem handle_completes {i : Input} {s : State} (hI : s.Inv) (hi : i.external = true) : ∃ t, handle i s = .next t := by
  match i with
  | .op (.feed b) => exact feedTransaction_completes hI b
  | .op .reset => exact ⟨_, rfl⟩
  | .op .rst => exact ⟨_, rfl⟩
  | .op (.logSnapshot ch) => exact ⟨_, runDecoded_snapshot ch s⟩
  | .edge p => exact (clockEdge_next hI p).imp fun _ => And.left
  | .op (.interpret _) | .op (.route _) | .op (.logPushRaw _ _) | .op (.logPushRecord _ _) => cases hi

/-- One step consumes what is presented next and completes. -/
theorem step_completes {s : State} (hI : s.Inv) (hs : ∀ i ∈ s.inputs, i.external = true) :
    ∃ t, step s = .next t ∧ t.inputs = s.inputs.drop 1 := by
  cases h : s.inputs with
  | nil => exact ⟨s, by simp [step, h], h⟩
  | cons i rest =>
    have hstep : step s = handle i (s.setInputs rest) := by cases i <;> simp [step, h, handle]
    obtain ⟨t, ht⟩ := handle_completes (hI.setInputs rest) (hs i (by simp [h]))
    exact ⟨t, hstep.trans ht, (handle_ignoresInputs i).inputs_eq ht⟩

/-- Settles O40, by induction on the number of steps: each completes, keeps the invariant and leaves the rest of the
inputs. -/
theorem externalRunsNeverStop : Obligations.ExternalRunsNeverStop := by
  intro k
  induction k with
  | zero => exact fun s hI _ => ⟨s, rfl, hI, rfl⟩
  | succ k ih =>
    intro s hI hs
    obtain ⟨u, hu, huin⟩ := step_completes hI hs
    have huI := everyStepKeepsTheInvariant s u hI hu
    obtain ⟨t, ht, htI, htin⟩ := ih u huI fun i hi => hs i (List.mem_of_mem_drop (huin ▸ hi))
    refine ⟨t, by rw [run_succ, hu, andThen_next, ht], htI, ?_⟩
    rw [htin, huin, List.drop_drop, Nat.add_comm]

end Sys2Proof.Machine

/-! # The checksum influences nothing (R113)

No row reads a checksum, so two states that agree but for checksums step alike (`Unobserved.step`). -/

namespace Sys2Proof.Machine

@[simp] theorem butChecksum_butChecksum (f : Frame) : f.butChecksum.butChecksum = f.butChecksum := rfl

@[simp] theorem butChecksum_comp_butChecksum : Frame.butChecksum ∘ Frame.butChecksum = Frame.butChecksum := rfl

@[simp] theorem heldFrame_butChecksum (s : State) : s.butChecksum.heldFrame = s.heldFrame.butChecksum := rfl

theorem headerDone_butChecksum (c : Byte) (l : Half) (s : State) :
    (headerDone c l s).butChecksum = (headerDone c l s.butChecksum).butChecksum := by
  unfold headerDone
  split <;> simp [State.butChecksum]

/-- What an instruction does to the rest of the state does not depend on the checksums. -/
theorem effect_butChecksum (s : State) (i : Instr) :
    (effect s i).butChecksum = (effect s.butChecksum i).butChecksum := by
  cases i
  case feedHdrDone b => exact headerDone_butChecksum _ _ s
  case feedEndEmit => simp only [effect, heldFrame_butChecksum]; simp [State.butChecksum]
  case logSnapshot ch => cases ch <;> simp [effect, State.butChecksum, State.snapshot]
  all_goals simp [effect, State.butChecksum]

/-- Nor does where it applies. -/
theorem applies_butChecksum (s : State) (i : Instr) : applies s.butChecksum i ↔ applies s i := by
  cases i <;> rfl

theorem selectWord_butChecksum (o : Operation) (s : State) : selectWord o s.butChecksum = selectWord o s := by
  cases o <;> rfl

theorem runDecoded_follows_butChecksum (w : OpWord) {s t : State} (h : s.butChecksum = t.butChecksum) :
    Follows State.butChecksum (runDecoded w s) (runDecoded w t) := by
  intro s1 h1
  obtain ⟨i, hd, ha, rfl⟩ := runDecoded_eq_next.1 h1
  refine ⟨effect t i, runDecoded_eq_next.2 ⟨i, hd, ?_, rfl⟩, ?_⟩
  · rwa [← applies_butChecksum, ← h, applies_butChecksum]
  · rw [effect_butChecksum, h, ← effect_butChecksum]

/-- The interpreter reads a frame without its checksum (R113, R120). -/
theorem runDecoded_command_butChecksum (f : Frame) (s : State) :
    runDecoded (.command f.butChecksum) s = runDecoded (.command f) s := by
  cases hf : f.wf with
  | true => exact (runDecoded_command (f := f.butChecksum) hf s).trans (runDecoded_command hf s).symm
  | false => exact (runDecoded_notAFrame (f := f.butChecksum) hf s).trans (runDecoded_notAFrame hf s).symm

theorem interpretEmitted_follows_butChecksum {s t : State} (h : s.butChecksum = t.butChecksum) :
    Follows State.butChecksum (interpretEmitted s) (interpretEmitted t) := by
  have hhold : s.hold.map Frame.butChecksum = t.hold.map Frame.butChecksum := (congrArg State.hold h :)
  unfold interpretEmitted
  match s.hold, t.hold, hhold with
  | none, none, _ => exact .next h
  | some f, some g, hfg =>
    have hfg : f.butChecksum = g.butChecksum := Option.some.inj hfg
    change Follows _ (runDecoded (.command f) s) (runDecoded (.command g) t)
    rw [← runDecoded_command_butChecksum f, hfg, runDecoded_command_butChecksum]
    exact runDecoded_follows_butChecksum _ h

theorem closeWindow_butChecksum (s : State) : s.closeWindow.butChecksum = s.butChecksum.closeWindow := by
  simp [State.closeWindow, State.butChecksum]

theorem unobserved_butChecksum : Unobserved State.butChecksum where
  inputs h := (congrArg State.inputs h :)
  pending h := (congrArg State.pending h :)
  draws h := (congrArg State.draws h :)
  setInputs h is := congrArg (State.setInputs is) h
  drawn h := congrArg State.drawn h
  endPulse h := congrArg State.endPulse h
  closeWindow {s t} h := by rw [closeWindow_butChecksum, h, ← closeWindow_butChecksum]
  received h r rest := congrArg (fun u => (u.setPending rest).emitRecord r) h
  row {s t} h o := by
    rw [← selectWord_butChecksum o s, h, selectWord_butChecksum]
    exact runDecoded_follows_butChecksum _ h
  interpretEmitted := interpretEmitted_follows_butChecksum

theorem plData_butChecksum (a : BitVec 16) (s : State) : plData a s.butChecksum = plData a s := by
  unfold plData
  rw [show s.butChecksum.hold = s.hold.map Frame.butChecksum from rfl]
  cases s.hold <;> rfl

/-- Of all ports only `frame_csum` shows a checksum. -/
theorem portOut_butChecksum (p : PortIn) (s : State) :
    { portOut p s.butChecksum with frameCsum := 0 } = { portOut p s with frameCsum := 0 } := by
  have hcmd : s.butChecksum.hold.map Frame.command = s.hold.map Frame.command := Option.map_map ..
  have hlen : s.butChecksum.hold.map Frame.length = s.hold.map Frame.length := Option.map_map ..
  simp only [portOut, hcmd, hlen, plData_butChecksum]
  rfl

/-- Settles O47: no row reads a checksum, so no step does; FEED_END_EMIT copies `csum` into the frame it emits. -/
theorem checksumInfluencesNothing : Obligations.ChecksumInfluencesNothing := by
  refine ⟨fun _ _ s1 h h1 => unobserved_butChecksum.step h s1 h1, fun s hp => ?_, fun p s t h => ?_⟩
  · exact ⟨_, execFeedEndEmit_eq_next.2 ⟨hp, rfl⟩, by simp [State.heldFrame]⟩
  · rw [← portOut_butChecksum p s, h, portOut_butChecksum]

end Sys2Proof.Machine

/-! # The rows of FEED and RESET (R100 to R112)

A FEED row that applies is selected and has its effect (`selected_and_runs`); what the ten rows do and leave unchanged is
read off `effect`. -/

namespace Sys2Proof.Machine

/-! ### What the rows do -/

/-- What the third header byte does, field by field (R103). -/
theorem headerDone_eq (c : Byte) (l : Half) (s : State) :
    headerDone c l s =
      { s with
        cmd := c, len := l, scratch := []
        payload := if l = 0 then [] else s.payload
        phase := if l = 0 then .checksum else .payload } := by
  unfold headerDone
  split <;> rfl

/-- A FEED row that applies is the one its byte selects, and completes with its effect (R70). -/
theorem selected_and_runs {i : Instr} {b : Byte} {s : State} (hwf : i.wf = true) (hb : i.fedByte = some b)
    (h : applies s i) : decode (feedWord b s) = .ok i ∧ exec i s = .next (effect s i) :=
  ⟨decode_feedWord_of_applies hwf hb h, exec_eq_next.2 ⟨h, rfl⟩⟩

/-- Settles O1: in WaitStart FEED_WS_START applies, and 0xFD is its byte. -/
theorem startMarkerBeginsAFrame : Obligations.StartMarkerBeginsAFrame := fun _ hp =>
  selected_and_runs (i := .feedWsStart) rfl rfl hp

/-- Settles O2: on a byte other than its marker FEED_WS_SKIP applies, and its effect is the state itself. -/
theorem otherBytesAreSkippedWhileScanning : Obligations.OtherBytesAreSkippedWhileScanning := by
  intro s b hp hb
  obtain ⟨hd, he⟩ := selected_and_runs (i := .feedWsSkip b) (s := s) (bne_iff_ne.2 hb) rfl ⟨hp, hb⟩
  exact ⟨hd, he, by rw [hp]; exact if_pos hb⟩

/-- Settles O3: FEED_HDR_ACC applies whatever the byte. -/
theorem headerByteIsCollected : Obligations.HeaderByteIsCollected := fun _ b hp hn =>
  selected_and_runs (i := .feedHdrAcc b) rfl rfl ⟨hp, hn⟩

/-- Settles O4: `headerDone` of the two bytes collected, for either length. -/
theorem headerCompletes : Obligations.HeaderCompletes := by
  intro s c lo hi hp hs
  obtain ⟨hd, he⟩ := selected_and_runs (i := .feedHdrDone hi) (s := s) rfl rfl ⟨hp, by simp [hs]⟩
  refine ⟨hd, he.trans (congrArg _ ?_)⟩
  change headerDone (s.scratch.getD 0 0) (le16 (s.scratch.getD 1 0) hi) s = _
  rw [hs]
  rfl

/-- Settles O5: a read of PBUF after the row's write. -/
theorem payloadByteIsCollected : Obligations.PayloadByteIsCollected := by
  intro s b hp hn
  obtain ⟨hd, he⟩ := selected_and_runs (i := .feedPlAcc b) (s := s) rfl rfl ⟨hp, hn⟩
  exact ⟨hd, _, he, Memory.read_write_same _ _ _, fun _ => Memory.read_write_other _ _⟩

/-- Settles O6: the last byte is written at index `len - 1`, which is the number of bytes before it. -/
theorem payloadCompletes : Obligations.PayloadCompletes := by
  intro s b hp hn
  obtain ⟨hd, he⟩ := selected_and_runs (i := .feedPlDone b) (s := s) rfl rfl ⟨hp, hn⟩
  rw [← hn, Nat.add_sub_cancel]
  exact ⟨hd, by simp, _, he, Memory.read_write_same _ _ _, fun _ => Memory.read_write_other _ _⟩

/-- Settles O7: FEED_CK_ACC applies whatever the byte. -/
theorem checksumByteIsCollected : Obligations.ChecksumByteIsCollected := fun _ b hp hn =>
  selected_and_runs (i := .feedCkAcc b) rfl rfl ⟨hp, hn⟩

/-- Settles O8: `le32` of the three bytes collected and the fourth. -/
theorem checksumCompletes : Obligations.ChecksumCompletes := by
  intro s c0 c1 c2 c3 hp hs
  obtain ⟨hd, he⟩ := selected_and_runs (i := .feedCkDone c3) (s := s) rfl rfl ⟨hp, by simp [hs]⟩
  refine ⟨hd, he.trans ?_⟩
  simp only [effect, hs]
  rfl

/-- Settles O9: in End the payload is as long as `len` says (R37). -/
theorem endMarkerEmitsTheFrame : Obligations.EndMarkerEmitsTheFrame := by
  intro s hp
  obtain ⟨hd, he⟩ := selected_and_runs (i := .feedEndEmit) (s := s) rfl rfl hp
  exact ⟨hd, he, fun hI => (hI.atEnd hp).2⟩

/-- Settles O10: on a byte other than its marker FEED_END_STALL applies, and its effect is the state itself. -/
theorem otherBytesStallInEnd : Obligations.OtherBytesStallInEnd := by
  intro s b hp hb
  obtain ⟨hd, he⟩ := selected_and_runs (i := .feedEndStall b) (s := s) (bne_iff_ne.2 hb) rfl ⟨hp, hb⟩
  exact ⟨hd, he, by rw [hp]; exact if_pos hb⟩

/-! ### What the rows leave unchanged -/

/-- Only FEED_END_EMIT emits a frame (R111). -/
theorem effect_frames {i : Instr} (s : State) (hi : i ≠ .feedEndEmit) : (effect s i).frames = s.frames := by
  cases i
  case feedEndEmit => exact absurd rfl hi
  case feedHdrDone b => simp only [effect, headerDone_eq]
  all_goals rfl

/-- Settles O46: the effect of a row on the emitted frames, and the byte and the phase that select FEED_END_EMIT. -/
theorem onlyTheEndMarkerEmits : Obligations.OnlyTheEndMarkerEmits := by
  refine ⟨fun i s t h => ?_, fun s b h => ?_⟩
  · obtain ⟨-, rfl⟩ := exec_eq_next.1 h
    exact ⟨effect_frames s, fun hi => hi ▸ rfl⟩
  · have hp : s.phase = .atEnd := applies_of_decode_feedWord h
    exact ⟨hp, by simpa [decode_feedWord_eq, hp] using h⟩

/-- Every FEED row leaves all but the decoder, PBUF and the frame output alone. -/
theorem effect_outside {i : Instr} (s : State) (hi : i.format = .feed) :
    (effect s i).traceRaw = s.traceRaw ∧ (effect s i).traceRec = s.traceRec ∧ (effect s i).triggerId = s.triggerId ∧
      (effect s i).logCapacity = s.logCapacity ∧ (effect s i).pending = s.pending ∧ (effect s i).records = s.records ∧
      (effect s i).triggers = s.triggers ∧ (effect s i).snapshots = s.snapshots ∧ (effect s i).inputs = s.inputs ∧
      (effect s i).draws = s.draws := by
  cases i <;> cases hi
  case feedHdrDone b => simp [effect, headerDone_eq]
  all_goals exact ⟨rfl, rfl, rfl, rfl, rfl, rfl, rfl, rfl, rfl, rfl⟩

theorem effect_header {i : Instr} (s : State) (hi : i.format = .feed) (hd : ∀ b, i ≠ .feedHdrDone b) :
    (effect s i).cmd = s.cmd ∧ (effect s i).len = s.len := by
  cases i <;> cases hi
  case feedHdrDone b => exact absurd rfl (hd b)
  all_goals exact ⟨rfl, rfl⟩

theorem effect_csum {i : Instr} (s : State) (hi : i.format = .feed) (hd : ∀ b, i ≠ .feedCkDone b) :
    (effect s i).csum = s.csum := by
  cases i <;> cases hi
  case feedCkDone b => exact absurd rfl (hd b)
  case feedHdrDone b => simp [effect, headerDone_eq]
  all_goals rfl

theorem effect_window {i : Instr} (s : State) (hi : i.format = .feed) (he : i ≠ .feedEndEmit) :
    (effect s i).hold = s.hold ∧ (effect s i).frameValid = s.frameValid := by
  cases i <;> cases hi
  case feedEndEmit => exact absurd rfl he
  case feedHdrDone b => simp [effect, headerDone_eq]
  all_goals exact ⟨rfl, rfl⟩

theorem effect_payload {i : Instr} (s : State) (hi : i.format = .feed) (hw : i ≠ .feedWsStart)
    (hh : ∀ b, i ≠ .feedHdrDone b) (hp : ∀ b, i ≠ .feedPlDone b) (he : i ≠ .feedEndEmit) :
    (effect s i).payload = s.payload := by
  cases i <;> cases hi
  case feedWsStart => exact absurd rfl hw
  case feedHdrDone b => exact absurd rfl (hh b)
  case feedPlDone b => exact absurd rfl (hp b)
  case feedEndEmit => exact absurd rfl he
  all_goals rfl

/-- Only the two payload rows write PBUF (R41). -/
theorem effect_pbuf {i : Instr} (s : State) (hi : i.format = .feed) (ha : ∀ b, i ≠ .feedPlAcc b)
    (hd : ∀ b, i ≠ .feedPlDone b) : (effect s i).pbuf = s.pbuf := by
  cases i <;> cases hi
  case feedPlAcc b => exact absurd rfl (ha b)
  case feedPlDone b => exact absurd rfl (hd b)
  case feedHdrDone b => simp [effect, headerDone_eq]
  all_goals rfl

/-- They write it at the number of bytes collected before (R104, R105). -/
theorem effect_pbuf_read {i : Instr} (s : State) (hi : i.format = .feed) {a : Nat} (ha : a ≠ s.scratch.length) :
    (effect s i).pbuf.read a = s.pbuf.read a := by
  cases i
  case feedPlAcc b | feedPlDone b => exact Memory.read_write_other _ _ ha
  all_goals rw [effect_pbuf s hi nofun nofun]

theorem effect_phase {i : Instr} (s : State)
    (hi : ∃ b, i = .feedWsSkip b ∨ i = .feedHdrAcc b ∨ i = .feedPlAcc b ∨ i = .feedCkAcc b ∨ i = .feedEndStall b) :
    (effect s i).phase = s.phase := by
  obtain ⟨b, rfl | rfl | rfl | rfl | rfl⟩ := hi <;> rfl

/-- Settles O44, field by field. -/
theorem feedRowsFrame : Obligations.FeedRowsFrame := by
  intro i s t hi h
  obtain ⟨-, rfl⟩ := exec_eq_next.1 h
  refine ⟨effect_outside s hi, effect_header s hi, effect_csum s hi, fun he => ?_, effect_payload s hi, fun ha hd a => ?_,
    fun _ => effect_pbuf_read s hi, effect_phase s⟩
  · obtain ⟨hhold, hvalid⟩ := effect_window s hi he
    exact ⟨hhold, hvalid, effect_frames s he⟩
  · rw [effect_pbuf s hi ha hd]

/-- Settles O11: RESET has one effect in every state, with or without clearing `cmd`, `len` and `csum`, and keeps PBUF
while the window is open. -/
theorem softResetAbandonsThePartialFrame : Obligations.SoftResetAbandonsThePartialFrame := by
  intro s
  refine ⟨s.softReset, rfl, rfl, rfl, rfl, (ite_eq_or_eq ..).symm, (ite_eq_or_eq ..).symm, (ite_eq_or_eq ..).symm,
    rfl, rfl, rfl, rfl, rfl, rfl, rfl, rfl, rfl, rfl, rfl, rfl, fun hh a => ?_⟩
  rw [State.softReset_pbuf, if_pos hh]

/-! ### Exactly one row applies (R112) -/

/-- The bounds on scratch and payload that the phase invariants give (R37). -/
theorem scratch_and_payload_bounds {s : State} (hI : s.Inv) :
    s.scratch.length ≤ max 3 (s.len.toNat - 1) ∧ s.payload.length ≤ 65535 := by
  have hlen := s.len.isLt
  match hp : s.phase with
  | .waitStart => simp [hI.waitStart hp]
  | .header => have h := hI.header hp; simp [h.2]; omega
  | .payload => have h := hI.payload hp; simp [h.2.2]; omega
  | .checksum => have h := hI.checksum hp; omega
  | .atEnd => have h := hI.atEnd hp; simp [h.1]; omega

/-- Settles O29: a byte selects a row, which completes, and any row of that byte that completes is the one it selects. The
bounds hold afterwards because the row makes of the decoder what it makes with the window closed, where it keeps the
invariant. -/
theorem exactlyOneFeedRowApplies : Obligations.ExactlyOneFeedRowApplies := by
  intro s b hI
  obtain ⟨i, hd, -, he, -⟩ := exec_selected hI b
  have hbounds := scratch_and_payload_bounds (hI.closeWindow.fedState rfl b)
  obtain ⟨-, hscratch, -, hlen, hpayload, -⟩ := fedState_decoder b (s := s) (t := s.closeWindow) rfl rfl rfl rfl rfl rfl
  rw [hscratch, hlen, hpayload] at hbounds
  refine ⟨i, _, hd, he, hbounds.1, hbounds.2, ?_⟩
  rintro j hwf hb ⟨u, hu⟩
  exact Except.ok.inj ((decode_feedWord_of_applies hwf hb (exec_eq_next.1 hu).1).symm.trans hd)

end Sys2Proof.Machine

/-! # Frames in the byte stream (R114, R115)

What a stream of bytes emits depends on the progress of the frame alone (`feedBytes_fed`), so that a statement about whole
frames is one about `Progress.feed`. -/

namespace Sys2Proof.Machine

/-! ### What a stream makes of the progress of a frame -/

/-- The progress after these bytes. -/
def Progress.feedAll (bs : List Byte) (p : Progress) : Progress := bs.foldl (fun q b => q.feed b) p

/-- The frames that these bytes complete, in order. -/
def Progress.emitsAll : List Byte → Progress → List Frame
  | [], _ => []
  | b :: bs, p => p.emits b ++ (p.feed b).emitsAll bs

@[simp] theorem feedAll_nil (p : Progress) : p.feedAll [] = p := rfl

@[simp] theorem feedAll_cons (b : Byte) (bs : List Byte) (p : Progress) :
    p.feedAll (b :: bs) = (p.feed b).feedAll bs := rfl

@[simp] theorem emitsAll_nil (p : Progress) : p.emitsAll [] = [] := rfl

@[simp] theorem emitsAll_cons (b : Byte) (bs : List Byte) (p : Progress) :
    p.emitsAll (b :: bs) = p.emits b ++ (p.feed b).emitsAll bs := rfl

theorem feedAll_append (as bs : List Byte) (p : Progress) : p.feedAll (as ++ bs) = (p.feedAll as).feedAll bs :=
  List.foldl_append ..

theorem emitsAll_append (as bs : List Byte) (p : Progress) :
    p.emitsAll (as ++ bs) = p.emitsAll as ++ (p.feedAll as).emitsAll bs := by
  induction as generalizing p with
  | nil => rfl
  | cons a as ih => simp [ih]

/-! ### What a stream makes of the block -/

/-- `t` is where feeding these bytes from `s` leads: the progress they make, the frames they complete, and the records and
trigger events of these frames, all delivered and logged (R170). -/
structure Fed (bs : List Byte) (s t : State) : Prop where
  inv : t.Inv
  pending : t.pending = []
  progress : t.progress = s.progress.feedAll bs
  config : config t = config s
  frames : t.frames = s.frames ++ s.progress.emitsAll bs
  records : t.records = s.records ++ (s.progress.emitsAll bs).flatMap interpret
  triggers : t.triggers = s.triggers ++ ((s.progress.emitsAll bs).flatMap interpret).filterMap (route s.triggerId)
  recRecords : t.traceRec.map RecEntry.record =
    lastN s.logCapacity (s.traceRec.map RecEntry.record ++ (s.progress.emitsAll bs).flatMap interpret)

theorem Fed.nil {s : State} (hI : s.Inv) (hp : s.pending = []) (is : List Input) : Fed [] s (s.setInputs is) where
  inv := hI.setInputs is
  pending := hp
  progress := rfl
  config := rfl
  frames := (List.append_nil _).symm
  records := (List.append_nil _).symm
  triggers := (List.append_nil _).symm
  recRecords := by
    simpa using (lastN_of_length_le (l := s.traceRec.map RecEntry.record) (by simpa using hI.traceRec)).symm

theorem Fed.append {as bs : List Byte} {s u t : State} (h1 : Fed as s u) (h2 : Fed bs u t) : Fed (as ++ bs) s t := by
  obtain ⟨htrig, hcap⟩ := Prod.mk.inj h1.config
  exact
    { inv := h2.inv
      pending := h2.pending
      progress := by rw [h2.progress, h1.progress, feedAll_append]
      config := h2.config.trans h1.config
      frames := by simp [h2.frames, h1.frames, h1.progress, emitsAll_append]
      records := by simp [h2.records, h1.records, h1.progress, emitsAll_append]
      triggers := by simp [h2.triggers, h1.triggers, h1.progress, emitsAll_append, htrig]
      recRecords := by simp [h2.recRecords, h1.recRecords, h1.progress, emitsAll_append, hcap, lastN_lastN_append] }

/-- One FEED transaction (R170). -/
theorem feedTransaction_fed {s : State} (hI : s.Inv) (hp : s.pending = []) (b : Byte) :
    ∃ t, feedTransaction b s = .next t ∧ Fed [b] s t := by
  obtain ⟨es, hes, ht⟩ := feedTransaction_eq hI b hp
  obtain ⟨-, -, -, -, -, -, -, -, -, -, hframes, -, -⟩ := acceptedState_outputs (Config.timestamp s.draws) b s.drawn
  have hemits : s.progress.emitsAll [b] = emittedBy b s := by simp [emittedBy_eq_emits]
  refine ⟨_, ht, ?_⟩
  exact
    { inv := feedTransaction_inv hI ht
      pending := rfl
      progress := acceptedState_progress _ b s.drawn
      config := feedTransaction_config ht
      frames := hemits ▸ hframes
      records := hemits ▸ rfl
      triggers := hemits ▸ rfl
      recRecords := by rw [hemits, ← hes]; exact map_foldl_pushBounded _ _ _ hI.traceRec }

/-- Feeding any bytes completes, and leads to what `Fed` says, by induction on the bytes. -/
theorem feedBytes_fed (bs : List Byte) {s : State} (hI : s.Inv) (hp : s.pending = []) :
    ∃ t, feedBytes bs s = .next t ∧ Fed bs s t := by
  induction bs generalizing s with
  | nil => exact ⟨_, rfl, .nil hI hp []⟩
  | cons b bs ih =>
    obtain ⟨u, hu, hsu⟩ := feedTransaction_fed hI hp b
    obtain ⟨t, ht, hut⟩ := ih hsu.inv hsu.pending
    exact ⟨t, by rw [feedBytes_cons, hu, andThen_next, ht], hsu.append hut⟩

/-! ### Bytes that complete no frame -/

/-- These bytes lead from `p` to `q` and complete no frame on the way. -/
structure Progress.Silent (bs : List Byte) (p q : Progress) : Prop where
  leads : p.feedAll bs = q
  emits : p.emitsAll bs = []

namespace Progress.Silent

variable {as bs : List Byte} {p q r : Progress}

theorem append (h1 : Silent as p q) (h2 : Silent bs q r) : Silent (as ++ bs) p r where
  leads := by rw [feedAll_append, h1.leads, h2.leads]
  emits := by rw [emitsAll_append, h1.leads, h1.emits, h2.emits, List.append_nil]

theorem take (h : Silent bs p q) (k : Nat) : p.emitsAll (bs.take k) = [] := by
  have hemits := h.emits
  rw [← List.take_append_drop k bs, emitsAll_append, List.append_eq_nil_iff] at hemits
  exact hemits.1

/-- START_MARKER, command and length (R100 to R103). -/
theorem header (c : Byte) (l : Half) :
    Silent [Config.startMarker, c, halfByte l 0, halfByte l 1] .waitStart
      (if l = 0 then .checksum c l [] [] else .payload c l []) := by
  constructor <;> simp [feed, Progress.emits, halfByte_le16]

/-- The payload bytes that are still awaited (R104, R105). -/
theorem payload (c : Byte) (l : Half) (sofar : List Byte) (hne : bs ≠ []) (hlen : sofar.length + bs.length = l.toNat) :
    Silent bs (.payload c l sofar) (.checksum c l (sofar ++ bs) []) := by
  induction bs generalizing sofar with
  | nil => exact absurd rfl hne
  | cons b bs ih =>
    cases bs with
    | nil =>
      have hlast : ¬ sofar.length + 1 < l.toNat := by simp at hlen; omega
      constructor <;> simp [feed, Progress.emits, hlast]
    | cons b' bs =>
      have hmore : sofar.length + 1 < l.toNat := by simp at hlen; omega
      have hb : Silent [b] (.payload c l sofar) (.payload c l (sofar ++ [b])) := by
        constructor <;> simp [feed, Progress.emits, hmore]
      have hrest := ih (sofar ++ [b]) (List.cons_ne_nil _ _) (by simp at hlen ⊢; omega)
      rw [List.append_assoc] at hrest
      exact hb.append hrest

/-- All of the payload, which may be empty (R103 to R105). -/
theorem wholePayload (c : Byte) (l : Half) (hlen : bs.length = l.toNat) :
    Silent bs (if l = 0 then .checksum c l [] [] else .payload c l []) (.checksum c l bs []) := by
  split
  case isTrue hl =>
    obtain rfl : bs = [] := by simpa [hl] using hlen
    exact ⟨rfl, rfl⟩
  case isFalse hl =>
    have hne : bs ≠ [] := by
      rintro rfl
      exact hl (BitVec.eq_of_toNat_eq hlen.symm)
    exact payload c l [] hne (by simpa using hlen)

/-- The four checksum bytes (R106, R107). -/
theorem checksum (c : Byte) (l : Half) (bs : List Byte) (v : Word) :
    Silent [wordByte v 0, wordByte v 1, wordByte v 2, wordByte v 3] (.checksum c l bs []) (.atEnd ⟨c, l, bs, v⟩) := by
  constructor <;> simp [feed, Progress.emits, wordByte_le32]

/-- Bytes other than END_MARKER in End (R109). -/
theorem stall (f : Frame) (h : ∀ b ∈ bs, b ≠ Config.endMarker) : Silent bs (.atEnd f) (.atEnd f) := by
  induction bs with
  | nil => exact ⟨rfl, rfl⟩
  | cons b bs ih =>
    have hb : Silent [b] (.atEnd f) (.atEnd f) := by
      constructor <;> simpa [feed, Progress.emits] using h b List.mem_cons_self
    exact hb.append (ih fun b' hb' => h b' (List.mem_cons_of_mem _ hb'))

end Progress.Silent

/-! ### Whole frames -/

/-- Where END_MARKER is awaited, it completes the held frame (R108). -/
theorem Progress.Silent.then_endMarker {bs : List Byte} {p : Progress} {f : Frame} (h : Silent bs p (.atEnd f)) :
    p.feedAll (bs ++ [Config.endMarker]) = .waitStart ∧ p.emitsAll (bs ++ [Config.endMarker]) = [f] := by
  rw [feedAll_append, emitsAll_append, h.leads, h.emits]
  simp [feed, Progress.emits]

/-- The layout of a frame up to END_MARKER, 8 + N bytes (R60). -/
def wireBody (f : Frame) : List Byte :=
  [Config.startMarker, f.command, halfByte f.length 0, halfByte f.length 1] ++ f.payload ++
    [wordByte f.checksum 0, wordByte f.checksum 1, wordByte f.checksum 2, wordByte f.checksum 3]

theorem wire_eq_wireBody (f : Frame) : f.wire = wireBody f ++ [Config.endMarker] := by
  simp [Frame.wire, wireBody]

theorem wireBody_length {f : Frame} (hf : f.wf = true) : (wireBody f).length = 8 + f.length.toNat := by
  have hlen : f.payload.length = f.length.toNat := by simpa [Frame.wf] using hf
  simp [wireBody, hlen]
  omega

/-- The layout of a frame, up to END_MARKER, leads to End with that frame held, whatever its bytes (R115). -/
theorem silent_wireBody {f : Frame} (hf : f.wf = true) : Progress.Silent (wireBody f) .waitStart (.atEnd f) :=
  have hlen : f.payload.length = f.length.toNat := by simpa [Frame.wf] using hf
  ((Progress.Silent.header f.command f.length).append (.wholePayload _ _ hlen)).append (.checksum _ _ _ _)

/-- Settles O53: the layout without END_MARKER emits nothing, nor does any part of it, and END_MARKER completes the frame. -/
theorem fedFramesAreEmitted : Obligations.FedFramesAreEmitted := by
  intro f s hI hp hpend hf
  have hprog : s.progress = .waitStart := by simp [State.progress, hp]
  refine ⟨fun k hk => ?_, ?_⟩
  · obtain ⟨t, ht, hF⟩ := feedBytes_fed (f.wire.take k) hI hpend
    have hnone : s.progress.emitsAll (f.wire.take k) = [] := by
      rw [wire_eq_wireBody, List.take_append_of_le_length (by rw [wireBody_length hf]; exact hk), hprog]
      exact (silent_wireBody hf).take k
    refine ⟨t, ht, ?_, ?_, ?_⟩
    · simpa [hnone] using hF.frames
    · simpa [hnone] using hF.records
    · simpa [hnone] using hF.triggers
  · obtain ⟨t, ht, hF⟩ := feedBytes_fed f.wire hI hpend
    obtain ⟨hfinal, hone⟩ : s.progress.feedAll f.wire = .waitStart ∧ s.progress.emitsAll f.wire = [f] := by
      rw [hprog, wire_eq_wireBody]
      exact (silent_wireBody hf).then_endMarker
    have hpt : t.phase = .waitStart := by rw [← progress_phase, hF.progress, hfinal]; rfl
    refine ⟨t, ht, ?_, hpt, (hF.inv.waitStart hpt).1, ?_, ?_, ?_⟩
    · rw [hF.frames, hone]
    · simpa [hone] using hF.records
    · simpa [hone, filterMap_route] using hF.triggers
    · simpa [hone] using hF.recRecords

/-- Settles O52: the discarded bytes keep the held frame, and END_MARKER completes it. -/
theorem lateEndMarkerEmitsTheHeldFrame : Obligations.LateEndMarkerEmitsTheHeldFrame := by
  intro bs s hI hp hpend hbs
  have hstall : Progress.Silent bs s.progress (.atEnd s.heldFrame) := by
    rw [show s.progress = .atEnd s.heldFrame by simp [State.progress, hp]]
    exact .stall _ hbs
  constructor
  · obtain ⟨t, ht, hF⟩ := feedBytes_fed bs hI hpend
    refine ⟨t, ht, ?_, ?_, ?_⟩
    · rw [← progress_phase, hF.progress, hstall.leads]; rfl
    · simpa [hstall.emits] using hF.frames
    · simpa [hstall.emits] using hF.records
  · obtain ⟨t, ht, hF⟩ := feedBytes_fed (bs ++ [Config.endMarker]) hI hpend
    obtain ⟨hfinal, hone⟩ := hstall.then_endMarker
    refine ⟨t, ht, ?_, ?_, ?_⟩
    · rw [← progress_phase, hF.progress, hfinal]; rfl
    · rw [hF.frames, hone]
    · rw [hF.records, hone, List.flatMap_singleton]

end Sys2Proof.Machine

/-! # The message interpreter (R121 to R126)

A frame selects the one row of the interpreter that applies to its command, and that row completes; what it yields is read
off the payload by `classify` and `detect`. -/

namespace Sys2Proof.Machine

theorem payload_length_of_wf {f : Frame} (hf : f.wf = true) : f.payload.length = f.length.toNat := by
  simpa [Frame.wf] using hf

/-! ### Which bytes a record holds -/

/-- R122: record `k` holds the subtype and the `k`-th pair after it. -/
theorem classify_getElem? {p : List Byte} {k : Nat} (hk : k < (p.length - 1) / 2) :
    ∃ st i c, p[0]? = some st ∧ p[1 + 2 * k]? = some i ∧ p[2 + 2 * k]? = some c ∧
      (classify p)[k]? = some (.classification st i c) := by
  cases p with
  | nil => simp at hk
  | cons st rest =>
    have hrest : 2 * k + 1 < rest.length := by simp at hk; omega
    refine ⟨st, rest[2 * k], rest[2 * k + 1], rfl, ?_, ?_, ?_⟩
    · rw [Nat.add_comm, List.getElem?_cons_succ, List.getElem?_eq_getElem]
    · rw [show 2 + 2 * k = 2 * k + 1 + 1 by omega, List.getElem?_cons_succ, List.getElem?_eq_getElem]
    · have hid : 2 * k < rest.length := by omega
      simp [classify, classifyPairs_getElem?, hid, hrest]

/-- R123: record `k` holds the subtype and the `k`-th group of six after it. -/
theorem detect_getElem? {p : List Byte} {k : Nat} (hk : k < (p.length - 1) / 6) :
    ∃ st i x y w h c, p[0]? = some st ∧ p[1 + 6 * k]? = some i ∧ p[2 + 6 * k]? = some x ∧ p[3 + 6 * k]? = some y ∧
      p[4 + 6 * k]? = some w ∧ p[5 + 6 * k]? = some h ∧ p[6 + 6 * k]? = some c ∧
      (detect p)[k]? = some (.detection st i x y w h c) := by
  cases p with
  | nil => simp at hk
  | cons st rest =>
    have shift (j : Nat) : (st :: rest)[j + 1 + 6 * k]? = rest[6 * k + j]? := by
      rw [show j + 1 + 6 * k = 6 * k + j + 1 by omega, List.getElem?_cons_succ]
    obtain ⟨i, x, y, w, h, c, hi, hx, hy, hw, hh, hc, hr⟩ := detectTuples_getElem? st rest k (by simpa using hk)
    exact ⟨st, i, x, y, w, h, c, rfl, (shift 0).trans hi, (shift 1).trans hx, (shift 2).trans hy, (shift 3).trans hw,
      (shift 4).trans hh, (shift 5).trans hc, hr⟩

/-! ### The interpreter and its conditions, by command -/

/-- R122: an unpaired last byte. -/
theorem frameCondition_classification {f : Frame} (hc : f.command = Config.cmdClassification) :
    frameCondition f = some .truncatedTail ↔ 2 ≤ f.payload.length ∧ (f.payload.length - 1) % 2 ≠ 0 := by
  simp [frameCondition, hc]

/-- R123: a last group of fewer than six bytes. -/
theorem frameCondition_detection {f : Frame} (hc : f.command = Config.cmdDetection) :
    frameCondition f = some .truncatedTail ↔ 1 ≤ f.payload.length ∧ (f.payload.length - 1) % 6 ≠ 0 := by
  simp [frameCondition, hc]

/-- R124: any other command. -/
theorem frameCondition_other {f : Frame} (h1 : f.command ≠ Config.cmdClassification)
    (h2 : f.command ≠ Config.cmdDetection) : frameCondition f = some .unknownCommand := by
  simp only [frameCondition, if_neg h1, if_neg h2]

theorem interpret_other {f : Frame} (h1 : f.command ≠ Config.cmdClassification)
    (h2 : f.command ≠ Config.cmdDetection) : interpret f = [] := by
  simp only [interpret, if_neg h1, if_neg h2]

/-- R126, by the payload's length; and none for an empty payload, since `0 - 1 = 0`. -/
theorem interpret_length (f : Frame) :
    (interpret f).length =
      if f.command = Config.cmdClassification then (f.payload.length - 1) / 2
      else if f.command = Config.cmdDetection then (f.payload.length - 1) / 6
      else 0 := by
  simp only [interpret, apply_ite List.length, classify_length, detect_length, List.length_nil]

/-! ### The rows -/

/-- A row of the interpreter that applies is selected, and completes with its effect. -/
theorem command_selects {f : Frame} {i : Instr} {s : State} (hf : f.wf = true)
    (hi : i = .interpClassification f ∨ i = .interpDetection f ∨ i = .interpReserved0 f ∨ i = .interpUnknown f)
    (h : applies s i) : decode (.command f) = .ok i ∧ exec i s = .next (effect s i) :=
  ⟨(decode_command_iff_applies s hf hi).2 h, exec_eq_next.2 ⟨h, rfl⟩⟩

/-- Settles O15: INTERP_CLASSIFICATION applies, and yields `classify` of the payload. -/
theorem classificationYieldsPairs : Obligations.ClassificationYieldsPairs := by
  intro f s hf hc n
  have hlen : f.payload.length = n := payload_length_of_wf hf
  obtain ⟨hd, he⟩ := command_selects (s := s) (i := .interpClassification f) hf (by simp) hc
  refine ⟨hd, ?_, classify f.payload, he, ?_, fun k hk => classify_getElem? (by rwa [hlen])⟩
  · rw [frameCondition_classification hc, hlen, Nat.mod_two_ne_zero]
  · rw [classify_length, hlen]

/-- Settles O16: INTERP_DETECTION applies, and yields `detect` of the payload. -/
theorem detectionYieldsTuples : Obligations.DetectionYieldsTuples := by
  intro f s hf hc n
  have hlen : f.payload.length = n := payload_length_of_wf hf
  obtain ⟨hd, he⟩ := command_selects (s := s) (i := .interpDetection f) hf (by simp) hc
  refine ⟨hd, ?_, detect f.payload, he, ?_, fun k hk => detect_getElem? (by rwa [hlen])⟩
  · rw [frameCondition_detection hc, hlen]
  · rw [detect_length, hlen]

/-- Settles O17: INTERP_RESERVED_0 and INTERP_UNKNOWN have no effect, and their commands are neither 0x01 nor 0x02. -/
theorem otherCommandsYieldNothing : Obligations.OtherCommandsYieldNothing := by
  intro f s hf
  constructor
  · intro h0
    have h1 : f.command ≠ Config.cmdClassification := by simp [h0]
    have h2 : f.command ≠ Config.cmdDetection := by simp [h0]
    obtain ⟨hd, he⟩ := command_selects (s := s) (i := .interpReserved0 f) hf (by simp) h0
    exact ⟨hd, he, interpret_other h1 h2, frameCondition_other h1 h2⟩
  · intro h3
    have hne (c : Byte) (hc : c.toNat < 3) : f.command ≠ c := by rintro rfl; omega
    have h1 := hne Config.cmdClassification (by decide)
    have h2 := hne Config.cmdDetection (by decide)
    obtain ⟨hd, he⟩ := command_selects (s := s) (i := .interpUnknown f) hf (by simp)
      ⟨hne Config.cmdReserved0 (by decide), h1, h2⟩
    exact ⟨hd, he, interpret_other h1 h2, frameCondition_other h1 h2⟩

/-- Settles O18: interpreting a frame completes, through the row that its word selects. -/
theorem everyFrameIsInterpreted : Obligations.EveryFrameIsInterpreted := by
  refine fun f s => ⟨fun hf => ?_, fun hf => by simp [decode, hf]⟩
  obtain ⟨i, hd, hrow⟩ := runDecoded_eq_next.1 (runDecoded_command hf s)
  exact ⟨i, hd, exec_eq_next.2 hrow⟩

/-- Settles O19: the counts of `interpret_length`, and the largest ones, since a length is below 65536. -/
theorem recordCounts : Obligations.RecordCounts := by
  intro f hf n
  have hcount := interpret_length f
  rw [show f.payload.length = n from payload_length_of_wf hf] at hcount
  have hn : n < 65536 := f.length.isLt
  refine ⟨?_, fun h1 => ?_, fun h2 => ?_⟩
  · rw [hcount]
    obtain h0 | hpos : n = 0 ∨ 1 ≤ n := by omega
    · simp [h0]
    · simp only [hpos, and_true]
  · rw [if_pos h1] at hcount
    omega
  · rw [if_neg (by simp [h2]), if_pos h2] at hcount
    omega

end Sys2Proof.Machine

/-! # The trigger router (R140 to R142)

Only the ROUTE rows read TRIGGER_ID. Either one changes nothing but the trigger events, and a record selects one of them
whatever TRIGGER_ID is (`runDecoded_record`); no other format of word selects one (`decode_format`). -/

namespace Sys2Proof.Machine

/-! ### The format of the selected row -/

theorem decodeFeed_format {key : BitVec 11} {n : Nat} {len : Half} {i : Instr} (h : decodeFeed key n len = some i) :
    i.format = .feed := by
  obtain ⟨row, hrow, rfl⟩ := Option.map_eq_some_iff.1 h
  have hmem := List.mem_of_find?_eq_some hrow
  fin_cases hmem <;> rfl

theorem decodeCommand_format {f : Frame} {i : Instr} (h : decodeCommand f = some i) : i.format = .command := by
  obtain ⟨row, hrow, rfl⟩ := Option.map_eq_some_iff.1 h
  have hmem := List.mem_of_find?_eq_some hrow
  fin_cases hmem <;> rfl

/-- The decoder selects a row of the word's own format. -/
theorem decode_format {w : OpWord} {i : Instr} (h : decode w = .ok i) : i.format = w.format := by
  cases w with
  | feed key n len =>
    simp only [decode] at h
    split at h
    case h_1 j hj => cases h; exact decodeFeed_format hj
    case h_2 => split at h <;> cases h
  | control softReset rst => cases softReset <;> cases rst <;> cases h <;> rfl
  | command f =>
    simp only [decode] at h
    split_ifs at h
    split at h
    case h_1 j hj => cases h; exact decodeCommand_format hj
    case h_2 => cases h
  | record r triggerId =>
    simp only [decode] at h
    split at h <;> cases h <;> rfl
  | pushRaw x b => cases h; rfl
  | pushRecord x r => cases h; rfl
  | snapshot logSel => cases h; rfl

/-! ### Routing a record (R140, R141) -/

/-- Settles O20: the record's id is the one that the decoder and the rows compare with TRIGGER_ID. -/
theorem recordsAreRoutedById : Obligations.RecordsAreRoutedById := by
  intro s r id hr
  obtain rfl : r.id = id := by obtain ⟨_, _, rfl⟩ | ⟨_, _, _, _, _, _, rfl⟩ := hr <;> rfl
  refine ⟨fun h => ⟨by simp [decode, h], ?_⟩, fun h => ⟨by simp [decode, h], ?_⟩⟩
  · exact execRouteTrigger_eq_next.2 ⟨h, rfl⟩
  · exact execRouteNone_eq_next.2 ⟨h, rfl⟩

/-! ### TRIGGER_ID and the other rules (R142) -/

theorem headerDone_butTriggers (c : Byte) (l : Half) (s : State) :
    (headerDone c l s).butTriggers = (headerDone c l s.butTriggers).butTriggers := by
  unfold headerDone
  split <;> rfl

/-- What an instruction does to the rest of the state does not depend on TRIGGER_ID and the trigger events. -/
theorem effect_butTriggers (s : State) (i : Instr) :
    (effect s i).butTriggers = (effect s.butTriggers i).butTriggers := by
  cases i
  case feedHdrDone b => exact headerDone_butTriggers _ _ s
  all_goals rfl

/-- Nor does where it applies, but for the ROUTE rows. -/
theorem applies_butTriggers {i : Instr} (hi : i.format ≠ .record) (s : State) :
    applies s.butTriggers i ↔ applies s i := by
  cases i
  case routeTrigger | routeNone => exact absurd rfl hi
  all_goals rfl

theorem runDecoded_follows_butTriggers {w : OpWord} (hw : w.format ≠ .record) {s t : State}
    (h : s.butTriggers = t.butTriggers) : Follows State.butTriggers (runDecoded w s) (runDecoded w t) := by
  intro s1 h1
  obtain ⟨i, hd, ha, rfl⟩ := runDecoded_eq_next.1 h1
  have hi : i.format ≠ .record := decode_format hd ▸ hw
  refine ⟨effect t i, runDecoded_eq_next.2 ⟨i, hd, ?_, rfl⟩, ?_⟩
  · rwa [← applies_butTriggers hi, ← h, applies_butTriggers hi]
  · rw [effect_butTriggers, h, ← effect_butTriggers]

/-- A record is routed whatever TRIGGER_ID is, and nothing but the trigger events shows by which row. -/
theorem route_follows_butTriggers (r : Record) {s t : State} (h : s.butTriggers = t.butTriggers) :
    Follows State.butTriggers (runDecoded (.record r s.triggerId) s) (runDecoded (.record r t.triggerId) t) := by
  rw [runDecoded_record, runDecoded_record]
  exact .next h

theorem selectedRow_follows_butTriggers (o : Operation) {s t : State} (h : s.butTriggers = t.butTriggers) :
    Follows State.butTriggers (runDecoded (selectWord o s) s) (runDecoded (selectWord o t) t) := by
  cases o
  case route r => exact route_follows_butTriggers r h
  case feed b =>
    have hword : feedWord b s = feedWord b t := (congrArg (feedWord b) h :)
    simp only [selectWord, hword]
    exact runDecoded_follows_butTriggers (by nofun) h
  all_goals exact runDecoded_follows_butTriggers (by nofun) h

theorem interpretEmitted_follows_butTriggers {s t : State} (h : s.butTriggers = t.butTriggers) :
    Follows State.butTriggers (interpretEmitted s) (interpretEmitted t) := by
  have hhold : s.hold = t.hold := (congrArg State.hold h :)
  unfold interpretEmitted
  rw [← hhold]
  split
  · exact .next h
  · exact runDecoded_follows_butTriggers (by nofun) h

theorem unobserved_butTriggers : Unobserved State.butTriggers where
  inputs h := (congrArg State.inputs h :)
  pending h := (congrArg State.pending h :)
  draws h := (congrArg State.draws h :)
  setInputs h is := congrArg (State.setInputs is) h
  drawn h := congrArg State.drawn h
  endPulse h := congrArg State.endPulse h
  closeWindow h := congrArg State.closeWindow h
  received h r rest := congrArg (fun u => (u.setPending rest).emitRecord r) h
  row h o := selectedRow_follows_butTriggers o h
  interpretEmitted := interpretEmitted_follows_butTriggers

/-- Settles O49: the rows of the router change nothing but the trigger events, and no other row reads TRIGGER_ID. -/
theorem triggerIdChangesOnlyTriggers : Obligations.TriggerIdChangesOnlyTriggers :=
  ⟨rfl, fun _ _ s1 h h1 => unobserved_butTriggers.step h s1 h1⟩

end Sys2Proof.Machine

/-! # The trace log (R150 to R158)

Both channels are pushed to by `pushBounded`. A row that does so (`PushesTo`), executed over a list of entries, leaves in
its channel what `foldl_pushBounded` says of the list. -/

namespace Sys2Proof.Machine

/-! ### Pushes (R151 to R153) -/

/-- A push as the spec says it: append the entry, and drop the oldest one beyond the capacity. -/
theorem pushBounded_eq_ite {α : Type} (capacity : Nat) (channel : List α) (entry : α) :
    pushBounded capacity channel entry =
      if channel.length + 1 > capacity then (channel ++ [entry]).tail else channel ++ [entry] := by
  rw [pushBounded, List.length_append, List.length_singleton, List.drop_one]

theorem exec_logPushRaw (x : Timestamp) (b : Byte) {s : State} (hc : 1 ≤ s.logCapacity) :
    exec (.logPushRaw x b) s = .next (s.setTraceRaw (pushBounded s.logCapacity s.traceRaw ⟨x, b⟩)) :=
  exec_eq_next.2 ⟨Nat.one_le_iff_ne_zero.1 hc, rfl⟩

theorem exec_logPushRecord (x : Timestamp) (r : Record) {s : State} (hc : 1 ≤ s.logCapacity) :
    exec (.logPushRecord x r) s = .next (s.setTraceRec (pushBounded s.logCapacity s.traceRec ⟨x, r⟩)) :=
  exec_eq_next.2 ⟨Nat.one_le_iff_ne_zero.1 hc, rfl⟩

/-- Settles O21: the effect of each push row, with the push written out. -/
theorem pushesAppendAndEvict : Obligations.PushesAppendAndEvict := by
  intro s x hc
  constructor
  · intro b
    rw [exec_logPushRaw x b hc, pushBounded_eq_ite]
    rfl
  · intro r
    rw [exec_logPushRecord x r hc, pushBounded_eq_ite]
    rfl

/-- For every entry, `row` completes where a capacity is given, keeps that capacity, and pushes the entry to `channel`. -/
def PushesTo {α : Type} (row : α → Instr) (channel : State → List α) : Prop :=
  ∀ (e : α) (s : State), 1 ≤ s.logCapacity →
    ∃ t, exec (row e) s = .next t ∧ t.logCapacity = s.logCapacity ∧ channel t = pushBounded s.logCapacity (channel s) e

theorem pushesTo_traceRaw : PushesTo (fun e : RawEntry => .logPushRaw e.timestamp e.value) State.traceRaw :=
  fun e _ hc => ⟨_, exec_logPushRaw e.timestamp e.value hc, rfl, rfl⟩

theorem pushesTo_traceRec : PushesTo (fun e : RecEntry => .logPushRecord e.timestamp e.record) State.traceRec :=
  fun e _ hc => ⟨_, exec_logPushRecord e.timestamp e.record hc, rfl, rfl⟩

section PushesTo

variable {α : Type} {row : α → Instr} {channel : State → List α}

/-- The row over a list of entries pushes all of them, in order, at one and the same capacity. -/
theorem PushesTo.execAll_pushes (hrow : PushesTo row channel) (es : List α) {s : State} (hc : 1 ≤ s.logCapacity) :
    ∃ t, execAll (es.map row) s = .next t ∧ channel t = es.foldl (pushBounded s.logCapacity) (channel s) := by
  induction es generalizing s with
  | nil => exact ⟨s, rfl, rfl⟩
  | cons e es ih =>
    obtain ⟨u, hu, hcap, hpush⟩ := hrow e s hc
    obtain ⟨t, ht, hrest⟩ := ih (s := u) (hcap ▸ hc)
    refine ⟨t, andThen_eq_next.2 ⟨u, hu, ht⟩, ?_⟩
    rw [hrest, hcap, hpush, List.foldl_cons]

/-- An empty channel is within its capacity, so the pushes keep the last entries of the list alone (R153). -/
theorem PushesTo.keeps_last (hrow : PushesTo row channel) (es : List α) {s : State} (hc : 1 ≤ s.logCapacity)
    (hempty : channel s = []) :
    ∃ t, execAll (es.map row) s = .next t ∧ channel t = es.drop (es.length - min es.length s.logCapacity) := by
  obtain ⟨t, ht, hfold⟩ := hrow.execAll_pushes es hc
  have hdrop : es.length - s.logCapacity = es.length - min es.length s.logCapacity := by omega
  refine ⟨t, ht, ?_⟩
  rw [hfold, hempty, foldl_pushBounded [] es (Nat.zero_le _), List.nil_append, hdrop]

end PushesTo

/-- Settles O22: both rows push, and an induction on the entries says what that leaves in an empty channel. -/
theorem evictionIsStrictFifo : Obligations.EvictionIsStrictFifo := fun _ hc =>
  ⟨fun es hempty => pushesTo_traceRaw.keeps_last es hc hempty, fun es hempty => pushesTo_traceRec.keeps_last es hc hempty⟩

/-! ### Resets and snapshots (R155, R158) -/

/-- Settles O13: the channels of `hardReset` and of `softReset`. -/
theorem hardResetEmptiesTheTraceSoftResetKeepsIt : Obligations.HardResetEmptiesTheTraceSoftResetKeepsIt := fun s =>
  ⟨⟨s.hardReset, execRst_eq_next.2 rfl, s.hardReset_traceRaw, s.hardReset_traceRec⟩,
    ⟨s.softReset, execReset_eq_next.2 rfl, s.softReset_traceRaw, s.softReset_traceRec⟩⟩

/-- Settles O23: the effect of LOG_SNAPSHOT on either channel, which the bit of the word names. -/
theorem snapshotReadsNewestFirst : Obligations.SnapshotReadsNewestFirst := fun _ =>
  ⟨⟨rfl, execLogSnapshot_eq_next.2 rfl⟩, ⟨rfl, execLogSnapshot_eq_next.2 rfl⟩⟩

end Sys2Proof.Machine

/-! # The transactions of the block (R170 to R175)

A FEED transaction is the rows that its byte and its frame select, one after another (`acceptByte_of_rows`), and all that it
delivers is read off `feedTransaction_eq`. The rows that are no FEED row and no reset leave the decoder alone. -/

namespace Sys2Proof.Machine

/-! ### One step of a presented operation -/

theorem step_of_op {s : State} {o : Operation} {rest : List Input} (h : s.inputs = .op o :: rest) :
    step s = transact o (s.setInputs rest) := by
  simp [step, h]

theorem step_of_no_input {s : State} (h : s.inputs = []) : step s = .next s := by
  simp [step, h]

/-- Settles O37, by induction on the number of steps. -/
theorem idleKeepsTheState : Obligations.IdleKeepsTheState := by
  intro s k hs
  induction k with
  | zero => rfl
  | succ k ih => rw [run_succ, step_of_no_input hs, andThen_next, ih]

/-- Settles O36: `softReset` and `hardReset` after the pulse has ended, field by field. -/
theorem resetTransactions : Obligations.ResetTransactions := fun s rest =>
  ⟨fun hs => ⟨(s.setInputs rest).endPulse.softReset, step_of_op hs,
      rfl, rfl, rfl, rfl, rfl, rfl, rfl, rfl, rfl, rfl, rfl, rfl⟩,
    fun hs => ⟨(s.setInputs rest).endPulse.hardReset, step_of_op hs,
      rfl, rfl, rfl, rfl, rfl, rfl, rfl, rfl, rfl, rfl, rfl, rfl⟩⟩

/-! ### The FEED transaction (R170) -/

/-- With nothing pending, a FEED transaction accepts its byte and delivers the records that this yields. -/
theorem feedTransaction_of_no_pending {s : State} (b : Byte) (hp : s.pending = []) :
    feedTransaction b s = andThen (acceptByte (Config.timestamp s.draws) b s.drawn) deliverAll := by
  rw [feedTransaction, deliverAll_nil hp, andThen_next]

/-- An accepted byte, row by row: the raw push, the row that the byte selects, and the interpreter on the frame shown. -/
theorem acceptByte_of_rows {x : Timestamp} {b : Byte} {s s1 s2 : State} {i : Instr}
    (h1 : exec (.logPushRaw x b) s.closeWindow = .next s1) (hd : decode (feedWord b s1) = .ok i)
    (h2 : exec i s1 = .next s2) : acceptByte x b s = interpretEmitted s2 := by
  have hpush : runDecoded (.pushRaw x b) s.closeWindow = .next s1 := h1
  have hrow : runDecoded (feedWord b s1) s1 = .next s2 := by rw [runDecoded, hd]; exact h2
  rw [acceptByte, hpush, andThen_next, hrow, andThen_next]

/-- Settles O34: after the raw push the window is closed, so a frame is interpreted only if FEED_END_EMIT shows one, and
without a frame there is nothing to deliver. -/
theorem feedStepRunsTheSelectedRows : Obligations.FeedStepRunsTheSelectedRows := by
  intro s s1 s2 b rest i hs hp h1 hd h2
  have hstep : step s = andThen (interpretEmitted s2) deliverAll := by
    rw [← acceptByte_of_rows (s := (s.setInputs rest).drawn) h1 hd h2, step_of_op hs]
    exact feedTransaction_of_no_pending b hp
  obtain ⟨hclosed, hempty⟩ : s1.hold = none ∧ s1.pending = [] := by
    obtain ⟨-, rfl⟩ := execLogPushRaw_eq_next.1 h1
    exact ⟨rfl, hp⟩
  obtain ⟨-, rfl⟩ := exec_eq_next.1 h2
  rw [hstep]
  constructor
  · intro hi
    obtain ⟨hhold, -⟩ := effect_window s1 (decode_format hd) hi
    obtain ⟨-, -, -, -, hpending, -⟩ := effect_outside s1 (decode_format hd)
    rw [interpretEmitted, hhold, hclosed]
    exact deliverAll_nil (hpending.trans hempty)
  · rintro rfl j s3 hj h3
    have hrow : interpretEmitted (effect s1 .feedEndEmit) = .next s3 := by
      change runDecoded (.command s1.heldFrame) _ = _
      rw [runDecoded, hj]
      exact h3
    rw [hrow, andThen_next]

/-- Settles O35: the row that the byte selects makes `fedState` of the state, and its fields are the same when it runs with
the window closed and the byte logged; the rest is what `acceptedState` and the delivery of all its records give. -/
theorem Transactions.feedTransaction : Obligations.FeedTransaction := by
  intro s b rest hI hp hs
  obtain ⟨i, hd, -, hrow, -⟩ := exec_selected hI b
  obtain ⟨es, hes, hfeed⟩ := feedTransaction_eq (hI.setInputs rest) b hp
  obtain ⟨hphase, hscratch, hcmd, hlen, hpayload, hcsum⟩ :=
    fedState_decoder b (s := s) (t := beforeRow (Config.timestamp s.draws) b (s.setInputs rest).drawn)
      rfl rfl rfl rfl rfl rfl
  obtain ⟨hraw, -, htrigger, hcapacity, -, -, -, hsnapshots, hinputs, -, hframes, -⟩ :=
    acceptedState_outputs (Config.timestamp s.draws) b (s.setInputs rest).drawn
  refine ⟨i, _, _, hd, hrow, (step_of_op hs).trans hfeed, hphase, hscratch, hcmd, hlen, hpayload, hcsum, hframes, rfl,
    ?_, ?_, ?_, rfl, hinputs, hsnapshots, htrigger, hcapacity⟩
  · exact congrArg (s.triggers ++ ·) (filterMap_route _ _)
  · exact (congrArg _ hraw).trans (map_foldl_pushBounded RawEntry.value s.traceRaw [⟨_, b⟩] hI.traceRaw)
  · exact (map_foldl_pushBounded RecEntry.record s.traceRec es hI.traceRec).trans (by rw [hes]; rfl)

/-! ### What leaves the decoder alone (R175) -/

/-- The rows of the interpreter, the router and the trace each write one field: the record cursor, the trigger events, one
channel or the snapshots. -/
theorem effect_writes_one_field {i : Instr} (s : State) (hfeed : i.format ≠ .feed) (hcontrol : i.format ≠ .control) :
    (i.format = .command ∧ ∃ rs, effect s i = { s with pending := rs }) ∨
      (i.format = .record ∧ ∃ es, effect s i = { s with triggers := es }) ∨
      ((∃ x b, i = .logPushRaw x b) ∧ ∃ es, effect s i = { s with traceRaw := es }) ∨
      ((∃ x r, i = .logPushRecord x r) ∧ ∃ es, effect s i = { s with traceRec := es }) ∨
      ((∃ ch, i = .logSnapshot ch) ∧ ∃ xs, effect s i = { s with snapshots := xs }) := by
  cases i
  case interpClassification | interpDetection => exact .inl ⟨rfl, _, rfl⟩
  case interpReserved0 | interpUnknown => exact .inl ⟨rfl, s.pending, rfl⟩
  case routeTrigger => exact .inr (.inl ⟨rfl, _, rfl⟩)
  case routeNone => exact .inr (.inl ⟨rfl, s.triggers, rfl⟩)
  case logPushRaw x b => exact .inr (.inr (.inl ⟨⟨x, b, rfl⟩, _, rfl⟩))
  case logPushRecord x r => exact .inr (.inr (.inr (.inl ⟨⟨x, r, rfl⟩, _, rfl⟩)))
  case logSnapshot ch => exact .inr (.inr (.inr (.inr ⟨⟨ch, rfl⟩, _, rfl⟩)))
  case reset | rst => exact absurd rfl hcontrol
  all_goals exact absurd rfl hfeed

/-- An edge without a reset and without an accepted byte ends with its first stage, which at most takes a record (R79). -/
theorem clockEdge_keeps_decoder {p : PortIn} {s t : State} (hr : p.rst = false) (hs : p.softReset = false)
    (ha : accepts p s = false) (h : clockEdge p s = .next t) :
    t.phase = s.phase ∧ t.scratch = s.scratch ∧ t.cmd = s.cmd ∧ t.len = s.len ∧ t.payload = s.payload ∧
      t.csum = s.csum ∧ t.pbuf = s.pbuf ∧ t.hold = s.hold ∧ t.frames = s.frames := by
  obtain ⟨u, hu, -, hphase, hscratch, hcmd, hlen, hpayload, hcsum, hpbuf, hhold, -, hframes, -⟩ := clockEdge_split h
  obtain rfl : u = t := by simpa [edgeInput, hr, hs, ha] using hu
  exact ⟨hphase, hscratch, hcmd, hlen, hpayload, hcsum, hpbuf, hhold, hframes⟩

/-- Settles O45: such a row writes one field, which is not the decoder's, and an edge that only takes a record writes none of
the decoder's fields either. -/
theorem onlyBytesAndResetsChangeTheDecoder : Obligations.OnlyBytesAndResetsChangeTheDecoder := by
  refine ⟨fun i s t hfeed hcontrol h => ?_, fun p s t hr hs ha h => ?_⟩
  · obtain ⟨-, rfl⟩ := exec_eq_next.1 h
    obtain ⟨hi, _, he⟩ | ⟨hi, _, he⟩ | ⟨⟨x, b, rfl⟩, _, he⟩ | ⟨⟨x, r, rfl⟩, _, he⟩ | ⟨⟨ch, rfl⟩, _, he⟩ :=
      effect_writes_one_field s hfeed hcontrol
    case inl | inr.inl => simp [he, hi]
    all_goals simp [he]
  · obtain ⟨hphase, hscratch, hcmd, hlen, hpayload, hcsum, hpbuf, hhold, hframes⟩ := clockEdge_keeps_decoder hr hs ha h
    exact ⟨hphase, hscratch, hcmd, hlen, hpayload, hcsum, fun a => by rw [hpbuf], hhold, hframes⟩

end Sys2Proof.Machine

/-! # Exceptional conditions (R200 to R206)

An instruction that does not complete refuses by name (`exec_outcome`), and noise between frames leaves nothing but an entry
of the raw channel (`feedTransaction_skips`). -/

namespace Sys2Proof.Machine

/-! ### Where an instruction stops (R200, I7) -/

/-- The resets apply in every state (R171, R172). -/
theorem applies_of_control {i : Instr} {s : State} (hi : i.format = .control) : applies s i := by
  cases i
  case reset | rst => exact trivial
  all_goals cases hi

/-- The only rows of the trace that can stop are the two pushes, at a capacity of 0 (I7). -/
theorem exec_log_of_not_applies {i : Instr} {s : State} (hl : i.format = .log) (h : ¬ applies s i) :
    s.logCapacity = 0 ∧ exec i s = .refused .logCapacityZero := by
  cases i
  case logPushRaw | logPushRecord =>
    have hc : s.logCapacity = 0 := not_not.1 h
    exact ⟨hc, if_pos hc⟩
  case logSnapshot => exact absurd trivial h
  all_goals cases hl

/-- An instruction completes, does not apply, or is a push to a log of capacity 0. -/
theorem exec_outcome (i : Instr) (s : State) :
    exec i s = .next (effect s i) ∨ (∃ m, exec i s = .refused (.rowNotApplicable m)) ∨
      (s.logCapacity = 0 ∧ exec i s = .refused .logCapacityZero) := by
  by_cases h : applies s i
  · exact .inl (exec_eq_next.2 ⟨h, rfl⟩)
  by_cases hl : i.format = .log
  · exact .inr (.inr (exec_log_of_not_applies hl h))
  · exact .inr (.inl (exec_refused_of_not_applies (mt applies_of_control h) hl h))

/-- Settles O31: none of the three outcomes is a fault, the two refusals are the ones named, and at a capacity of 0 the guard
of a push holds. -/
theorem noInstructionFaults : Obligations.NoInstructionFaults := by
  refine fun i s => ⟨fun r hr => ?_, fun r hr => ?_, fun hc _ _ => if_pos hc, fun hc _ _ => if_pos hc⟩
  · obtain h | ⟨m, h⟩ | ⟨-, h⟩ := exec_outcome i s <;> cases h.symm.trans hr
  · obtain h | ⟨m, h⟩ | ⟨hc, h⟩ := exec_outcome i s <;> cases h.symm.trans hr
    · exact .inl ⟨m, rfl⟩
    · exact .inr ⟨rfl, hc⟩

/-! ### Noise between frames (R101, R201) -/

/-- A byte other than START_MARKER, accepted while scanning, is logged and closes the window; nothing follows from it. -/
theorem feedTransaction_skips {b : Byte} {s : State} (hc : s.logCapacity ≠ 0) (hp : s.phase = .waitStart)
    (hpend : s.pending = []) (hb : b ≠ Config.startMarker) :
    feedTransaction b s = .next (beforeRow (Config.timestamp s.draws) b s.drawn) := by
  have happlies : applies (beforeRow (Config.timestamp s.draws) b s.drawn) (.feedWsSkip b) := ⟨hp, hb⟩
  have hwf : (Instr.feedWsSkip b).wf = true := by simpa [Instr.wf] using hb
  have hpush : exec (.logPushRaw (Config.timestamp s.draws) b) s.drawn.closeWindow = .next _ := exec_eq_next.2 ⟨hc, rfl⟩
  rw [feedTransaction_of_no_pending b hpend,
    acceptByte_of_rows hpush (decode_feedWord_of_applies hwf rfl happlies) (exec_eq_next.2 ⟨happlies, rfl⟩)]
  exact deliverAll_nil hpend

/-- A state with what a discarded byte changes left out: the raw channel (R151), the frame window (R77, R238), the draw
counter, and what is presented. -/
def State.butNoise (s : State) : State :=
  { s with traceRaw := [], hold := none, frameValid := false, pbuf := [], draws := 0, inputs := [] }

/-- Noise of any length completes and changes nothing else, by induction on the bytes. -/
theorem feedBytes_skips {bs : List Byte} {s : State} (hc : s.logCapacity ≠ 0) (hp : s.phase = .waitStart)
    (hpend : s.pending = []) (hbs : ∀ b ∈ bs, b ≠ Config.startMarker) :
    ∃ t, feedBytes bs s = .next t ∧ t.butNoise = s.butNoise := by
  induction bs generalizing s with
  | nil => exact ⟨_, rfl, rfl⟩
  | cons b bs ih =>
    obtain ⟨hb, hbs⟩ := List.forall_mem_cons.1 hbs
    obtain ⟨t, ht, hst⟩ := ih (s := beforeRow (Config.timestamp s.draws) b s.drawn) hc hp hpend hbs
    exact ⟨t, by rw [feedBytes_cons, feedTransaction_skips hc hp hpend hb, andThen_next, ht], hst⟩

/-- Settles O51: the fields it names are among those that noise does not change. -/
theorem noiseIsDiscarded : Obligations.NoiseIsDiscarded := by
  intro bs s hI hp hpend hbs
  obtain ⟨t, ht, hst⟩ := feedBytes_skips (Nat.one_le_iff_ne_zero.1 hI.capacity) hp hpend hbs
  obtain ⟨hphase, hscratch, hcmd, hlen, hpayload, hcsum, -, -, htraceRec, -, -, -, -, -, hframes, hrecords, htriggers, -⟩ :=
    State.mk.inj hst
  exact ⟨t, ht, hphase.trans hp, hscratch, hpayload, hcmd, hlen, hcsum, hframes, hrecords, htriggers, htraceRec⟩

end Sys2Proof.Machine

/-! # The resets (R230, R231)

What a stream of bytes emits depends on the progress of the frame alone, also when records are still to be taken, as they may
be after RESET (R110); and either reset leaves no progress. -/

namespace Sys2Proof.Machine

/-- Settles O12: `hardReset` field by field; `in_ready` and the three valid ports follow from `rst` and the empty fields. -/
theorem hardResetGivesTheResetState : Obligations.HardResetGivesTheResetState := fun s =>
  ⟨s.hardReset, execRst_eq_next.2 rfl, rfl, rfl, rfl, rfl, rfl, rfl, rfl, rfl, fun _ => ⟨rfl, rfl, rfl⟩,
    fun _ _ hrst => by simp [portOut, inReady, hrst], rfl, rfl, rfl, rfl, rfl, rfl, rfl⟩

/-! ### What either reset leaves -/

/-- A state that a reset answers is one of these two. -/
theorem eq_softReset_or_hardReset {s t : State} (h : exec .reset s = .next t ∨ exec .rst s = .next t) :
    t = s.softReset ∨ t = s.hardReset :=
  h.imp execReset_eq_next.1 execRst_eq_next.1

theorem reset_phase {s t : State} (h : exec .reset s = .next t ∨ exec .rst s = .next t) : t.phase = .waitStart := by
  rcases eq_softReset_or_hardReset h with rfl | rfl <;> rfl

theorem reset_frames {s t : State} (h : exec .reset s = .next t ∨ exec .rst s = .next t) : t.frames = s.frames := by
  rcases eq_softReset_or_hardReset h with rfl | rfl <;> rfl

theorem reset_inv {s t : State} (hI : s.Inv) (h : exec .reset s = .next t ∨ exec .rst s = .next t) : t.Inv := by
  rcases eq_softReset_or_hardReset h with rfl | rfl
  · exact hI.softReset
  · exact hI.hardReset

/-! ### Bytes fed while records are still to be taken -/

/-- The first byte waits until the records have been taken (R51, R78). -/
theorem feedTransaction_of_deliverAll {s d : State} (b : Byte) (h : deliverAll s = .next d) (hp : d.pending = []) :
    feedTransaction b s = feedTransaction b d := by
  rw [feedTransaction_of_no_pending b hp, feedTransaction, h, andThen_next]

/-- Feeding any bytes completes, makes the progress and completes the frames that the progress before them determines,
whatever records are still to be taken. -/
theorem feedBytes_progress (bs : List Byte) {s : State} (hI : s.Inv) :
    ∃ t, feedBytes bs s = .next t ∧ t.progress = s.progress.feedAll bs ∧
      t.frames = s.frames ++ s.progress.emitsAll bs := by
  cases bs with
  | nil => exact ⟨_, rfl, rfl, (List.append_nil _).symm⟩
  | cons b bs =>
    obtain ⟨es, -, hd⟩ := deliverAll_eq hI
    obtain ⟨t, ht, hfed⟩ := feedBytes_fed (b :: bs) (deliverAll_inv hI hd) rfl
    refine ⟨t, ?_, hfed.progress, hfed.frames⟩
    rw [feedBytes_cons, feedTransaction_of_deliverAll b hd rfl, ← feedBytes_cons, ht]

/-- Bytes fed after either reset are decoded from no progress at all. -/
theorem feedBytes_after_reset (bs : List Byte) {s t : State} (hI : s.Inv)
    (h : exec .reset s = .next t ∨ exec .rst s = .next t) :
    ∃ u, feedBytes bs t = .next u ∧ u.phase = (Progress.waitStart.feedAll bs).phase ∧
      u.frames = s.frames ++ Progress.waitStart.emitsAll bs := by
  obtain ⟨u, hu, hprogress, hframes⟩ := feedBytes_progress bs (reset_inv hI h)
  have hstart : t.progress = .waitStart := by rw [State.progress, reset_phase h]
  rw [hstart] at hprogress hframes
  exact ⟨u, hu, by rw [← progress_phase, hprogress], by rw [hframes, reset_frames h]⟩

/-- Settles O14: in WaitStart the byte alone selects the row, and the bytes after a reset make the same of either state. -/
theorem decodingStartsAfreshAfterAReset : Obligations.DecodingStartsAfreshAfterAReset := by
  refine ⟨fun s t b h => ?_, fun s1 s2 t1 t2 bs hI1 hI2 h1 h2 => ?_⟩
  · rw [decode_feedWord_eq, reset_phase h]
    exact (apply_ite Except.ok ..).symm
  · obtain ⟨u1, hu1, hphase1, hframes1⟩ := feedBytes_after_reset bs hI1 h1
    obtain ⟨u2, hu2, hphase2, hframes2⟩ := feedBytes_after_reset bs hI2 h2
    exact ⟨u1, u2, _, hu1, hu2, hphase1.trans hphase2.symm, hframes1, hframes2⟩

end Sys2Proof.Machine
